-- ==== Sys2Proof/Word.lean ====
section
/-! DEFINITION. The widths of the block's values (00_scope.md R10, 30_encoding.md R100, R101). -/

namespace Sys2Proof

/-- An expander byte, or a command or data value: 8 bits (R10). -/
abbrev Byte := BitVec 8

/-- A nibble: 4 bits (R10). -/
abbrev Nibble := BitVec 4

/-- A command word: 24 bits (R101, R109). -/
abbrev CommandWord := BitVec 24

/-- A display-RAM address: 7 bits (R10, R70). -/
abbrev DdramAddr := BitVec 7

end Sys2Proof
end

