-- ==== Sys2Proof/Syntax.lean ====
section
/-! DEFINITION. The commands of the block, one constructor per row of spec/opcode_table.json (30_encoding.md R106). -/

namespace Sys2Proof

/-- A legal command word's content. LINE and COL are the unsigned integers R105 calls them (compared and added, never sliced);
VALUE is a byte, D one bit. -/
inductive Instr where
  /-- ENABLE (43_display_commands.md R231) -/
  | enable
  /-- POWER_ON (42_state_control.md R200) -/
  | powerOn
  /-- POWER_OFF (42_state_control.md R202) -/
  | powerOff
  /-- BL_ON (42_state_control.md R204) -/
  | blOn
  /-- BL_OFF (42_state_control.md R206) -/
  | blOff
  /-- CLEAR (43_display_commands.md R238) -/
  | clear
  /-- HOME (43_display_commands.md R240) -/
  | home
  /-- SETPOS line, col (41_address_resolver.md R174) -/
  | setpos (line col : Nat)
  /-- RESOLVE line, col (41_address_resolver.md R172) -/
  | resolve (line col : Nat)
  /-- SEND.C value (d = false) and SEND.D value (d = true) (40_bit_packer.md R145) -/
  | send (d : Bool) (value : Byte)
  deriving DecidableEq, Repr

end Sys2Proof
end

