-- ==== Sys2Proof/WellFormed.lean ====
section
/-! DEFINITION. Which instructions a command word can hold (30_encoding.md R101, R104, R110): LINE and COL are 8-bit fields. -/

namespace Sys2Proof

/-- An 8-bit operand field holds 0..255 (R104, R105, R110). -/
def fitsField (n : Nat) : Bool := n ≤ 255

/-- The operands fit their fields. -/
def Instr.wellFormed : Instr → Bool
  | .enable | .powerOn | .powerOff | .blOn | .blOff | .clear | .home => true
  | .setpos line col => fitsField line && fitsField col
  | .resolve line col => fitsField line && fitsField col
  | .send _ _ => true

end Sys2Proof
end

