-- ==== Sys2Proof/Decode.lean ====
section
/-! DEFINITION. Decoding, total on every 24-bit word (30_encoding.md R107), and the encoder (R101 to R106). -/

namespace Sys2Proof

/-- Why a word is ILLEGAL (30_encoding.md R108). -/
inductive DecodeError where
  /-- opcode 0x0 or 0xB..0xF -/
  | reservedOpcode
  /-- a legal opcode whose must-be-zero field is not zero -/
  | mustBeZero
  deriving DecidableEq, Repr

/-- `OP = w[23:20]` (R101). -/
def opcodeField (w : CommandWord) : Nat := (w.extractLsb' 20 4).toNat

/-- `LINE = w[15:8]` (R104). -/
def lineField (w : CommandWord) : Nat := (w.extractLsb' 8 8).toNat

/-- `COL = w[7:0]` (R104). -/
def colField (w : CommandWord) : Nat := (w.extractLsb' 0 8).toNat

/-- `D = w[8]` (R103). -/
def dField (w : CommandWord) : Bool := w.getLsbD 8

/-- `VALUE = w[7:0]` (R103). -/
def valueField (w : CommandWord) : Byte := w.extractLsb' 0 8

/-- Format Z: `w[19:0]` must be 0 (R102). -/
def decodeZ (w : CommandWord) (i : Instr) : Except DecodeError Instr :=
  if w.extractLsb' 0 20 = 0 then .ok i else .error .mustBeZero

/-- Format P: `w[19:16]` must be 0 (R104). -/
def decodeP (w : CommandWord) (i : Nat → Nat → Instr) : Except DecodeError Instr :=
  if w.extractLsb' 16 4 = 0 then .ok (i (lineField w) (colField w)) else .error .mustBeZero

/-- Format S: `w[19:9]` must be 0 (R103). -/
def decodeS (w : CommandWord) (i : Bool → Byte → Instr) : Except DecodeError Instr :=
  if w.extractLsb' 9 11 = 0 then .ok (i (dField w) (valueField w)) else .error .mustBeZero

/-- `decode` of R107, with the reason a word is ILLEGAL. -/
def decode (w : CommandWord) : Except DecodeError Instr :=
  match opcodeField w with
  | 0x1 => decodeZ w .enable
  | 0x2 => decodeZ w .powerOn
  | 0x3 => decodeZ w .powerOff
  | 0x4 => decodeZ w .blOn
  | 0x5 => decodeZ w .blOff
  | 0x6 => decodeZ w .clear
  | 0x7 => decodeZ w .home
  | 0x8 => decodeP w .setpos
  | 0x9 => decodeP w .resolve
  | 0xA => decodeS w .send
  | _   => .error .reservedOpcode

/-- A word of format P with opcode `op`: `op << 20 | LINE << 8 | COL` (R104, R172, R174). -/
def encodeP (op : CommandWord) (line col : Nat) : CommandWord :=
  op <<< 20 ||| BitVec.ofNat 24 line <<< 8 ||| BitVec.ofNat 24 col

/-- The word of an instruction (R101 to R106). -/
def encode : Instr → CommandWord
  | .enable         => 0x100000#24
  | .powerOn        => 0x200000#24
  | .powerOff       => 0x300000#24
  | .blOn           => 0x400000#24
  | .blOff          => 0x500000#24
  | .clear          => 0x600000#24
  | .home           => 0x700000#24
  | .setpos l c     => encodeP 0x8#24 l c
  | .resolve l c    => encodeP 0x9#24 l c
  | .send d v       => 0xA00000#24 ||| (BitVec.ofBool d).zeroExtend 24 <<< 8 ||| v.zeroExtend 24

/-- The instruction the decoder reads from a word of the opcode table, `nbits` long. A command word has exactly 24 bits
(R109): a longer row is none, the bits a shorter row leaves out are 0. -/
def decodeTableWord (nbits w : Nat) : Option Instr :=
  if nbits ≤ 24 then (decode (BitVec.ofNat 24 (w % 2 ^ nbits))).toOption else none

end Sys2Proof
end

