-- ==== Sys2Proof/Config.lean ====
section
/-! DEFINITION. The implementation parameters of 00_scope.md R8, and the values the spec leaves free. -/

namespace Sys2Proof

/-- `PINMAP` (00_scope.md R8): the bit position 0..7 of each signal in the expander byte. -/
structure PinMap where
  rs : Fin 8
  e  : Fin 8
  bl : Fin 8
  d4 : Fin 8
  d5 : Fin 8
  d6 : Fin 8
  d7 : Fin 8
  deriving DecidableEq, Repr

/-- The default pin assignment RS=0, E=2, BL=3, D4..D7=4..7 (R8, D9, G4: from general knowledge, for the worked vectors only). -/
def PinMap.standard : PinMap := { rs := 0, e := 2, bl := 3, d4 := 4, d5 := 5, d6 := 6, d7 := 7 }

/-- The parameters the block is elaborated with, fixed for its lifetime (R8, R40). `NREQ` is the number of ports of the
state, and `ARB_POLICY` is `Config.arbChoice`. -/
structure Params where
  /-- `ROWS`, legal 1..4 -/
  rows : Nat
  /-- `COLUMNS`, legal 1..40 -/
  columns : Nat
  /-- `PINMAP`, legal when the seven positions are distinct -/
  pinMap : PinMap
  /-- `CLK_HZ`, legal from 1000 -/
  clkHz : Nat
  /-- `BL_IMMEDIATE_WRITE`: whether a backlight command emits a bus write -/
  blImmediateWrite : Bool
  /-- `PULSE_GAP_CYCLES`: minimum idle cycles between two bus writes of one nibble transaction -/
  pulseGapCycles : Nat
  /-- `CMD_WAIT_CYCLES`: minimum idle cycles after the last bus write of a byte -/
  cmdWaitCycles : Nat
  deriving DecidableEq, Repr

/-- The parameters of the reset state: the values 95_test_vectors.md uses where no vector says otherwise (`CLK_HZ` from V7.7),
on its 16×2 geometry. DESIGN CHOICE (log 1): R8 leaves them to the elaboration; no statement rests on them. -/
def Params.standard : Params :=
  { rows := 2, columns := 16, pinMap := .standard, clkHz := 1000, blImmediateWrite := true
    pulseGapCycles := 0, cmdWaitCycles := 0 }

namespace Config

/-- `ARB_POLICY` (R8, R321, D4, U5), OPEN: which of several waiting requesters the arbiter takes. The first argument is the
model's counter of accepted words, so that every history of choices is admitted. No body: a free value (log 2). -/
opaque arbChoice : Nat → List Nat → Nat

/-- The free draw of a transport answer (R332, U9), true for `err`. The argument is the model's counter of draws.
No body: a free value (log 3). -/
opaque transportDraw : Nat → Bool

/-- What the controller latches, as (RS, nibble), from a bus write that is not known to have succeeded or a bind that failed on, up to the
next ENABLE (R144, R325, R365, U1, U10: any value). The arguments are the bus writes and the number of events of the trace up to that ENABLE, or to the
trace's end. No body: a free value (log 15). -/
opaque uncertainLatches : List (BitVec 8) → Nat → List (Bool × BitVec 4)

end Config

end Sys2Proof
end

