-- ==== Sys2Proof/Machine/State.lean ====
section
/-! DEFINITION. The state of the block and of the agents at its ports (10_state.md R32, R38; 30_encoding.md R100;
60_exceptions.md R330 to R332), as plain data, and its value after reset (70_reset_and_hazards.md R350). -/

namespace Sys2Proof.Machine

/-- The response statuses of 60_exceptions.md R301; their codes are `Status.code`. -/
inductive Status where
  /-- 0: the command completed -/
  | ok
  /-- 1: the power-on flag is 0 and the command is gated; no effect, no error -/
  | okOff
  /-- 2: the position is outside the geometry -/
  | errValidation
  /-- 3: the bind or a bus write returned an error -/
  | errTransport
  /-- 4: a bus write is needed and the hardware is not enabled -/
  | errNotInit
  /-- 5: the word is an illegal encoding -/
  | errIllegal
  /-- 6: an earlier command of the same transaction failed -/
  | skipped
  deriving DecidableEq, Repr

/-- A micro-step of the sequencer (10_state.md R38). -/
inductive MicroStep where
  /-- `Write(b)`: one bus write of byte `b` -/
  | write (b : Byte)
  /-- `Bind` -/
  | bind
  /-- `Wait(ms)` (43_display_commands.md R236) -/
  | wait (ms : Nat)
  /-- `Gap(n)`: at least `n` idle cycles -/
  | gap (n : Nat)
  /-- `Respond(status, addr)` -/
  | respond (status : Status) (addr : DdramAddr)
  deriving DecidableEq, Repr

/-- `S.seq` (10_state.md R38). `busy k word last []` is a command that has been accepted and not yet decoded. -/
inductive Seq where
  | idle
  | busy (port : Nat) (word : CommandWord) (last : Bool) (steps : List MicroStep)
  deriving DecidableEq, Repr

/-- A command word as a requester presents it: `req_word[k]` and `req_last[k]` (30_encoding.md R100). -/
structure Request where
  word : CommandWord
  last : Bool
  deriving DecidableEq, Repr

/-- `rsp_status[k]` and `rsp_addr[k]` in the response cycle (60_exceptions.md R302). -/
structure Response where
  status : Status
  addr : DdramAddr
  deriving DecidableEq, Repr

/-- One requester port (30_encoding.md R100) with the requester behind it. -/
structure Port where
  /-- the words the requester still has to present; the head is on `req_word`/`req_last`, `req_valid` = 1 while there is one -/
  pending : List Request
  /-- the response on the port: none while `rsp_valid` = 0 -/
  rsp : Option Response
  deriving DecidableEq, Repr

/-- What the transport answers to a bus write or a bind: `bw_err`/`bind_err` = 0 or 1 (60_exceptions.md R330, R331). -/
inductive Answer where
  | ok
  | err
  deriving DecidableEq, Repr

/-- What the transport does after the answers listed for it (60_exceptions.md R332). -/
inductive AfterScript where
  /-- every request succeeds -/
  | succeeds
  /-- every outcome is a free draw, `Config.transportDraw` -/
  | free
  /-- no request is ever completed -/
  | silent
  deriving DecidableEq, Repr

/-- The transport (60_exceptions.md R332): an external agent, held as the answers it is going to give. -/
structure Transport where
  script : List Answer
  after : AfterScript
  /-- how many free outcomes have been drawn -/
  draws : Nat
  deriving DecidableEq, Repr

/-- What is observed of the block (92_eei_decisions.md D33), and the resets it was given (log 9). -/
inductive Event where
  /-- a bind has been requested -/
  | bind
  /-- a bus write of this byte has been presented -/
  | write (b : Byte)
  /-- a wait of at least this many milliseconds -/
  | wait (ms : Nat)
  /-- the response to a command word of this port -/
  | response (port : Nat) (status : Status) (addr : DdramAddr)
  /-- an edge with `rst` = 1: an input, recorded because it may cut a bus write off (70_reset_and_hazards.md R351) -/
  | reset
  deriving DecidableEq, Repr

/-- The state. The first ten fields are `S` of 10_state.md R32; `ports` are the requester ports of R100; `transport` is the
agent of R332; `params` are the parameters of R8, constant; `trace` and `arbDraws` are the model's own (log 9, log 2). -/
structure State where
  /-- `S.initialized`: the bus has been bound by ENABLE -/
  initialized : Bool
  /-- `S.power`: the power-on flag -/
  power : Bool
  /-- `S.backlight`: the backlight flag -/
  backlight : Bool
  /-- `S.owner`: the requester holding the transaction lock -/
  owner : Option Nat
  /-- `S.abort`: the current transaction has failed -/
  abort : Bool
  /-- `S.seq`: the sequencer -/
  seq : Seq
  /-- `S.bw_data`: the byte on the bus-write port -/
  bwData : Byte
  /-- `S.bw_valid`: a bus write is outstanding -/
  bwValid : Bool
  /-- `S.bind_req`: a bind is outstanding -/
  bindReq : Bool
  /-- `S.delay`: the wait counter -/
  delay : Nat
  /-- the `NREQ` requester ports -/
  ports : List Port
  /-- the external transport -/
  transport : Transport
  /-- the parameters -/
  params : Params
  /-- every observed event, in order -/
  trace : List Event
  /-- how many words have been accepted -/
  arbDraws : Nat
  deriving DecidableEq, Repr

/-- The machine stops with a fault on nothing: the block has no trap (60_exceptions.md), every error is a response status and
every word has an outcome. -/
inductive Fault where
  deriving DecidableEq, Repr

/-- Why the model gives no meaning. -/
inductive Refusal where
  /-- Raised by `exec` for an instruction that has no meaning yet. Safe. -/
  | notModelled (mnemonic : String)
  /-- Raised by `step`, `clockEdge` and every meaning when the parameters are outside the legal ranges of 00_scope.md R8
  (treatment `refuse` of U12). Safe. -/
  | illegalConfiguration
  /-- Raised by a meaning applied to a state in which no command is executing (the sequencer is IDLE), so that there is no
  requester to answer; `step` never does it (log 12). Safe. -/
  | noCommandExecuting
  deriving DecidableEq, Repr

/-- A port on which no word and no response stands. -/
def Port.quiet : Port := { pending := [], rsp := none }

/-- The transport of the reset state: every request succeeds, as 95_test_vectors.md assumes where it says nothing else.
DESIGN CHOICE (log 3): an input of the block, free in R332; no statement rests on it. -/
def Transport.reliable : Transport := { script := [], after := .succeeds, draws := 0 }

/-- The machine right after reset (70_reset_and_hazards.md R350). The parameters, the number of ports, the quiet requesters and
the transport are inputs of the block, at the values log 1, log 3 and log 4 name. -/
def State.reset : State :=
  { initialized := false, power := false, backlight := false, owner := none, abort := false, seq := .idle
    bwData := 0x00#8, bwValid := false, bindReq := false, delay := 0
    ports := [.quiet], transport := .reliable, params := .standard, trace := [], arbDraws := 0 }

end Sys2Proof.Machine
end

