-- ==== Sys2Proof/Machine/Operands.lean ====
section
/-! DEFINITION. The values the commands compute from their operands and the parameters: the resolver (41_address_resolver.md R170,
R173), the expander byte (40_bit_packer.md R140, 42_state_control.md R203), the controller bytes (43_display_commands.md R230),
the wait count (R236), and which parameters are legal (00_scope.md R8). -/

namespace Sys2Proof.Machine

/-- The seven positions of `PINMAP`. -/
def pinPositions (p : PinMap) : List (Fin 8) := [p.rs, p.e, p.bl, p.d4, p.d5, p.d6, p.d7]

/-- The legal ranges of R8. `PULSE_GAP_CYCLES` and `CMD_WAIT_CYCLES` may be any natural number. -/
def legalParams (p : Params) : Bool :=
  decide (1 ≤ p.rows ∧ p.rows ≤ 4) && decide (1 ≤ p.columns ∧ p.columns ≤ 40) &&
  decide (pinPositions p.pinMap).Nodup && decide (1000 ≤ p.clkHz)

/-- The line-base table (00_scope.md R9, 10_state.md R41), with none where it has no entry. -/
def lineBase : Nat → Option Nat
  | 1 => some 0x00
  | 2 => some 0x40
  | 3 => some 0x14
  | 4 => some 0x54
  | _ => none

/-- `Resolve(L, C)` of R170: none for `Invalid`, else the address `base + C`, an unsigned sum with no "- 1" (90_conflicts.md C1).
A value equal to its maximum is accepted (C3). -/
def resolve (p : Params) (line col : Nat) : Option DdramAddr :=
  if line < 1 ∨ line > p.rows then none
  else if col > p.columns then none
  else (lineBase line).map (fun base => BitVec.ofNat 7 (base + col))

/-- `SetAddrCmd(a) = 0x80 | a` (R173). -/
def setAddrCmd (a : DdramAddr) : Byte := 0x80#8 ||| a.zeroExtend 8

/-- The expander byte with only the bit at `pos` equal to `v`. -/
def pinBit (pos : Fin 8) (v : Bool) : Byte := if v then 1#8 <<< pos.val else 0#8

/-- `Pack(n, rs, bl, e)` of R140; nibble bit k drives D(4+k) (20_memory.md R72), an unmapped bit is 0 (D10). -/
def pack (p : PinMap) (n : Nibble) (rs bl e : Bool) : Byte :=
  pinBit p.d4 (n.getLsbD 0) ||| pinBit p.d5 (n.getLsbD 1) ||| pinBit p.d6 (n.getLsbD 2) ||| pinBit p.d7 (n.getLsbD 3) |||
  pinBit p.rs rs ||| pinBit p.bl bl ||| pinBit p.e e

/-- `BlByte(bl) = Pack(0x0, 0, bl, 0)` (R203). -/
def blByte (p : PinMap) (bl : Bool) : Byte := pack p 0x0#4 false bl false

/-- The high nibble `v[7:4]` (40_bit_packer.md R142). -/
def highNibble (v : Byte) : Nibble := v.extractLsb' 4 4

/-- The low nibble `v[3:0]` (R142). -/
def lowNibble (v : Byte) : Nibble := v.extractLsb' 0 4

/-- `INIT8` of R230, a lone nibble. -/
def init8 : Nibble := 0x3#4

/-- `INIT4` of R230, a lone nibble. -/
def init4 : Nibble := 0x2#4

/-- `FUNCSET` of R230: always 2 lines (D16). -/
def funcSet : Byte := 0x28#8

/-- `DISPCTL` of R230. -/
def dispCtl : Byte := 0x0E#8

/-- `CLEARCMD` of R230. -/
def clearCmd : Byte := 0x01#8

/-- `ENTRYMODE` of R230. -/
def entryMode : Byte := 0x07#8

/-- `HOMECMD` of R230. -/
def homeCmd : Byte := 0x02#8

/-- The count of R236: the ceiling of `ms × CLK_HZ / 1000`. -/
def waitCycles (p : Params) (ms : Nat) : Nat := (ms * p.clkHz + 999) / 1000

end Sys2Proof.Machine
end

