-- ==== Sys2Proof/Machine/Flags.lean ====
section
/-! DEFINITION. The response statuses as codes and classes (60_exceptions.md R301, R310), and how a response changes the
transaction flags `S.owner` and `S.abort` (R310, R320). -/

namespace Sys2Proof.Machine

/-- `rsp_status` (R301). -/
def Status.code : Status → BitVec 3
  | .ok           => 0#3
  | .okOff        => 1#3
  | .errValidation => 2#3
  | .errTransport => 3#3
  | .errNotInit   => 4#3
  | .errIllegal   => 5#3
  | .skipped      => 6#3

/-- The error statuses that abort a transaction, which are the `ERR_*` ones (R310); `OK`, `OK_OFF` and `SKIPPED` never do. -/
def Status.aborts : Status → Bool
  | .errValidation | .errTransport | .errNotInit | .errIllegal => true
  | .ok | .okOff | .skipped => false

/-- `S.owner` when the block accepts a word from requester `k` (R36, R320): the first word of a longer transaction takes the lock. -/
def ownerAfterAccept (owner : Option Nat) (k : Nat) (last : Bool) : Option Nat :=
  match owner with
  | some j => some j
  | none => if last then none else some k

/-- `S.owner` when the block responds to a word (R320): a word marked last releases the lock. -/
def ownerAfterResponse (owner : Option Nat) (last : Bool) : Option Nat :=
  if last then none else owner

/-- `S.abort` when the block responds to a word (R310, R320): a word marked last ends the transaction, any other one aborts it
when its status is an error. -/
def abortAfterResponse (abort last : Bool) (st : Status) : Bool :=
  if last then false else abort || st.aborts

end Sys2Proof.Machine
end

