-- ==== Sys2Proof/Machine/Ops.lean ====
section
/-! DEFINITION. The named operations on the state: the ports, the transport, the micro-steps of the sequencer (10_state.md R38),
raising a status and ending a transaction (60_exceptions.md R300, R302, R310, R318 to R320), and running one command to its
response (20_memory.md R77, R78). -/

namespace Sys2Proof.Machine

/-! ### Configuration -/

/-- The configuration is in the legal ranges of 00_scope.md R8, `NREQ ≥ 1` included. -/
def State.legal (s : State) : Bool := legalParams s.params && !s.ports.isEmpty

/-! ### Ports -/

/-- `rsp_valid[k]` drops on every port (R302: a response stands for one cycle). -/
def State.dropResponses (s : State) : State :=
  { s with ports := s.ports.map (fun p => { p with rsp := none }) }

/-- The ports with a response standing on port `k`. -/
def postResponse (k : Nat) (r : Response) (ports : List Port) : List Port :=
  ports.modify k (fun p => { p with rsp := some r })

/-- The word port `k` presents now, if `req_valid[k]` = 1 (30_encoding.md R100). -/
def State.presented (s : State) (k : Nat) : Option Request :=
  (s.ports[k]?).bind (fun p => p.pending.head?)

/-- The requesters with `req_valid` = 1. -/
def State.waiting (s : State) : List Nat :=
  (List.range s.ports.length).filter (fun k => (s.presented k).isSome)

/-- Which requester the block takes a word from when it is IDLE (R321): the owner of the open transaction, and only it, or, with
no transaction open, the arbiter's choice among the waiting ones; between several the choice is free (log 2). -/
def State.arbitrate (s : State) : Option Nat :=
  match s.owner with
  | some k => if (s.presented k).isSome then some k else none
  | none =>
    match s.waiting with
    | [] => none
    | [k] => some k
    | ks => ks[Config.arbChoice s.arbDraws ks % ks.length]?

/-- `req_ready[k]` outside reset (R100, R321). -/
def State.reqReady (s : State) (k : Nat) : Bool :=
  match s.seq with
  | .busy _ _ _ _ => false
  | .idle => decide (s.owner = some k) || (s.owner.isNone && decide (s.arbitrate = some k))

/-- The block accepts the word port `k` presents (R100, R320): the requester goes on to its next word, the lock is taken if the
word opens a longer transaction, and the sequencer holds the word, not yet decoded. -/
def State.accept (k : Nat) (r : Request) (s : State) : State :=
  { s with
    ports := s.ports.modify k (fun p => { p with pending := p.pending.tail })
    owner := ownerAfterAccept s.owner k r.last
    seq := .busy k r.word r.last []
    arbDraws := s.arbDraws + 1 }

/-- An IDLE block accepts a word if some requester may give one; a busy one does not (`req_ready` = 0). -/
def State.acceptIfIdle (s : State) : State :=
  match s.seq with
  | .busy _ _ _ _ => s
  | .idle =>
    match s.arbitrate with
    | none => s
    | some k =>
      match s.presented k with
      | none => s
      | some r => s.accept k r

/-- Requester `k` queues one more word to present (R100, R322): what the outside world does, not the block. -/
def State.presentRequest (k : Nat) (r : Request) (s : State) : State :=
  { s with ports := s.ports.modify k (fun p => { p with pending := p.pending ++ [r] }) }

/-! ### The transport -/

/-- The transport's answer to the outstanding request, and the transport afterwards; none if it never answers (R332). -/
def Transport.answer (t : Transport) : Option (Answer × Transport) :=
  match t.script with
  | a :: rest => some (a, { t with script := rest })
  | [] =>
    match t.after with
    | .succeeds => some (.ok, t)
    | .free => some (if Config.transportDraw t.draws then .err else .ok, { t with draws := t.draws + 1 })
    | .silent => none

/-- The transport with one more answer before the ones it was going to give. -/
def Transport.push (as : List Answer) (t : Transport) : Transport := { t with script := as ++ t.script }

/-! ### Micro-steps -/

/-- The executing command's remaining micro-steps become `steps` (R38); an IDLE sequencer has none. -/
def Seq.withSteps (steps : List MicroStep) : Seq → Seq
  | .idle => .idle
  | .busy k w last _ => .busy k w last steps

/-- The sequencer's remaining micro-steps become `steps`. -/
def State.setSteps (steps : List MicroStep) (s : State) : State := { s with seq := s.seq.withSteps steps }

/-- The wait counter as the sequencer reaches the micro-steps `steps`: loaded by a wait (43_display_commands.md R236). -/
def delayOnArrival (p : Params) (steps : List MicroStep) (delay : Nat) : Nat :=
  match steps with
  | .wait ms :: _ => waitCycles p ms
  | _ => delay

/-- The event of reaching the micro-steps `steps`: a wait is an ordering point of the trace (R234). -/
def eventOnArrival (steps : List MicroStep) : List Event :=
  match steps with
  | .wait ms :: _ => [.wait ms]
  | _ => []

/-- The sequencer goes on to the micro-steps `steps`. -/
def State.goTo (steps : List MicroStep) (s : State) : State :=
  { s with
    seq := s.seq.withSteps steps
    delay := delayOnArrival s.params steps s.delay
    trace := s.trace ++ eventOnArrival steps }

/-- `Write(b)` starts (60_exceptions.md R330): `bw_data <- b`, `bw_valid <- 1`; a write already outstanding stays as it is. -/
def State.presentWrite (b : Byte) (s : State) : State :=
  { s with
    bwData := if s.bwValid then s.bwData else b
    bwValid := true
    trace := if s.bwValid then s.trace else s.trace ++ [.write b] }

/-- `Bind` starts (R331): `bind_req <- 1`. -/
def State.presentBind (s : State) : State :=
  { s with
    bindReq := true
    trace := if s.bindReq then s.trace else s.trace ++ [.bind] }

/-- The outstanding bus write is over: `bw_valid <- 0`. -/
def State.dropWrite (s : State) : State := { s with bwValid := false }

/-- The outstanding bind is over: `bind_req <- 0`. -/
def State.dropBind (s : State) : State := { s with bindReq := false }

/-- The transport after it has answered. -/
def State.setTransport (t : Transport) (s : State) : State := { s with transport := t }

/-- A successful bind enables the hardware (10_state.md R34, 43_display_commands.md R231). -/
def State.setInitialized (s : State) : State := { s with initialized := true }

/-- The wait counter. -/
def State.setDelay (n : Nat) (s : State) : State := { s with delay := n }

/-- `S.power <- v` (10_state.md R33). -/
def State.setPower (v : Bool) (s : State) : State := { s with power := v }

/-- `S.backlight <- v` (10_state.md R35). -/
def State.setBacklight (v : Bool) (s : State) : State := { s with backlight := v }

/-- `Respond(status, addr)`: the response to requester `k` (60_exceptions.md R302), the sequencer IDLE again, and what the
response does to the transaction. On an error status this is the block's whole "trap entry" (R318, R310), on a word marked
last its "trap return" (R319, R320). -/
def State.respond (k : Nat) (last : Bool) (st : Status) (addr : DdramAddr) (s : State) : State :=
  { s with
    seq := .idle
    owner := ownerAfterResponse s.owner last
    abort := abortAfterResponse s.abort last st
    ports := postResponse k { status := st, addr := addr } s.ports
    trace := s.trace ++ [.response k st addr] }

/-- `Respond(st, addr)` as the only micro-step that is left of the command. -/
def State.answerWith (st : Status) (addr : DdramAddr) (s : State) : State := s.goTo [.respond st addr]

/-- `raise st` (60_exceptions.md R300): the command ends here with that status and address 0; what it has changed stays. -/
def State.raise (st : Status) (s : State) : State := s.answerWith st 0#7

/-- `Gap(n)` as micro-steps (40_bit_packer.md R141): none at all for `n` = 0 (log 8). -/
def gapSteps (n : Nat) : List MicroStep := if n = 0 then [] else [.gap n]

/-! ### A command, run to its response -/

/-- The micro-steps of the executing command of requester `k`, performed one after another to the response (R38, R77): a bus write
or a bind waits for the transport's answer; an `err` ends the command with `ERR_TRANSPORT` and nothing after it (R300, R304,
R325); a transport that never answers leaves the command where it is (R332, log 6). -/
def runSteps (k : Nat) (last : Bool) : List MicroStep → State → State
  | [], s => s
  | .respond st addr :: _, s => s.respond k last st addr
  | .gap _ :: rest, s => runSteps k last rest (s.goTo rest)
  | .wait _ :: rest, s => runSteps k last rest ((s.setDelay 0).goTo rest)
  | .write b :: rest, s =>
    match s.transport.answer with
    | none => s.presentWrite b
    | some (.ok, t) => runSteps k last rest (((s.presentWrite b).dropWrite.setTransport t).goTo rest)
    | some (.err, t) => ((s.presentWrite b).dropWrite.setTransport t).respond k last .errTransport 0#7
  | .bind :: rest, s =>
    match s.transport.answer with
    | none => s.presentBind
    | some (.ok, t) => runSteps k last rest ((s.presentBind.dropBind.setTransport t).setInitialized.goTo rest)
    | some (.err, t) => (s.presentBind.dropBind.setTransport t).respond k last .errTransport 0#7

/-- The executing command, run to its response. -/
def State.finish (s : State) : State :=
  match s.seq with
  | .idle => s
  | .busy k _ last steps => runSteps k last steps s

/-- One command: `start` makes its checks, writes its flags and loads its micro-steps; then it runs to its response. Refused
outside the legal configurations (U12) and where no command is executing (log 12). -/
def runCommand (start : State → State) (s : State) : Host.Outcome State Fault Refusal :=
  if s.legal then
    match s.seq with
    | .idle => .refused .noCommandExecuting
    | .busy _ _ _ _ => .next (start s).finish
  else .refused .illegalConfiguration

/-! ### The checks of 60_exceptions.md R315 -/

/-- Check 1: inside an aborted transaction every word is skipped (R311). -/
def State.unlessAborted (body : State → State) (s : State) : State :=
  if s.abort then s.answerWith .skipped 0#7 else body s

/-- Check 3: the power gate (R305). -/
def State.ifPowered (body : State → State) (s : State) : State :=
  if s.power then body s else s.answerWith .okOff 0#7

/-- Check 4: the position must be valid (R303). -/
def State.ifValid (line col : Nat) (body : DdramAddr → State → State) (s : State) : State :=
  match Sys2Proof.Machine.resolve s.params line col with
  | none => s.raise .errValidation
  | some a => body a s

/-- Check 5: a command that is about to write the bus needs the enabled hardware (R307). -/
def State.ifInitialized (body : State → State) (s : State) : State :=
  if s.initialized then body s else s.raise .errNotInit

end Sys2Proof.Machine
end

