-- ==== Sys2Proof/Machine/BitPacker.lean ====
section
/-! DEFINITION. The Bit-Packer (40_bit_packer.md): the nibble and byte transactions as micro-steps, and SEND. -/

namespace Sys2Proof.Machine

/-- `Nibble(n, rs)` of R141 as micro-steps: E low, E high, E low (C2), every byte carrying the current backlight flag. -/
def nibble (n : Nibble) (rs : Bool) (s : State) : List MicroStep :=
  let b0 := pack s.params.pinMap n rs s.backlight false
  let b1 := pack s.params.pinMap n rs s.backlight true
  [.write b0] ++ gapSteps s.params.pulseGapCycles ++ [.write b1] ++ gapSteps s.params.pulseGapCycles ++ [.write b0]

/-- `SendByte(v, rs)` of R143 as micro-steps: the high nibble first (20_memory.md R71). -/
def sendByte (v : Byte) (rs : Bool) (s : State) : List MicroStep :=
  nibble (highNibble v) rs s ++ nibble (lowNibble v) rs s ++ gapSteps s.params.cmdWaitCycles

/-- `SendByte(v, rs); Respond(OK, addr)`, which is how SEND, CLEAR, HOME and SETPOS end. -/
def State.sendAndRespond (v : Byte) (rs : Bool) (addr : DdramAddr) (s : State) : State :=
  s.goTo (sendByte v rs s ++ [.respond .ok addr])

/-- SEND up to its first micro-step (R145). -/
def startSend (d : Bool) (value : Byte) : State → State :=
  State.unlessAborted (State.ifPowered (State.ifInitialized (State.sendAndRespond value d 0#7)))

/-- SEND (R145). -/
def execSend (d : Bool) (value : Byte) (s : State) : Host.Outcome State Fault Refusal :=
  runCommand (startSend d value) s

end Sys2Proof.Machine
end

