-- ==== Sys2Proof/Machine/Display.lean ====
section
/-! DEFINITION. Hardware enable and the controller commands (43_display_commands.md): ENABLE, CLEAR, HOME. -/

namespace Sys2Proof.Machine

/-- The initialisation sequence of R231 after the bind: three pulses, the mode-switch pulse, each with its wait behind it (R232),
then the four configuration bytes. -/
def initSteps (s : State) : List MicroStep :=
  nibble init8 false s ++ [.wait 200] ++
  nibble init8 false s ++ [.wait 100] ++
  nibble init8 false s ++ [.wait 100] ++
  nibble init4 false s ++ [.wait 10] ++
  sendByte funcSet false s ++ sendByte dispCtl false s ++ sendByte clearCmd false s ++ sendByte entryMode false s

/-- ENABLE up to its bind (R231): not gated by power, and run again in full when the hardware is already enabled (D19). -/
def startEnable : State → State :=
  State.unlessAborted (fun s => s.goTo ([.bind] ++ initSteps s ++ [.respond .ok 0#7]))

/-- ENABLE (R231). -/
def execEnable (s : State) : Host.Outcome State Fault Refusal := runCommand startEnable s

/-- CLEAR up to its first micro-step (R238). -/
def startClear : State → State :=
  State.unlessAborted (State.ifPowered (State.ifInitialized (State.sendAndRespond clearCmd false 0#7)))

/-- CLEAR (R238). -/
def execClear (s : State) : Host.Outcome State Fault Refusal := runCommand startClear s

/-- HOME up to its first micro-step (R240). -/
def startHome : State → State :=
  State.unlessAborted (State.ifPowered (State.ifInitialized (State.sendAndRespond homeCmd false 0#7)))

/-- HOME (R240). -/
def execHome (s : State) : Host.Outcome State Fault Refusal := runCommand startHome s

end Sys2Proof.Machine
end

