-- ==== Sys2Proof/Machine/PowerBacklight.lean ====
section
/-! DEFINITION. Power and backlight control (42_state_control.md): POWER_ON, POWER_OFF, BL_ON, BL_OFF. -/

namespace Sys2Proof.Machine

/-- POWER_ON up to its response (R200): no bus write, not gated (D20). -/
def startPowerOn : State → State :=
  State.unlessAborted (fun s => (s.setPower true).answerWith .ok 0#7)

/-- POWER_ON (R200). -/
def execPowerOn (s : State) : Host.Outcome State Fault Refusal := runCommand startPowerOn s

/-- POWER_OFF up to its response (R202). -/
def startPowerOff : State → State :=
  State.unlessAborted (fun s => (s.setPower false).answerWith .ok 0#7)

/-- POWER_OFF (R202). -/
def execPowerOff (s : State) : Host.Outcome State Fault Refusal := runCommand startPowerOff s

/-- `S.backlight <- v`, then the write of `BlByte(v)`, then `OK`: BL_ON and BL_OFF with `BL_IMMEDIATE_WRITE` (R204, R206). -/
def State.writeBacklight (v : Bool) (s : State) : State :=
  (s.setBacklight v).goTo [.write (blByte s.params.pinMap v), .respond .ok 0#7]

/-- The two forms that `BL_IMMEDIATE_WRITE` selects (R205): with it the enable check and the write, without it the flag alone. -/
def State.switchBacklight (v : Bool) (s : State) : State :=
  if s.params.blImmediateWrite then s.ifInitialized (State.writeBacklight v)
  else (s.setBacklight v).answerWith .ok 0#7

/-- BL_ON up to its first micro-step (R204). -/
def startBlOn : State → State := State.unlessAborted (State.ifPowered (State.switchBacklight true))

/-- BL_ON (R204). -/
def execBlOn (s : State) : Host.Outcome State Fault Refusal := runCommand startBlOn s

/-- BL_OFF up to its first micro-step (R206). -/
def startBlOff : State → State := State.unlessAborted (State.ifPowered (State.switchBacklight false))

/-- BL_OFF (R206). -/
def execBlOff (s : State) : Host.Outcome State Fault Refusal := runCommand startBlOff s

end Sys2Proof.Machine
end

