-- ==== Sys2Proof/Machine/Resolver.lean ====
section
/-! DEFINITION. The Address Resolver's commands (41_address_resolver.md): RESOLVE and SETPOS. -/

namespace Sys2Proof.Machine

/-- RESOLVE up to its response (R172): not gated by power or enable (D24). -/
def startResolve (line col : Nat) : State → State :=
  State.unlessAborted (State.ifValid line col (fun a => State.answerWith .ok a))

/-- RESOLVE (R172). -/
def execResolve (line col : Nat) (s : State) : Host.Outcome State Fault Refusal :=
  runCommand (startResolve line col) s

/-- SETPOS up to its first micro-step (R174). -/
def startSetpos (line col : Nat) : State → State :=
  State.unlessAborted (State.ifPowered (State.ifValid line col (fun a =>
    State.ifInitialized (State.sendAndRespond (setAddrCmd a) false a))))

/-- SETPOS (R174). -/
def execSetpos (line col : Nat) (s : State) : Host.Outcome State Fault Refusal :=
  runCommand (startSetpos line col) s

end Sys2Proof.Machine
end

