-- ==== Sys2Proof/Machine/Dispatch.lean ====
section
/-! DEFINITION. One arm per command of spec/opcode_table.json. -/

namespace Sys2Proof.Machine

/-- The effect of the executing command whose word decodes to `i`, from its checks to its response. -/
def exec (i : Instr) (s : State) : Host.Outcome State Fault Refusal :=
  match i with
  | .enable => Sys2Proof.Machine.execEnable s
  | .powerOn => Sys2Proof.Machine.execPowerOn s
  | .powerOff => Sys2Proof.Machine.execPowerOff s
  | .blOn => Sys2Proof.Machine.execBlOn s
  | .blOff => Sys2Proof.Machine.execBlOff s
  | .clear => Sys2Proof.Machine.execClear s
  | .home => Sys2Proof.Machine.execHome s
  | .setpos line col => Sys2Proof.Machine.execSetpos line col s
  | .resolve line col => Sys2Proof.Machine.execResolve line col s
  | .send d value => Sys2Proof.Machine.execSend d value s

end Sys2Proof.Machine
end

