-- ==== Sys2Proof/Machine/Fetch.lean ====
section
/-! DEFINITION. From an accepted command word to its effect: the abort check, the decoder, the illegal word (60_exceptions.md
R308, R311, R315), and the completion of a command that is already under way. -/

namespace Sys2Proof.Machine

/-- A word of an aborted transaction: `SKIPPED`, with no decoding check (R311). -/
def execSkipped (s : State) : Host.Outcome State Fault Refusal :=
  runCommand (State.answerWith .skipped 0#7) s

/-- An illegal word: `ERR_ILLEGAL`, no flag changed, no bus write (30_encoding.md R108). -/
def execIllegal (s : State) : Host.Outcome State Fault Refusal :=
  runCommand (State.raise .errIllegal) s

/-- An accepted word, run to its response: checks 1 and 2 of R315, then the command. -/
def execWord (w : CommandWord) (s : State) : Host.Outcome State Fault Refusal :=
  if s.abort then execSkipped s
  else match decode w with
    | .ok i => exec i s
    | .error _ => execIllegal s

/-- The sequencer's command, run to its response; an IDLE block has none and stays as it is. -/
def completeCommand (s : State) : Host.Outcome State Fault Refusal :=
  match s.seq with
  | .idle => .next s
  | .busy _ w _ [] => execWord w s
  | .busy _ _ _ (_ :: _) => .next s.finish

/-- The requester the word of `withFetchWord` is given to: the owner of the open transaction, else port 0. -/
def fetchPort (s : State) : Nat := s.owner.getD 0

/-- The ports with `r` next on port `k`; with no transaction open the other requesters present nothing, so that there is
nothing to arbitrate. -/
def placeRequest (k : Nat) (r : Request) (others : Bool) (ports : List Port) : List Port :=
  ports.mapIdx (fun j p =>
    if j = k then { p with pending := r :: p.pending } else if others then p else { p with pending := [] })

/-- The sequencer is IDLE with nothing outstanding, and requester `fetchPort s` presents the word `w`, marked last as a command
that stands alone is (30_encoding.md R110). -/
def placeWord (w : CommandWord) (s : State) : State :=
  { s with
    seq := .idle, bwValid := false, bindReq := false, delay := 0
    ports := placeRequest (fetchPort s) { word := w, last := true } s.owner.isSome s.ports }

end Sys2Proof.Machine
end

