-- ==== Sys2Proof/Machine/Step.lean ====
section
/-! DEFINITION. One step of the machine: one command word, from its acceptance to its response (20_memory.md R77). -/

namespace Sys2Proof.Machine

/-- One step. The responses of the step before drop (60_exceptions.md R302); an IDLE block accepts a word if a requester may give
one (R321); then the command runs to its response. With no word to accept the block waits, and a command the transport left
unanswered is taken up again where it stands (R332). -/
def step (s : State) : Host.Outcome State Fault Refusal :=
  if s.legal then completeCommand s.dropResponses.acceptIfIdle else .refused .illegalConfiguration

/-- `s` with the command word `w` (24 bits, the bits above `nbits` zero) where the next step takes its word from. -/
def State.withFetchWord (s : State) (nbits w : Nat) : State :=
  placeWord (BitVec.ofNat 24 (w % 2 ^ nbits)) s

end Sys2Proof.Machine
end

