-- ==== Sys2Proof/Machine/TextOps.lean ====
section
/-! DEFINITION. The host-side text operations as runs of command words (44_text_pseudo_ops.md): no state and no logic of the block. -/

namespace Sys2Proof.Machine

/-- `sp(n)`: n space bytes (R271). -/
def spaces (n : Nat) : List Byte := List.replicate n 0x20#8

/-- `trunc(t)`: the first `COLUMNS` bytes at most (R271). -/
def truncText (columns : Nat) (t : List Byte) : List Byte := t.take columns

/-- `FmtPrint(t)` (R272). -/
def fmtPrint (columns : Nat) (t : List Byte) : List Byte :=
  truncText columns t ++ spaces (columns - (truncText columns t).length)

/-- `FmtCenter(t)` (R273). -/
def fmtCenter (columns : Nat) (t : List Byte) : List Byte :=
  let u := truncText columns t
  let lead := (columns - u.length) / 2
  spaces lead ++ u ++ spaces (columns - lead - u.length)

/-- `FmtRjust(t)` (R275). -/
def fmtRjust (columns : Nat) (t : List Byte) : List Byte :=
  spaces (columns - (truncText columns t).length) ++ truncText columns t

/-- The payload of a text transaction: SEND.D words, the last of them marked last (R281). -/
def sendWords : List Byte → List Request
  | [] => []
  | [b] => [{ word := encode (.send true b), last := true }]
  | b :: bs => { word := encode (.send true b), last := false } :: sendWords bs

/-- `Expand(L, s)` (R281): `SETPOS L, 0`, then the payload. -/
def expand (line : Nat) (text : List Byte) : List Request :=
  { word := encode (.setpos line 0), last := false } :: sendWords text

/-- PRINT_AT (R274). -/
def printAt (columns line : Nat) (t : List Byte) : List Request := expand line (fmtPrint columns t)

/-- CENTER_AT (R276). -/
def centerAt (columns line : Nat) (t : List Byte) : List Request := expand line (fmtCenter columns t)

/-- RJUST_AT (R278). -/
def rjustAt (columns line : Nat) (t : List Byte) : List Request := expand line (fmtRjust columns t)

/-- CLEAR_LINE (R280): the blank line. -/
def clearLine (columns line : Nat) : List Request := expand line (spaces columns)

/-- What the host reports of a text operation (R282): the first error status of its transaction, or none for "no error"
(`OK` and `OK_OFF` are no error, R306). -/
def hostResult (sts : List Status) : Option Status := sts.find? Status.aborts

end Sys2Proof.Machine
end

