-- ==== Sys2Proof/Machine/Asm.lean ====
section
/-! DEFINITION. The assembly syntax of a line (30_encoding.md R110, R111): host-side, from text to the words a requester presents.
What R110 leaves open is fixed in log 17. -/

namespace Sys2Proof.Machine

/-- A lexical element of a line. -/
inductive Token where
  /-- a mnemonic, a directive, `last`, or a number as written -/
  | word (s : String)
  /-- a character literal -/
  | char (c : Char)
  /-- a text literal -/
  | text (cs : List Char)
  | comma
  | lbracket
  | rbracket
  deriving DecidableEq, Repr

/-- Where in a line the scanner is; characters of an open element stand last one first. -/
inductive LexMode where
  | between
  | word (acc : List Char)
  | quote
  | quoted (c : Char)
  | text (acc : List Char)
  deriving DecidableEq, Repr

/-- A character of a mnemonic, a directive or a number. -/
def isWordChar (c : Char) : Bool := c.isAlphanum || c == '_' || c == '.'

/-- A character that stands between two elements: what it is by itself, and the mode after it, none at a comment's `;`. -/
def lexBetween (c : Char) : Option (List Token × Option LexMode) :=
  if c == ' ' || c == '\t' then some ([], some .between)
  else if c == ';' then some ([], none)
  else if c == ',' then some ([.comma], some .between)
  else if c == '[' then some ([.lbracket], some .between)
  else if c == ']' then some ([.rbracket], some .between)
  else if c == '\'' then some ([], some .quote)
  else if c == '"' then some ([], some (.text []))
  else if isWordChar c then some ([], some (.word [c]))
  else none

/-- The elements of a line; none where it is no line of R110. -/
def lex : LexMode → List Char → Option (List Token)
  | .between, [] => some []
  | .word acc, [] => some [.word (String.ofList acc.reverse)]
  | _, [] => none
  | .between, c :: cs =>
    match lexBetween c with
    | none => none
    | some (ts, none) => some ts
    | some (ts, some m) => (lex m cs).map (ts ++ ·)
  | .word acc, c :: cs =>
    if isWordChar c then lex (.word (c :: acc)) cs
    else match lexBetween c with
      | none => none
      | some (ts, none) => some (.word (String.ofList acc.reverse) :: ts)
      | some (ts, some m) => (lex m cs).map (.word (String.ofList acc.reverse) :: ts ++ ·)
  | .quote, c :: cs => lex (.quoted c) cs
  | .quoted q, c :: cs => if c == '\'' then (lex .between cs).map (.char q :: ·) else none
  | .text acc, c :: cs =>
    if c == '"' then (lex .between cs).map (.text acc.reverse :: ·) else lex (.text (c :: acc)) cs

/-- The value of a digit in base 10 or 16. -/
def digitValue (base : Nat) (c : Char) : Option Nat :=
  let v :=
    if '0' ≤ c ∧ c ≤ '9' then c.toNat - '0'.toNat
    else if 'a' ≤ c ∧ c ≤ 'f' then c.toNat - 'a'.toNat + 10
    else if 'A' ≤ c ∧ c ≤ 'F' then c.toNat - 'A'.toNat + 10
    else base
  if v < base then some v else none

/-- The number the digits `cs` continue `acc` to. -/
def digitsValue (base : Nat) : Nat → List Char → Option Nat
  | acc, [] => some acc
  | acc, c :: cs => (digitValue base c).bind (fun d => digitsValue base (acc * base + d) cs)

/-- A number in decimal or, after `0x`, in hexadecimal. R110 gives these two notations for the operand of SEND only. DESIGN CHOICE
(log 17): `line`, `col` and the port of a prefix are read in both as well, and so is `.word`, with any number of digits. -/
def numberValue (s : String) : Option Nat :=
  match s.toList with
  | '0' :: 'x' :: c :: cs => digitsValue 16 0 (c :: cs)
  | c :: cs => digitsValue 10 0 (c :: cs)
  | [] => none

/-- An unsigned operand 0..255. -/
def operand (s : String) : Option Nat := (numberValue s).bind (fun n => if n ≤ 255 then some n else none)

/-- The bytes of a text: ASCII bytes as they are, any other character as its several bytes (D35). -/
def textBytes (cs : List Char) : List Byte :=
  cs.flatMap (fun c => (String.utf8EncodeChar c).map (fun b => b.toBitVec))

/-- A SEND with its operand written as a number or as a character literal, which is an ASCII byte. -/
def asmSend (d : Bool) : Token → Option CommandWord
  | .word s => (operand s).map (fun n => encode (.send d (BitVec.ofNat 8 n)))
  | .char c => if c.toNat < 128 then some (encode (.send d (BitVec.ofNat 8 c.toNat))) else none
  | _ => none

/-- A position command with its two operands. -/
def asmPosition (i : Nat → Nat → Instr) (line col : String) : Option CommandWord :=
  (operand line).bind (fun l => (operand col).map (fun c => encode (i l c)))

/-- A command that is its mnemonic alone (format Z). -/
def asmPlain (name : String) : Option CommandWord :=
  if name == "ENABLE" then some (encode .enable)
  else if name == "POWER_ON" then some (encode .powerOn)
  else if name == "POWER_OFF" then some (encode .powerOff)
  else if name == "BL_ON" then some (encode .blOn)
  else if name == "BL_OFF" then some (encode .blOff)
  else if name == "CLEAR" then some (encode .clear)
  else if name == "HOME" then some (encode .home)
  else none

/-- One command word, without its `last`. -/
def asmWord : List Token → Option CommandWord
  | [.word name] => asmPlain name
  | [.word name, operand1] =>
    if name == "SEND.C" then asmSend false operand1
    else if name == "SEND.D" then asmSend true operand1
    else if name == ".word" then
      match operand1 with
      | .word s => (numberValue s).bind (fun n => if n < 2 ^ 24 then some (BitVec.ofNat 24 n) else none)
      | _ => none
    else none
  | [.word name, .word line, .comma, .word col] =>
    if name == "SETPOS" then asmPosition .setpos line col
    else if name == "RESOLVE" then asmPosition .resolve line col
    else none
  | _ => none

/-- A pseudo-instruction's words (R111). -/
def asmPseudo (columns : Nat) : List Token → Option (List Request)
  | [.word name, .word line] =>
    if name == "CLEAR_LINE" then (operand line).map (fun l => clearLine columns l) else none
  | [.word name, .word line, .comma, .text t] =>
    if name == "PRINT_AT" then (operand line).map (fun l => printAt columns l (textBytes t))
    else if name == "CENTER_AT" then (operand line).map (fun l => centerAt columns l (textBytes t))
    else if name == "RJUST_AT" then (operand line).map (fun l => rjustAt columns l (textBytes t))
    else none
  | _ => none

/-- The words of a line without its port: a command with or without `last`, a pseudo-instruction, or nothing at all. -/
def asmBody (columns : Nat) (ts : List Token) : Option (List Request) :=
  match ts with
  | [] => some []
  | _ =>
    match asmPseudo columns ts with
    | some rs => some rs
    | none =>
      if ts.getLast? = some (.word "last") then (asmWord ts.dropLast).map (fun w => [{ word := w, last := true }])
      else (asmWord ts).map (fun w => [{ word := w, last := false }])

/-- A line: the port it goes to, 0 where no prefix `[k]` names one, and its words; none where it is no line of R110. -/
def assembleLine (columns : Nat) (line : String) : Option (Nat × List Request) :=
  match lex .between line.toList with
  | some (.lbracket :: .word k :: .rbracket :: ts) =>
    (numberValue k).bind (fun port => (asmBody columns ts).map (fun rs => (port, rs)))
  | some ts => (asmBody columns ts).map (fun rs => (0, rs))
  | none => none

/-- The lines of a program on the requesters' ports, in order; none if a line is wrong or names a port that is not there. -/
def loadProgram : List String → State → Option State
  | [], s => some s
  | l :: ls, s =>
    match assembleLine s.params.columns l with
    | none => none
    | some (k, rs) =>
      if k < s.ports.length then
        loadProgram ls { s with ports := s.ports.modify k (fun p => { p with pending := p.pending ++ rs }) }
      else none

end Sys2Proof.Machine
end

