-- ==== Sys2Proof/Machine/Clock.lean ====
section
/-! DEFINITION. The block cycle by cycle: one rising edge of `clk`, with the pins the outside world drives (30_encoding.md R100;
43_display_commands.md R236; 60_exceptions.md R302, R330, R331; 70_reset_and_hazards.md R350, R351). A command is the same
micro-steps here as in `step`, one handshake at a time. -/

namespace Sys2Proof.Machine

/-- The input pins of one cycle that are not on a requester port: `rst` (R350), `bw_done`/`bw_err` (R330),
`bind_done`/`bind_err` (R331). -/
structure Pins where
  rst : Bool
  bwDone : Bool
  bwErr : Bool
  bindDone : Bool
  bindErr : Bool
  deriving DecidableEq, Repr

/-- Reset (R350): every field of `S` at its reset value whatever the block was doing, and no response standing. The requesters'
words, the transport, the parameters and the record of past events are not the block's to reset (R40, R351, R352; log 16); the
reset itself is recorded (log 9). -/
def State.applyReset (s : State) : State :=
  { s with
    initialized := false, power := false, backlight := false, owner := none, abort := false, seq := .idle
    bwData := 0x00#8, bwValid := false, bindReq := false, delay := 0
    ports := s.ports.map (fun p => { p with rsp := none })
    trace := s.trace ++ [.reset] }

/-- A command up to its first micro-step. -/
def start (i : Instr) : State → State :=
  match i with
  | .enable => startEnable
  | .powerOn => startPowerOn
  | .powerOff => startPowerOff
  | .blOn => startBlOn
  | .blOff => startBlOff
  | .clear => startClear
  | .home => startHome
  | .setpos line col => startSetpos line col
  | .resolve line col => startResolve line col
  | .send d value => startSend d value

/-- An accepted word up to its first micro-step: checks 1 and 2 of 60_exceptions.md R315, then the command. -/
def startWord (w : CommandWord) (s : State) : State :=
  if s.abort then s.answerWith .skipped 0#7
  else match decode w with
    | .ok i => start i s
    | .error _ => s.raise .errIllegal

/-- The response comes in the cycle after the last other micro-step has completed (R302): it is made at that step's own edge. -/
def State.respondIfDue (s : State) : State :=
  match s.seq with
  | .busy k _ last (.respond st addr :: _) => s.respond k last st addr
  | _ => s

/-- One edge of a busy sequencer. A word just accepted is checked and decoded; a gap or a wait counts down; a bus write or a bind
is presented in one cycle and held until a cycle with `done` = 1, when `err` is sampled and the request drops (R330, R331). -/
def edgeBusy (p : Pins) (k : Nat) (w : CommandWord) (last : Bool) (steps : List MicroStep) (s : State) : State :=
  match steps with
  | [] => (startWord w s).respondIfDue
  | .respond st addr :: _ => s.respond k last st addr
  | .gap n :: rest => if n ≤ 1 then (s.goTo rest).respondIfDue else s.setSteps (.gap (n - 1) :: rest)
  | .wait _ :: rest => if s.delay = 0 then (s.goTo rest).respondIfDue else s.setDelay (s.delay - 1)
  | .write b :: rest =>
    if !s.bwValid then s.presentWrite b
    else if !p.bwDone then s
    else if p.bwErr then s.dropWrite.respond k last .errTransport 0#7
    else (s.dropWrite.goTo rest).respondIfDue
  | .bind :: rest =>
    if !s.bindReq then s.presentBind
    else if !p.bindDone then s
    else if p.bindErr then s.dropBind.respond k last .errTransport 0#7
    else (s.dropBind.setInitialized.goTo rest).respondIfDue

/-- One rising edge. `rst` overrides everything (R316, R350); a response stands for one cycle (R302); an IDLE block accepts. In the
response cycle the block is IDLE and may be ready, so the edge that ends that cycle is the first that can accept the next word:
DESIGN CHOICE (log 8), how R302's "accepted in the following cycle at the earliest" is read. -/
def edge (p : Pins) (s : State) : State :=
  if p.rst then s.applyReset
  else match s.seq with
    | .idle => s.dropResponses.acceptIfIdle
    | .busy k w last steps => edgeBusy p k w last steps s.dropResponses

/-- One rising edge of a legally configured block (R8, U12). -/
def clockEdge (p : Pins) (s : State) : Host.Outcome State Fault Refusal :=
  if s.legal then .next (edge p s) else .refused .illegalConfiguration

/-- Rising edges one after another. -/
def runEdges : List Pins → State → State
  | [], s => s
  | p :: ps, s => runEdges ps (edge p s)

/-- The transport's answer that the block samples at this edge, if it samples one (R330, R331). -/
def sampledAnswer (p : Pins) (s : State) : List Answer :=
  match s.seq with
  | .busy _ _ _ (.write _ :: _) => if s.bwValid && p.bwDone then [if p.bwErr then .err else .ok] else []
  | .busy _ _ _ (.bind :: _) => if s.bindReq && p.bindDone then [if p.bindErr then .err else .ok] else []
  | _ => []

/-- The answers the block samples along a run of edges, in order. -/
def sampledAnswers : List Pins → State → List Answer
  | [], _ => []
  | p :: ps, s => sampledAnswer p s ++ sampledAnswers ps (edge p s)

/-- `req_ready[k]` of a cycle: 0 during reset (R350). -/
def reqReadyPin (p : Pins) (s : State) (k : Nat) : Bool := !p.rst && s.reqReady k

end Sys2Proof.Machine
end

