-- ==== Sys2Proof/Machine/Observe.lean ====
section
/-! DEFINITION. Reading the observed trace (00_scope.md R14, 92_eei_decisions.md D33), and what it gives the controller: the latched
nibbles and the bytes they make (20_memory.md R71, R72, R75; 40_bit_packer.md R144, which makes it the meaning of the trace), free
from a failed bind or write or a cut off write on (60_exceptions.md R325, 70_reset_and_hazards.md R365). -/

namespace Sys2Proof.Machine

/-- The bus writes among some events: the "trace" of R14. -/
def busWrites : List Event → List Byte
  | [] => []
  | .write b :: es => b :: busWrites es
  | _ :: es => busWrites es

/-- The waits among some events. -/
def waits : List Event → List Nat
  | [] => []
  | .wait ms :: es => ms :: waits es
  | _ :: es => waits es

/-- The statuses answered among some events, in order. -/
def statuses : List Event → List Status
  | [] => []
  | .response _ st _ :: es => st :: statuses es
  | _ :: es => statuses es

/-- The events of `s'` after those of `s`. -/
def newEvents (s s' : State) : List Event := s'.trace.drop s.trace.length

/-- The level of the signal at position `pos` while the expander holds `b` (20_memory.md R72). -/
def pinLevel (pos : Fin 8) (b : Byte) : Bool := b.getLsbD pos.val

/-- The nibble on D4..D7 while the expander holds `b`, data line D(4+k) as bit k (R72). -/
def dataNibble (p : PinMap) (b : Byte) : Nibble :=
  (if pinLevel p.d4 b then 1#4 else 0#4) ||| (if pinLevel p.d5 b then 2#4 else 0#4) |||
  (if pinLevel p.d6 b then 4#4 else 0#4) ||| (if pinLevel p.d7 b then 8#4 else 0#4)

/-- A nibble as the controller latches it, with the register it goes to (RS). -/
structure Latched where
  rs : Bool
  nibble : Nibble
  deriving DecidableEq, Repr

/-- The nibbles latched by the bytes that follow `prev`: one at every E-high then E-low pair (R75), with the levels of the E-high
byte. -/
def latchedAfter (p : PinMap) (prev : Byte) : List Byte → List Latched
  | [] => []
  | b :: bs =>
    if pinLevel p.e prev && !pinLevel p.e b then
      { rs := pinLevel p.rs prev, nibble := dataNibble p prev } :: latchedAfter p b bs
    else latchedAfter p b bs

/-- The nibbles a run of applied bus writes latches; before the run E is not high (log 15). -/
def latchedBy (p : PinMap) : List Byte → List Latched
  | [] => []
  | b :: bs => latchedAfter p b bs

/-- A part of the trace, as the controller sees it. -/
inductive Span where
  /-- bus writes the transport has answered with `ok`, one after another -/
  | known (writes : List Byte)
  /-- from a bus write that is not known to have been applied or a bind that failed, up to the next ENABLE: what the controller holds is
  any value (R144, R325, R365, U1, U10). `writes` and `events` are the writes, and the number of events, of the trace up to the span's end -/
  | uncertain (writes : List Byte) (events : Nat)
  deriving DecidableEq, Repr

/-- The events after a bus write or a bind show that the transport answered it with `ok`: the command goes on, or ends with another
status than `ERR_TRANSPORT`, and no reset has cut it off. -/
def answeredOk : List Event → Bool
  | [] => false
  | .reset :: _ => false
  | .response _ st _ :: _ => decide (st ≠ .errTransport)
  | .bind :: _ | .write _ :: _ | .wait _ :: _ => true

/-- The events after a bus write or a bind show that the transport answered it with `err`. -/
def answeredErr : List Event → Bool
  | .response _ st _ :: _ => decide (st = .errTransport)
  | [] | .bind :: _ | .write _ :: _ | .wait _ :: _ | .reset :: _ => false

/-- The spans of the coming events, after the writes `ws` and `n` events in all. `known` is the span so far, none while the
controller is uncertain. A write that is not answered with `ok` ends what is known (R144, R325, U10), and so does a bind that is
answered with `err`: R365 and R304 speak of every `ERR_TRANSPORT`, R144 and U1 of failed writes only, and the wider reading is taken
(DESIGN CHOICE, log 15). A bind that is outstanding, or that a reset has cut off, gives the controller nothing. Only ENABLE, from a bind that is
answered with `ok`, gives a known controller again (R365, U1), and begins a span of its own. -/
def spansFrom (ws : List Byte) (n : Nat) (known : Option (List Byte)) : List Event → List Span
  | [] =>
    match known with
    | some kws => [.known kws]
    | none => [.uncertain ws n]
  | .write b :: es =>
    match known with
    | some kws =>
      if answeredOk es then spansFrom (ws ++ [b]) (n + 1) (some (kws ++ [b])) es
      else .known kws :: spansFrom (ws ++ [b]) (n + 1) none es
    | none => spansFrom (ws ++ [b]) (n + 1) none es
  | .bind :: es =>
    match known with
    | some kws => .known kws :: spansFrom ws (n + 1) (if answeredErr es then none else some []) es
    | none =>
      if answeredOk es then .uncertain ws n :: spansFrom ws (n + 1) (some []) es
      else spansFrom ws (n + 1) none es
  | .wait _ :: es | .response _ _ _ :: es | .reset :: es => spansFrom ws (n + 1) known es

/-- The spans of a trace, from a known controller (log 15). -/
def spans (es : List Event) : List Span := spansFrom [] 0 (some []) es

/-- The nibbles latched in a span; in an uncertain one they are free (`Config.uncertainLatches`, log 15). -/
def Span.latches (p : PinMap) : Span → List Latched
  | .known ws => latchedBy p ws
  | .uncertain ws n => (Config.uncertainLatches ws n).map (fun l => { rs := l.1, nibble := l.2 })

/-- The nibbles a trace gives the controller. -/
def latched (p : PinMap) (es : List Event) : List Latched := (spans es).flatMap (Span.latches p)

/-- Latched nibbles as bytes in 4-bit mode, the high nibble first (R71), each with its register. -/
def receivedBytes : List Latched → List (Bool × Byte)
  | hi :: lo :: rest => (hi.rs, hi.nibble ++ lo.nibble) :: receivedBytes rest
  | _ => []

/-- The bytes a trace gives the controller in 4-bit mode, paired span by span: R144's meaning of the trace. -/
def received (p : PinMap) (es : List Event) : List (Bool × Byte) :=
  (spans es).flatMap (fun sp => receivedBytes (sp.latches p))

/-- After these events the controller is known, it has all of every byte it was given, and E is low. -/
def betweenBytes (p : PinMap) (es : List Event) : Bool :=
  match (spans es).getLast? with
  | some (.known ws) =>
    decide ((latchedBy p ws).length % 2 = 0) && (match ws.getLast? with | some b => !pinLevel p.e b | none => true)
  | _ => false

end Sys2Proof.Machine
end

