-- ==== Sys2Proof/Safety.lean ====
section
/-! DEFINITION. What the statements call a consistent state, and the words they use for the transport and for a frame. -/

namespace Sys2Proof.Machine

/-- The transport answers its next `n` requests with `ok`, and is `t'` afterwards (60_exceptions.md R332). -/
def Transport.Grants : Nat → Transport → Transport → Prop
  | 0, t, t' => t' = t
  | n + 1, t, t' => ∃ t₁, t.answer = some (.ok, t₁) ∧ Transport.Grants n t₁ t'

/-- The transport answers its next `j` requests with `ok` and the one after them with `err`, and is `t'` afterwards. -/
def Transport.FailsAfter (j : Nat) (t t' : Transport) : Prop :=
  ∃ t₁, Transport.Grants j t t₁ ∧ t₁.answer = some (.err, t')

/-- A command is executing for requester `k`, its word marked last or not, with nothing outstanding: the state in which a meaning
is applied. -/
structure State.Executing (k : Nat) (last : Bool) (s : State) : Prop where
  legal : s.legal = true
  busy : ∃ w steps, s.seq = .busy k w last steps
  noWrite : s.bwValid = false
  noBind : s.bindReq = false
  noDelay : s.delay = 0

/-- `s` after the executing command of requester `k` has emitted `events` and answered `st` with `addr`: the response stands on
port `k` and in the trace (60_exceptions.md R302), the sequencer is IDLE, a word marked last has ended the transaction (R320), and an
error status on any other word has aborted it (R310). Nothing else is changed. -/
def State.concluded (k : Nat) (last : Bool) (st : Status) (addr : DdramAddr) (events : List Event) (s : State) : State :=
  { s with
    seq := .idle
    owner := if last then none else s.owner
    abort := !last && (s.abort || st.aborts)
    ports := s.ports.modify k (fun p => { p with rsp := some { status := st, addr := addr } })
    trace := s.trace ++ events ++ [.response k st addr] }

/-- The three bytes of a nibble transaction (40_bit_packer.md R141): E low, E high, E low. -/
def nibbleWrites (p : PinMap) (n : Nibble) (rs bl : Bool) : List Byte :=
  [pack p n rs bl false, pack p n rs bl true, pack p n rs bl false]

/-- The six bytes of a byte transaction (R143): high nibble, then low nibble. -/
def byteWrites (p : PinMap) (v : Byte) (rs bl : Bool) : List Byte :=
  nibbleWrites p (highNibble v) rs bl ++ nibbleWrites p (lowNibble v) rs bl

/-- The byte that stands on `bw_data` after a byte transaction: its last write. -/
def lastByte (p : PinMap) (v : Byte) (rs bl : Bool) : Byte := pack p (lowNibble v) rs bl false

/-- The events of an initialisation pulse with its wait behind it (43_display_commands.md R232). -/
def pulseEvents (p : PinMap) (n : Nibble) (bl : Bool) (ms : Nat) : List Event :=
  (nibbleWrites p n false bl).map .write ++ [.wait ms]

/-- What ENABLE emits after its bind (43_display_commands.md R231). -/
def initEvents (p : PinMap) (bl : Bool) : List Event :=
  pulseEvents p 0x3#4 bl 200 ++ pulseEvents p 0x3#4 bl 100 ++ pulseEvents p 0x3#4 bl 100 ++ pulseEvents p 0x2#4 bl 10 ++
  (byteWrites p 0x28#8 false bl ++ byteWrites p 0x0E#8 false bl ++ byteWrites p 0x01#8 false bl ++
    byteWrites p 0x07#8 false bl).map .write

/-- The micro-step of at least `n` idle cycles (10_state.md R38), none for `n` = 0 (log 8). -/
def idle (n : Nat) : List MicroStep := if n = 0 then [] else [.gap n]

/-- The micro-steps of a nibble transaction: its three writes, with `PULSE_GAP_CYCLES` between them (40_bit_packer.md R141). -/
def nibblePlan (p : Params) (n : Nibble) (rs bl : Bool) : List MicroStep :=
  [.write (pack p.pinMap n rs bl false)] ++ idle p.pulseGapCycles ++ [.write (pack p.pinMap n rs bl true)] ++
  idle p.pulseGapCycles ++ [.write (pack p.pinMap n rs bl false)]

/-- The micro-steps of a byte transaction, with `CMD_WAIT_CYCLES` after it (R143). -/
def bytePlan (p : Params) (v : Byte) (rs bl : Bool) : List MicroStep :=
  nibblePlan p (highNibble v) rs bl ++ nibblePlan p (lowNibble v) rs bl ++ idle p.cmdWaitCycles

/-- The micro-steps of ENABLE after its bind (43_display_commands.md R231, R232). -/
def initPlan (p : Params) (bl : Bool) : List MicroStep :=
  nibblePlan p 0x3#4 false bl ++ [.wait 200] ++ nibblePlan p 0x3#4 false bl ++ [.wait 100] ++
  nibblePlan p 0x3#4 false bl ++ [.wait 100] ++ nibblePlan p 0x2#4 false bl ++ [.wait 10] ++
  bytePlan p 0x28#8 false bl ++ bytePlan p 0x0E#8 false bl ++ bytePlan p 0x01#8 false bl ++ bytePlan p 0x07#8 false bl

/-- How many idle cycles the gaps of some micro-steps ask for in all (70_reset_and_hazards.md R370). -/
def idleCycles : List MicroStep → Nat
  | [] => 0
  | .gap n :: steps => n + idleCycles steps
  | .write _ :: steps | .bind :: steps | .wait _ :: steps | .respond _ _ :: steps => idleCycles steps

/-- Nothing after a bus write shows that it was applied: it is the last event, a reset has cut it off, or it failed
(60_exceptions.md R325, 70_reset_and_hazards.md R351). -/
def NotApplied (es : List Event) : Prop :=
  es = [] ∨ (∃ rest, es = .reset :: rest) ∨ ∃ k a rest, es = .response k .errTransport a :: rest

/-- The event `e`, with the events `es` after it, leaves the controller open: a bus write that nothing shows to be applied, or a bind
that failed (60_exceptions.md R304, 70_reset_and_hazards.md R365). -/
def LeavesControllerOpen (e : Event) (es : List Event) : Prop :=
  (∃ b, e = .write b ∧ NotApplied es) ∨ (e = .bind ∧ ∃ k a rest, es = .response k .errTransport a :: rest)

/-- What the rules of CLEAR, HOME and SEND say alike (43_display_commands.md R238, R240; 40_bit_packer.md R145): skipped inside an
aborted transaction, `OK_OFF` while powered off, `ERR_NOT_INIT` before ENABLE, else the six writes of the byte `v` with RS = `rs`
and `OK`; a write that fails is the last one made, and `ERR_TRANSPORT` is answered. Address 0 always, no flag changed. -/
def SendsByte (i : Instr) (v : Byte) (rs : Bool) : Prop :=
  ∀ (s : State) (k : Nat) (last : Bool), s.Executing k last →
    (s.abort = true → exec i s = .next (s.concluded k last .skipped 0#7 [])) ∧
    (s.abort = false → s.power = false → exec i s = .next (s.concluded k last .okOff 0#7 [])) ∧
    (s.abort = false → s.power = true → s.initialized = false →
      exec i s = .next (s.concluded k last .errNotInit 0#7 [])) ∧
    (s.abort = false → s.power = true → s.initialized = true →
      (∀ t', Transport.Grants 6 s.transport t' →
        exec i s = .next (({ s with bwData := lastByte s.params.pinMap v rs s.backlight, transport := t' } : State).concluded
          k last .ok 0#7 ((byteWrites s.params.pinMap v rs s.backlight).map .write))) ∧
      (∀ pre b post t', byteWrites s.params.pinMap v rs s.backlight = pre ++ b :: post →
        Transport.FailsAfter pre.length s.transport t' →
        exec i s = .next (({ s with bwData := b, transport := t' } : State).concluded
          k last .errTransport 0#7 ((pre ++ [b]).map .write))))

/-- What the rules of BL_ON (`v` = true) and BL_OFF (`v` = false) say alike (42_state_control.md R204 to R206): skipped, `OK_OFF`
and `ERR_NOT_INIT` leave the flag; with `BL_IMMEDIATE_WRITE` one write, with only the BL bit set or no bit at all, `OK` or
`ERR_TRANSPORT`, and the flag at its new value either way; without it the flag alone, enabled or not. -/
def SwitchesBacklight (i : Instr) (v : Bool) : Prop :=
  ∀ (s : State) (k : Nat) (last : Bool), s.Executing k last →
    let b : Byte := if v then 1#8 <<< s.params.pinMap.bl.val else 0#8
    (s.abort = true → exec i s = .next (s.concluded k last .skipped 0#7 [])) ∧
    (s.abort = false → s.power = false → exec i s = .next (s.concluded k last .okOff 0#7 [])) ∧
    (s.abort = false → s.power = true → s.params.blImmediateWrite = true → s.initialized = false →
      exec i s = .next (s.concluded k last .errNotInit 0#7 [])) ∧
    (s.abort = false → s.power = true → s.params.blImmediateWrite = true → s.initialized = true →
      (∀ t', s.transport.answer = some (.ok, t') →
        exec i s = .next (({ s with backlight := v, bwData := b, transport := t' } : State).concluded
          k last .ok 0#7 [.write b])) ∧
      (∀ t', s.transport.answer = some (.err, t') →
        exec i s = .next (({ s with backlight := v, bwData := b, transport := t' } : State).concluded
          k last .errTransport 0#7 [.write b]))) ∧
    (s.abort = false → s.power = true → s.params.blImmediateWrite = false →
      exec i s = .next (({ s with backlight := v } : State).concluded k last .ok 0#7 []))

/-- The commands the power-on flag gates (60_exceptions.md R305). -/
def gated : Instr → Bool
  | .setpos _ _ | .send _ _ | .clear | .home | .blOn | .blOff => true
  | .enable | .powerOn | .powerOff | .resolve _ _ => false

/-- The position a command checks against the geometry (R303). -/
def position : Instr → Option (Nat × Nat)
  | .setpos line col | .resolve line col => some (line, col)
  | .enable | .powerOn | .powerOff | .blOn | .blOff | .clear | .home | .send _ _ => none

/-- The commands that need the bus and are not ENABLE (R307): the gated ones, a backlight command only with
`BL_IMMEDIATE_WRITE`. -/
def needsEnable (p : Params) : Instr → Bool
  | .setpos _ _ | .send _ _ | .clear | .home => true
  | .blOn | .blOff => p.blImmediateWrite
  | .enable | .powerOn | .powerOff | .resolve _ _ => false

/-- How many bus writes a command has made when it answers `OK` (70_reset_and_hazards.md R370). -/
def okWriteCount (p : Params) : Instr → Nat
  | .enable => 36
  | .powerOn | .powerOff | .resolve _ _ => 0
  | .blOn | .blOff => if p.blImmediateWrite then 1 else 0
  | .clear | .home | .send _ _ | .setpos _ _ => 6

/-- No bus write before a bind while the hardware is not enabled (10_state.md R34). -/
def writesEnabled : Bool → List MicroStep → Bool
  | _, [] => true
  | initialized, .write _ :: steps => initialized && writesEnabled initialized steps
  | _, .bind :: steps => writesEnabled true steps
  | initialized, .wait _ :: steps => writesEnabled initialized steps
  | initialized, .gap _ :: steps => writesEnabled initialized steps
  | initialized, .respond _ _ :: steps => writesEnabled initialized steps

/-- Every write still to come carries the backlight flag in its BL bit (20_memory.md R79). -/
def writesCarry (p : PinMap) (bl : Bool) : List MicroStep → Bool
  | [] => true
  | .write b :: steps => (pinLevel p.bl b == bl) && writesCarry p bl steps
  | .bind :: steps | .wait _ :: steps | .gap _ :: steps | .respond _ _ :: steps => writesCarry p bl steps

/-- A command not yet decoded, or micro-steps that end in the command's one response (60_exceptions.md R302). -/
def oneResponse : List MicroStep → Bool
  | [] => true
  | [.respond _ _] => true
  | .respond _ _ :: _ :: _ => false
  | [_] => false
  | _ :: steps => oneResponse steps

/-- What stands on the transport port and in the wait counter is what the first micro-step says (10_state.md R39,
43_display_commands.md R236): an outstanding write is the first micro-step's byte, an outstanding bind is the first micro-step,
and the counter counts only in a wait, from at most the count of 200 ms. -/
structure State.PortsMatch (steps : List MicroStep) (s : State) : Prop where
  write : s.bwValid = true → ∃ rest, steps = .write s.bwData :: rest
  bind : s.bindReq = true → ∃ rest, steps = .bind :: rest
  delay : s.delay ≠ 0 → ∃ ms rest, steps = .wait ms :: rest
  delayBound : s.delay ≤ waitCycles s.params 200
  waitBound : ∀ ms, .wait ms ∈ steps → ms ≤ 200

/-- A busy sequencer's command belongs to the open transaction, or is a transaction of its own (R36, R320). -/
structure State.CommandMatches (k : Nat) (last : Bool) (steps : List MicroStep) (s : State) : Prop where
  port : k < s.ports.length
  open_ : last = false → s.owner = some k
  owner : ∀ j, s.owner = some j → j = k
  enabled : writesEnabled s.initialized steps = true
  carry : writesCarry s.params.pinMap s.backlight steps = true
  response : oneResponse steps = true

/-- A consistent state: the invariant of the block, for every step and every clock edge. -/
structure State.Consistent (s : State) : Prop where
  legal : s.legal = true
  owner : ∀ k, s.owner = some k → k < s.ports.length
  abort : s.abort = true → s.owner.isSome = true
  idle : s.seq = .idle → s.PortsMatch []
  busy : ∀ k w last steps, s.seq = .busy k w last steps → s.PortsMatch steps ∧ s.CommandMatches k last steps

end Sys2Proof.Machine
end

