-- ==== Sys2Proof/Certificates/Slice0/Obligations.lean ====
section
/-! DEFINITION. The statements about the model, from the numbered rules of spec/. -/

open Sys2Proof Sys2Proof.Machine

/-! ### Encoding and decoding (30_encoding.md) -/

/-- R101 to R107, all families: the decoder gives back every instruction whose operands fit, every operand at every value. -/
def Obligations.DecodeOfEncodeIsTheInstruction : Prop :=
  ∀ i : Instr, i.wellFormed = true → decode (encode i) = .ok i

/-- R101 to R107: a legal word has one meaning, and it is the only word with that meaning. -/
def Obligations.EncodeOfDecodedWordIsTheWord : Prop :=
  ∀ (w : CommandWord) (i : Instr), decode w = .ok i → encode i = w ∧ i.wellFormed = true

/-- R107, R108: which words are ILLEGAL, and why. -/
def Obligations.IllegalWordsAreThoseOfR108 : Prop :=
  ∀ w : CommandWord,
    (decode w = .error .reservedOpcode ↔ (w.extractLsb' 20 4).toNat = 0x0 ∨ 0xB ≤ (w.extractLsb' 20 4).toNat) ∧
    (decode w = .error .mustBeZero ↔
      (0x1 ≤ (w.extractLsb' 20 4).toNat ∧ (w.extractLsb' 20 4).toNat ≤ 0x7 ∧ w.extractLsb' 0 20 ≠ 0#20) ∨
      (((w.extractLsb' 20 4).toNat = 0x8 ∨ (w.extractLsb' 20 4).toNat = 0x9) ∧ w.extractLsb' 16 4 ≠ 0#4) ∨
      ((w.extractLsb' 20 4).toNat = 0xA ∧ w.extractLsb' 9 11 ≠ 0#11))

/-- R106 and 95_test_vectors.md: a word of every format decodes to its command, and illegal ones to none. -/
def Obligations.VectorWordsDecode : Prop :=
  decode 0x100000#24 = .ok .enable ∧ decode 0x300000#24 = .ok .powerOff ∧ decode 0x500000#24 = .ok .blOff ∧
  decode 0x800205#24 = .ok (.setpos 2 5) ∧ decode 0x90FFFF#24 = .ok (.resolve 255 255) ∧
  decode 0xA00001#24 = .ok (.send false 0x01#8) ∧ decode 0xA00148#24 = .ok (.send true 0x48#8) ∧
  decode 0x000000#24 = .error .reservedOpcode ∧ decode 0xA00200#24 = .error .mustBeZero

/-! ### The Address Resolver (41_address_resolver.md) -/

/-- R170: the valid positions, equality with a maximum accepted and line 0 not, and their address `base + C`, without wrap. -/
def Obligations.ResolveIsBasePlusColumn : Prop :=
  ∀ (p : Params) (line col : Nat), legalParams p = true →
    (1 ≤ line ∧ line ≤ p.rows ∧ col ≤ p.columns →
      ∃ base a, (line, base) ∈ [(1, 0x00), (2, 0x40), (3, 0x14), (4, 0x54)] ∧ resolve p line col = some a ∧
        a.toNat = base + col) ∧
    (line = 0 ∨ p.rows < line ∨ p.columns < col → resolve p line col = none)

/-- R172: RESOLVE, whatever the flags: the address or `ERR_VALIDATION`, no bus write, nothing changed but by the response. -/
def Obligations.ResolveAnswersTheAddress : Prop :=
  (∀ line col, line ≤ 255 → col ≤ 255 →
    encode (.resolve line col) = 0x900000#24 ||| BitVec.ofNat 24 line <<< 8 ||| BitVec.ofNat 24 col) ∧
  ∀ (s : State) (k : Nat) (last : Bool) (line col : Nat), s.Executing k last →
    (s.abort = true → exec (.resolve line col) s = .next (s.concluded k last .skipped 0#7 [])) ∧
    (s.abort = false → resolve s.params line col = none →
      exec (.resolve line col) s = .next (s.concluded k last .errValidation 0#7 [])) ∧
    (∀ a, s.abort = false → resolve s.params line col = some a →
      exec (.resolve line col) s = .next (s.concluded k last .ok a []))

/-- R174, R173: SETPOS: the gates in their order, then the command byte `0x80 | addr` with RS = 0 and the address in the response. -/
def Obligations.SetposSendsTheAddress : Prop :=
  (∀ line col, line ≤ 255 → col ≤ 255 →
    encode (.setpos line col) = 0x800000#24 ||| BitVec.ofNat 24 line <<< 8 ||| BitVec.ofNat 24 col) ∧
  ∀ (s : State) (k : Nat) (last : Bool) (line col : Nat), s.Executing k last →
    (s.abort = true → exec (.setpos line col) s = .next (s.concluded k last .skipped 0#7 [])) ∧
    (s.abort = false → s.power = false → exec (.setpos line col) s = .next (s.concluded k last .okOff 0#7 [])) ∧
    (s.abort = false → s.power = true → resolve s.params line col = none →
      exec (.setpos line col) s = .next (s.concluded k last .errValidation 0#7 [])) ∧
    (∀ a, s.abort = false → s.power = true → resolve s.params line col = some a → s.initialized = false →
      exec (.setpos line col) s = .next (s.concluded k last .errNotInit 0#7 [])) ∧
    (∀ a, s.abort = false → s.power = true → resolve s.params line col = some a → s.initialized = true →
      (∀ t', Transport.Grants 6 s.transport t' →
        exec (.setpos line col) s =
          .next (({ s with bwData := lastByte s.params.pinMap (0x80#8 ||| a.zeroExtend 8) false s.backlight, transport := t' } :
            State).concluded k last .ok a
              ((byteWrites s.params.pinMap (0x80#8 ||| a.zeroExtend 8) false s.backlight).map .write))) ∧
      (∀ pre b post t', byteWrites s.params.pinMap (0x80#8 ||| a.zeroExtend 8) false s.backlight = pre ++ b :: post →
        Transport.FailsAfter pre.length s.transport t' →
        exec (.setpos line col) s = .next (({ s with bwData := b, transport := t' } : State).concluded
          k last .errTransport 0#7 ((pre ++ [b]).map .write))))

/-! ### The Bit-Packer (40_bit_packer.md) -/

/-- R140, R72: every signal at its position, nibble bit k on D(4+k) (the spec's from general knowledge, G6, log 10), every other bit
0. -/
def Obligations.PackPutsEverySignalAtItsPin : Prop :=
  ∀ (p : PinMap) (n : Nibble) (rs bl e : Bool), (pinPositions p).Nodup →
    pinLevel p.rs (pack p n rs bl e) = rs ∧ pinLevel p.bl (pack p n rs bl e) = bl ∧ pinLevel p.e (pack p n rs bl e) = e ∧
    pinLevel p.d4 (pack p n rs bl e) = n.getLsbD 0 ∧ pinLevel p.d5 (pack p n rs bl e) = n.getLsbD 1 ∧
    pinLevel p.d6 (pack p n rs bl e) = n.getLsbD 2 ∧ pinLevel p.d7 (pack p n rs bl e) = n.getLsbD 3 ∧
    ∀ j : Fin 8, j ∉ pinPositions p → pinLevel j (pack p n rs bl e) = false

/-- R144, R143, R71, R75: the six writes, none of them failing, give the controller the byte, in the register RS selects, whatever the
pin assignment and the backlight. How a trace is read is log 15. -/
def Obligations.ByteTransactionDeliversTheByte : Prop :=
  ∀ (p : PinMap) (v : Byte) (rs bl : Bool) (k : Nat) (a : DdramAddr), (pinPositions p).Nodup →
    (byteWrites p v rs bl).length = 6 ∧ received p ((byteWrites p v rs bl).map .write ++ [.response k .ok a]) = [(rs, v)]

/-- R145: SEND. -/
def Obligations.SendSendsItsValue : Prop :=
  ∀ (d : Bool) (v : Byte),
    encode (.send d v) = 0xA00000#24 ||| (if d then 0x100#24 else 0#24) ||| v.zeroExtend 24 ∧
    SendsByte (.send d v) v d

/-! ### Power and backlight (42_state_control.md) -/

/-- R200: POWER_ON. -/
def Obligations.PowerOnSetsThePowerFlag : Prop :=
  encode .powerOn = 0x200000#24 ∧
  ∀ (s : State) (k : Nat) (last : Bool), s.Executing k last →
    (s.abort = true → exec .powerOn s = .next (s.concluded k last .skipped 0#7 [])) ∧
    (s.abort = false → exec .powerOn s = .next (({ s with power := true } : State).concluded k last .ok 0#7 []))

/-- R202: POWER_OFF. -/
def Obligations.PowerOffClearsThePowerFlag : Prop :=
  encode .powerOff = 0x300000#24 ∧
  ∀ (s : State) (k : Nat) (last : Bool), s.Executing k last →
    (s.abort = true → exec .powerOff s = .next (s.concluded k last .skipped 0#7 [])) ∧
    (s.abort = false → exec .powerOff s = .next (({ s with power := false } : State).concluded k last .ok 0#7 []))

/-- R204, R203, R205: BL_ON. -/
def Obligations.BlOnTurnsTheBacklightOn : Prop := encode .blOn = 0x400000#24 ∧ SwitchesBacklight .blOn true

/-- R206, R203, R205: BL_OFF. -/
def Obligations.BlOffTurnsTheBacklightOff : Prop := encode .blOff = 0x500000#24 ∧ SwitchesBacklight .blOff false

/-! ### Hardware enable and controller commands (43_display_commands.md) -/

/-- R238: CLEAR. -/
def Obligations.ClearSendsTheClearCommand : Prop := encode .clear = 0x600000#24 ∧ SendsByte .clear 0x01#8 false

/-- R240: HOME. -/
def Obligations.HomeSendsTheHomeCommand : Prop := encode .home = 0x700000#24 ∧ SendsByte .home 0x02#8 false

/-- R231, R232: ENABLE: the bind, `initialized`, then the initialisation sequence; a failing bind changes nothing, a failing write
is the last event and leaves `initialized` set. Neither the power-on flag nor `initialized` matters before it. -/
def Obligations.EnableRunsTheInitialisation : Prop :=
  encode .enable = 0x100000#24 ∧
  ∀ (s : State) (k : Nat) (last : Bool), s.Executing k last →
    (s.abort = true → exec .enable s = .next (s.concluded k last .skipped 0#7 [])) ∧
    (s.abort = false →
      (∀ t', Transport.Grants 37 s.transport t' →
        exec .enable s =
          .next (({ s with initialized := true, bwData := lastByte s.params.pinMap 0x07#8 false s.backlight, transport := t' } :
            State).concluded k last .ok 0#7 (.bind :: initEvents s.params.pinMap s.backlight))) ∧
      (∀ t', s.transport.answer = some (.err, t') →
        exec .enable s = .next (({ s with transport := t' } : State).concluded k last .errTransport 0#7 [.bind])) ∧
      (∀ pre b post t', initEvents s.params.pinMap s.backlight = pre ++ .write b :: post →
        Transport.FailsAfter (1 + (busWrites pre).length) s.transport t' →
        exec .enable s =
          .next (({ s with initialized := true, bwData := b, transport := t' } : State).concluded
            k last .errTransport 0#7 (.bind :: (pre ++ [.write b])))))

/-- R233, R230: the 36 writes of ENABLE with the default pin assignment, each OR-ed with the backlight bit, and the waits between
them. -/
def Obligations.EnableTraceOfTheDefaultPins : Prop :=
  ∀ bl : Bool,
    busWrites (initEvents .standard bl) =
      ([0x30, 0x34, 0x30, 0x30, 0x34, 0x30, 0x30, 0x34, 0x30, 0x20, 0x24, 0x20,
        0x20, 0x24, 0x20, 0x80, 0x84, 0x80, 0x00, 0x04, 0x00, 0xE0, 0xE4, 0xE0,
        0x00, 0x04, 0x00, 0x10, 0x14, 0x10, 0x00, 0x04, 0x00, 0x70, 0x74, 0x70] : List Byte).map
        (fun b => b ||| (if bl then 0x08#8 else 0x00#8)) ∧
    waits (initEvents .standard bl) = [200, 100, 100, 10]

/-- R231, R232, R230: what the controller latches from ENABLE, whatever the pin assignment and the backlight: four lone nibbles, then
the nibbles of four command bytes. The nibbles are the spec's from general knowledge (G3, log 10); how a trace is read is log 15. -/
def Obligations.EnableLatchesTheInitialisation : Prop :=
  ∀ (p : PinMap) (bl : Bool) (k : Nat) (a : DdramAddr), (pinPositions p).Nodup →
    latched p (.bind :: initEvents p bl ++ [.response k .ok a]) =
      ([0x3, 0x3, 0x3, 0x2, 0x2, 0x8, 0x0, 0xE, 0x0, 0x1, 0x0, 0x7] : List Nibble).map
        (fun n => { rs := false, nibble := n })

/-! ### Statuses, gates and priority (60_exceptions.md) -/

/-- R301: the codes, distinct, 7 never among them, and which of them abort (R310). -/
def Obligations.StatusCodes : Prop :=
  (Status.ok.code = 0#3 ∧ Status.okOff.code = 1#3 ∧ Status.errValidation.code = 2#3 ∧ Status.errTransport.code = 3#3 ∧
    Status.errNotInit.code = 4#3 ∧ Status.errIllegal.code = 5#3 ∧ Status.skipped.code = 6#3) ∧
  (∀ st : Status, st.code ≠ 7#3 ∧ (st.aborts = true ↔ 2#3 ≤ st.code ∧ st.code ≤ 5#3))

/-- R305: the power gate: the six gated commands, powered off, answer `OK_OFF` with no other change and no bus write; the other
four never answer it. -/
def Obligations.PoweredOffCommandsDoNothing : Prop :=
  (∀ (i : Instr) (s : State) (k : Nat) (last : Bool), s.Executing k last → s.abort = false → s.power = false → gated i = true →
    exec i s = .next (s.concluded k last .okOff 0#7 [])) ∧
  (∀ (i : Instr) (s t : State) (k : Nat) (last : Bool) (es : List Event) (a : DdramAddr), s.Executing k last → gated i = false →
    exec i s = .next t → t.trace ≠ s.trace ++ es ++ [.response k .okOff a])

/-- R303, R315: a position command that passes the power gate and whose position is outside the geometry answers
`ERR_VALIDATION`, enabled or not, with no bus write. -/
def Obligations.InvalidPositionsAreRejectedFirst : Prop :=
  ∀ (i : Instr) (s : State) (k : Nat) (last : Bool) (line col : Nat), s.Executing k last → s.abort = false →
    (gated i = true → s.power = true) → position i = some (line, col) → (line = 0 ∨ s.params.rows < line ∨ s.params.columns < col) →
    exec i s = .next (s.concluded k last .errValidation 0#7 [])

/-- R307, R315: powered on and with a valid position, a command that would write the bus before ENABLE answers `ERR_NOT_INIT`
with no bus write. -/
def Obligations.BusCommandsNeedEnable : Prop :=
  ∀ (i : Instr) (s : State) (k : Nat) (last : Bool), s.Executing k last → s.abort = false → s.power = true →
    s.initialized = false → needsEnable s.params i = true →
    (∀ line col, position i = some (line, col) → 1 ≤ line ∧ line ≤ s.params.rows ∧ col ≤ s.params.columns) →
    exec i s = .next (s.concluded k last .errNotInit 0#7 [])

/-- R315, items 6 and 7: a command that passes every check answers `OK` or `ERR_TRANSPORT`, if the transport answers at all. -/
def Obligations.CheckedCommandsSucceedOrFailOnTheBus : Prop :=
  ∀ (i : Instr) (s t : State) (k : Nat) (last : Bool), s.Executing k last → s.abort = false →
    (gated i = true → s.power = true) → (needsEnable s.params i = true → s.initialized = true) →
    (∀ line col, position i = some (line, col) → 1 ≤ line ∧ line ≤ s.params.rows ∧ col ≤ s.params.columns) →
    exec i s = .next t → t.seq = .idle →
    ∃ es st a, t.trace = s.trace ++ es ++ [.response k st a] ∧ statuses es = [] ∧
      (st = .ok ∨ (st = .errTransport ∧ a = 0#7))

/-! ### What a command changes, and what it leaves (10_state.md R33 to R45) -/

/-- R33 to R35, R45: the flags are written by their own commands only; no command writes a parameter, a requester's words or the
count of accepted words; the record of events only grows. For every state, and whatever the transport answers. -/
def Obligations.FlagsAreWrittenByTheirCommandsOnly : Prop :=
  ∀ (i : Instr) (s t : State), exec i s = .next t →
    (i ≠ .powerOn → i ≠ .powerOff → t.power = s.power) ∧
    (i ≠ .blOn → i ≠ .blOff → t.backlight = s.backlight) ∧
    (i ≠ .enable → t.initialized = s.initialized) ∧
    (i = .enable → s.initialized = true → t.initialized = true) ∧
    t.params = s.params ∧ t.arbDraws = s.arbDraws ∧
    t.ports.map Port.pending = s.ports.map Port.pending ∧
    ∃ es, t.trace = s.trace ++ es

/-- R45, R172, R200, R202: POWER_ON, POWER_OFF and RESOLVE touch neither the bus, nor the transport, nor the wait counter. -/
def Obligations.PureCommandsLeaveTheBus : Prop :=
  ∀ (i : Instr) (s t : State), i = .powerOn ∨ i = .powerOff ∨ (∃ line col, i = .resolve line col) → exec i s = .next t →
    t.bwData = s.bwData ∧ t.bwValid = s.bwValid ∧ t.bindReq = s.bindReq ∧ t.delay = s.delay ∧ t.transport = s.transport ∧
    busWrites t.trace = busWrites s.trace ∧ waits t.trace = waits s.trace

/-- R34, R305: no bus write before a successful bind, and none by a gated command while powered off. -/
def Obligations.NoBusWriteBeforeEnableOrWhileOff : Prop :=
  ∀ (i : Instr) (s t : State) (k : Nat) (last : Bool), s.Executing k last → exec i s = .next t →
    (i ≠ .enable → s.initialized = false → busWrites t.trace = busWrites s.trace) ∧
    (gated i = true → s.power = false → busWrites t.trace = busWrites s.trace)

/-- R79: every bus write of a command carries one backlight value, the flag as the command leaves it, which is the flag as the
command found it but for BL_ON and BL_OFF. -/
def Obligations.EveryWriteCarriesTheBacklight : Prop :=
  ∀ (i : Instr) (s t : State) (k : Nat) (last : Bool), s.Executing k last → exec i s = .next t →
    ∃ es, t.trace = s.trace ++ es ∧ ∀ b ∈ busWrites es, pinLevel s.params.pinMap.bl b = t.backlight

/-- R370, R45: how many bus writes a command has made when it answers `OK`. -/
def Obligations.WriteCountOfEveryCommand : Prop :=
  ∀ (i : Instr) (s t : State) (k : Nat) (last : Bool) (es : List Event) (a : DdramAddr), s.Executing k last →
    exec i s = .next t → t.trace = s.trace ++ es ++ [.response k .ok a] →
    (busWrites es).length = okWriteCount s.params i

/-! ### Steps, transactions and the lock (20_memory.md R77, 60_exceptions.md R302, R310, R311, R320) -/

/-- What a step is: with nothing to accept the block waits (R350); the word it accepts, or has accepted, runs as the instruction it
decodes to; a command the transport has left unanswered goes on where it stands (R332). -/
def Obligations.StepRunsTheDecodedInstruction : Prop :=
  ∀ s : State, s.legal = true →
    (s.seq = .idle → s.arbitrate = none → step s = .next s.dropResponses) ∧
    (∀ k r i, s.seq = .idle → s.arbitrate = some k → s.presented k = some r → decode r.word = .ok i →
      step s = exec i (s.dropResponses.accept k r)) ∧
    (∀ k w last i, s.seq = .busy k w last [] → decode w = .ok i → step s = exec i s.dropResponses) ∧
    (∀ k w last m steps, s.seq = .busy k w last (m :: steps) → step s = .next (runSteps k last (m :: steps) s.dropResponses))

/-- R108, R308, R315: an illegal word, outside an aborted transaction, answers `ERR_ILLEGAL` and does nothing else, powered on or
off. -/
def Obligations.IllegalWordAnswersErrIllegal : Prop :=
  ∀ (s : State) (k : Nat) (r : Request) (e : DecodeError), s.legal = true → s.seq = .idle → s.abort = false →
    s.arbitrate = some k → s.presented k = some r → decode r.word = .error e →
    step s = .next ((s.dropResponses.accept k r).concluded k r.last .errIllegal 0#7 [])

/-- R311, R315: inside an aborted transaction every word, legal or not, answers `SKIPPED` and does nothing else; the word marked
last ends the transaction. -/
def Obligations.AbortedTransactionSkipsEveryWord : Prop :=
  ∀ (s : State) (k : Nat) (r : Request), s.legal = true → s.seq = .idle → s.abort = true →
    s.arbitrate = some k → s.presented k = some r →
    step s = .next ((s.dropResponses.accept k r).concluded k r.last .skipped 0#7 [])

/-- R302, R310, R320: a word that the step completes gets exactly one response, the step's last event, on its own port and no
other, with an address only when `OK`; a word marked last leaves no owner and no abort, another one leaves its requester the owner
and the transaction aborted exactly when it was or the status is an error. The word is consumed and no other word is. -/
def Obligations.EveryWordGetsOneResponse : Prop :=
  ∀ (s t : State) (k : Nat) (r : Request), s.legal = true → s.seq = .idle → s.arbitrate = some k → s.presented k = some r →
    step s = .next t → t.seq = .idle →
    (∃ es st a, t.trace = s.trace ++ es ++ [.response k st a] ∧ statuses es = [] ∧ (st ≠ .ok → a = 0#7) ∧
      (t.ports[k]?).bind Port.rsp = some { status := st, addr := a } ∧
      t.abort = (!r.last && (s.abort || st.aborts))) ∧
    (∀ j, j ≠ k → (t.ports[j]?).bind Port.rsp = none) ∧
    t.owner = (if r.last then none else some k) ∧
    (t.ports[k]?).map Port.pending = (s.ports[k]?).map (fun p => p.pending.tail) ∧
    (∀ j, j ≠ k → (t.ports[j]?).map Port.pending = (s.ports[j]?).map Port.pending)

/-- R321, R36: the arbiter takes only a requester that presents a word, and with a transaction open only its owner. R321 lets the block
take one; that the arbiter takes one whenever one is waiting, and never idles, is the model's choice (log 2, DESIGN CHOICE). -/
def Obligations.ArbiterTakesAWaitingRequester : Prop :=
  ∀ s : State,
    (∀ k, s.arbitrate = some k → (s.presented k).isSome = true ∧ (s.owner = none ∨ s.owner = some k)) ∧
    (s.owner = none → (∃ k, (s.presented k).isSome = true) → s.arbitrate.isSome = true) ∧
    (∀ k, s.owner = some k → (s.presented k).isSome = true → s.arbitrate = some k)

/-- R36, R77, R321: while a transaction is open, neither a step nor a clock edge takes a word from any other requester. -/
def Obligations.OpenTransactionExcludesOtherRequesters : Prop :=
  ∀ (s : State) (k j : Nat), s.owner = some k → j ≠ k →
    (∀ t, step s = .next t → (t.ports[j]?).map Port.pending = (s.ports[j]?).map Port.pending) ∧
    (∀ p, ((edge p s).ports[j]?).map Port.pending = (s.ports[j]?).map Port.pending)

/-- R332: a transport that never answers leaves the block in its command, the write or the bind outstanding, step after step; an
ENABLE whose bind is never answered is such a command. -/
def Obligations.SilentTransportHoldsTheCommand : Prop :=
  (∀ (s : State) (k : Nat) (w : CommandWord) (last : Bool) (b : Byte) (rest : List MicroStep), s.legal = true →
    s.seq = .busy k w last (.write b :: rest) → s.transport.answer = none →
    (s.bwValid = true → step s = .next s.dropResponses) ∧
    (s.bwValid = false →
      step s = .next { s.dropResponses with bwData := b, bwValid := true, trace := s.trace ++ [.write b] })) ∧
  (∀ (s : State) (k : Nat) (w : CommandWord) (last : Bool) (rest : List MicroStep), s.legal = true →
    s.seq = .busy k w last (.bind :: rest) → s.transport.answer = none →
    (s.bindReq = true → step s = .next s.dropResponses) ∧
    (s.bindReq = false → step s = .next { s.dropResponses with bindReq := true, trace := s.trace ++ [.bind] })) ∧
  (∀ (s : State) (k : Nat) (w : CommandWord) (last : Bool) (rest : List MicroStep), s.Executing k last → s.abort = false →
    s.seq = .busy k w last rest → s.transport.answer = none →
    ∃ steps, exec .enable s =
      .next { s with seq := .busy k w last (.bind :: steps), bindReq := true, trace := s.trace ++ [.bind] })

/-- R8, U12: a configuration outside the legal ranges has no meaning: every step, every clock edge and every command is
refused. -/
def Obligations.IllegalConfigurationIsRefused : Prop :=
  ∀ s : State,
    ¬ ((1 ≤ s.params.rows ∧ s.params.rows ≤ 4) ∧ (1 ≤ s.params.columns ∧ s.params.columns ≤ 40) ∧
      (pinPositions s.params.pinMap).Nodup ∧ 1000 ≤ s.params.clkHz ∧ s.ports ≠ []) →
    step s = .refused .illegalConfiguration ∧ (∀ p, clockEdge p s = .refused .illegalConfiguration) ∧
    (∀ i, exec i s = .refused .illegalConfiguration)

/-! ### Reset (70_reset_and_hazards.md) -/

/-- R350, R351, R352, R40: what reset leaves, whatever the block was doing: no response, nothing outstanding, no event but the reset
itself; the parameters are not touched, and no requester is ready in the cycle. That the requesters' words, the transport and the
record of earlier events stay is the model's reading (log 16, DEDUCED), and that the reset is recorded its choice (log 9). -/
def Obligations.ResetSetsEveryField : Prop :=
  ∀ (p : Pins) (s : State), p.rst = true →
    (edge p s).initialized = false ∧ (edge p s).power = false ∧ (edge p s).backlight = false ∧ (edge p s).owner = none ∧
    (edge p s).abort = false ∧ (edge p s).seq = .idle ∧ (edge p s).delay = 0 ∧ (edge p s).bwValid = false ∧
    (edge p s).bindReq = false ∧ (edge p s).bwData = 0x00#8 ∧
    (∀ k : Nat, ((edge p s).ports[k]?).bind Port.rsp = none) ∧
    (edge p s).ports.map Port.pending = s.ports.map Port.pending ∧ (edge p s).params = s.params ∧
    (edge p s).transport = s.transport ∧ (edge p s).trace = s.trace ++ [.reset] ∧
    (∀ k, reqReadyPin p s k = false)

/-- R350: the fields of `S` in the reset state, and no response standing. -/
def Obligations.ResetStateHasTheResetValues : Prop :=
  State.reset.initialized = false ∧ State.reset.power = false ∧ State.reset.backlight = false ∧ State.reset.owner = none ∧
  State.reset.abort = false ∧ State.reset.seq = .idle ∧ State.reset.delay = 0 ∧ State.reset.bwValid = false ∧
  State.reset.bindReq = false ∧ State.reset.bwData = 0x00#8 ∧
  (∀ k : Nat, (State.reset.ports[k]?).bind Port.rsp = none)

/-! ### The invariant -/

/-- R32, R36, R37, R39: the reset state is consistent. -/
def Obligations.ResetStateIsConsistent : Prop := State.reset.Consistent

/-- R34, R36, R37, R39, R79, R236, R302: every step keeps the state consistent: the lock and the abort flag belong to an open
transaction, nothing is outstanding while IDLE, an outstanding write is the sequencer's own, no write comes before a bind or with
another backlight bit, and a command ends in its one response. -/
def Obligations.StepKeepsTheStateConsistent : Prop :=
  ∀ s t : State, s.Consistent → step s = .next t → t.Consistent

/-- The same of every clock edge, whatever the pins (reset among them). -/
def Obligations.ClockEdgeKeepsTheStateConsistent : Prop :=
  ∀ (p : Pins) (s : State), s.Consistent → (edge p s).Consistent

/-! ### The block cycle by cycle -/

/-- R38, R77: one clock edge of a busy block leaves the command's outcome what it was: running the command to its response after
the edge gives what running it before the edge gives, if the transport then answers what the pins answered at the edge. -/
def Obligations.ClockEdgeLeavesTheOutcome : Prop :=
  ∀ (p : Pins) (s : State) (t : Transport), s.Consistent → s.seq ≠ .idle → p.rst = false →
    completeCommand ((edge p s).setTransport t) =
      completeCommand (s.dropResponses.setTransport (t.push (sampledAnswer p s)))

/-- R38, R77: a command run cycle by cycle, from the edge that accepts its word to the edge that answers it, ends in the state that
one step gives, whatever the transport's latencies and answers. -/
def Obligations.ClockEdgesComputeTheStep : Prop :=
  ∀ (s : State) (ps : List Pins) (t : Transport), s.Consistent → s.seq = .idle → ps ≠ [] →
    (∀ p ∈ ps, p.rst = false) →
    (∀ n, 0 < n → n < ps.length → (runEdges (ps.take n) s).seq ≠ .idle) → (runEdges ps s).seq = .idle →
    step (s.setTransport (t.push (sampledAnswers ps s))) = .next ((runEdges ps s).setTransport t)

/-- R332, R362 (the block has no time-out and needs none for itself): a command ends if the transport keeps answering, `ok` or
`err`. -/
def Obligations.CommandEndsIfTheTransportAnswers : Prop :=
  ∀ (s : State) (p : Pins), s.Consistent → p.rst = false → p.bwDone = true → p.bindDone = true →
    ∃ n, (runEdges (List.replicate n p) s).seq = .idle

/-- R100, R36: a requester is ready only while the block is IDLE and no other transaction is open; the word of a ready requester is
the one the next edge accepts. -/
def Obligations.ReadyWordIsAccepted : Prop :=
  ∀ (s : State) (k : Nat), s.reqReady k = true →
    s.seq = .idle ∧ (s.owner = none ∨ s.owner = some k) ∧
    (∀ p r, p.rst = false → s.presented k = some r → edge p s = s.dropResponses.accept k r)

/-- R330, R39: a bus write is held, byte and all, until a cycle with `bw_done` = 1; then `bw_valid` drops, and an error ends the
command with `ERR_TRANSPORT`. That it is presented in a cycle of its own, whatever the pins but `rst`, and that no write is presented
in the cycle in which one is done, is the model's choice of cycles (log 8). -/
def Obligations.OutstandingWriteIsHeld : Prop :=
  ∀ (p : Pins) (s : State) (k : Nat) (w : CommandWord) (last : Bool) (b : Byte) (rest : List MicroStep), p.rst = false →
    s.seq = .busy k w last (.write b :: rest) →
    (s.bwValid = false →
      edge p s = { s.dropResponses with bwData := b, bwValid := true, trace := s.trace ++ [.write b] }) ∧
    (s.bwValid = true → p.bwDone = false → edge p s = s.dropResponses) ∧
    (s.bwValid = true → p.bwDone = true →
      (edge p s).bwValid = false ∧ busWrites (edge p s).trace = busWrites s.trace) ∧
    (s.bwValid = true → p.bwDone = true → p.bwErr = true →
      edge p s = ({ s.dropResponses with bwValid := false } : State).concluded k last .errTransport 0#7 [])

/-- R236: after the write before a wait is done, no bus write is presented for `⌈ms × CLK_HZ / 1000⌉` cycles, whatever the
pins but `rst`, and the counter counts them down. That it is loaded at the edge that completes the write, which fixes its value after
each edge, and that the bus is quiet in the cycle after the wait too, is the model's choice of cycles (log 8). -/
def Obligations.WaitKeepsTheBusQuiet : Prop :=
  ∀ (p : Pins) (ps : List Pins) (s : State) (k : Nat) (w : CommandWord) (last : Bool) (b : Byte) (ms : Nat)
    (rest : List MicroStep), s.seq = .busy k w last (.write b :: .wait ms :: rest) → s.bwValid = true → p.rst = false →
    p.bwDone = true → p.bwErr = false → (∀ q ∈ ps, q.rst = false) → ps.length ≤ (ms * s.params.clkHz + 999) / 1000 →
    (runEdges (p :: ps) s).bwValid = false ∧ busWrites (runEdges (p :: ps) s).trace = busWrites s.trace ∧
    (runEdges (p :: ps) s).delay = (ms * s.params.clkHz + 999) / 1000 - ps.length

/-- R8, R38, R141, R143: the same for a gap of `n` cycles, which has no counter of its own. The gap is `n` idle
cycles; that the bus is quiet in the cycle after them too, since the next write is presented in a cycle of its own, is the model's choice
of cycles (log 8). Which gaps a command has is `CommandsLoadTheirGaps`. -/
def Obligations.GapKeepsTheBusQuiet : Prop :=
  ∀ (p : Pins) (ps : List Pins) (s : State) (k : Nat) (w : CommandWord) (last : Bool) (b : Byte) (n : Nat)
    (rest : List MicroStep), s.seq = .busy k w last (.write b :: .gap n :: rest) → s.bwValid = true → p.rst = false →
    p.bwDone = true → p.bwErr = false → (∀ q ∈ ps, q.rst = false) → ps.length ≤ n →
    (runEdges (p :: ps) s).bwValid = false ∧ busWrites (runEdges (p :: ps) s).trace = busWrites s.trace

/-! ### Text operations (44_text_pseudo_ops.md) and assembly (30_encoding.md R110, R111) -/

/-- R272, R273, R275, R271: the formatted texts, byte by byte. The space byte 0x20 is the spec's from general knowledge (G7,
log 10). -/
def Obligations.FormattedTextFillsTheLine : Prop :=
  ∀ (columns : Nat) (t : List Byte),
    (fmtPrint columns t).length = columns ∧ (fmtCenter columns t).length = columns ∧ (fmtRjust columns t).length = columns ∧
    ∀ j, j < columns →
      (fmtPrint columns t)[j]? = (if j < t.length then t[j]? else some 0x20#8) ∧
      (fmtCenter columns t)[j]? =
        (if (columns - t.length) / 2 ≤ j ∧ j < (columns - t.length) / 2 + t.length then t[j - (columns - t.length) / 2]?
          else some 0x20#8) ∧
      (fmtRjust columns t)[j]? = (if columns - t.length ≤ j then t[j - (columns - t.length)]? else some 0x20#8)

/-- R281: the expansion: SETPOS to column 0, one SEND.D a byte in order, and only the last word marked last. -/
def Obligations.ExpansionIsOneTransaction : Prop :=
  ∀ (line : Nat) (text : List Byte), line ≤ 255 → text ≠ [] →
    (expand line text).map (fun r => decode r.word) = .ok (.setpos line 0) :: text.map (fun b => .ok (.send true b)) ∧
    (expand line text).map Request.last = List.replicate text.length false ++ [true]

/-- R281, R305: a text operation while powered off: every word `OK_OFF`, nothing written. -/
def Obligations.TextOperationPoweredOff : Prop :=
  ∀ (s : State) (k line : Nat) (text : List Byte), s.Consistent → s.seq = .idle → s.owner = none →
    s.power = false → line ≤ 255 → text ≠ [] → (s.ports[k]?).map Port.pending = some (expand line text) →
    (∀ j, j ≠ k → s.presented j = none) →
    ∃ t es, Host.Core.run core (text.length + 1) s = .next t ∧ t.trace = s.trace ++ es ∧
      statuses es = List.replicate (text.length + 1) .okOff ∧ busWrites es = [] ∧ hostResult (statuses es) = none ∧
      t.owner = none ∧ t.abort = false

/-- R281, R311, R282: a text operation on a line outside the geometry: `ERR_VALIDATION`, then `SKIPPED` for every byte, nothing
written, and the host reports the validation error. -/
def Obligations.TextOperationOnAnInvalidLine : Prop :=
  ∀ (s : State) (k line : Nat) (text : List Byte), s.Consistent → s.seq = .idle → s.owner = none →
    s.power = true → line ≤ 255 → (line = 0 ∨ s.params.rows < line) → text ≠ [] →
    (s.ports[k]?).map Port.pending = some (expand line text) → (∀ j, j ≠ k → s.presented j = none) →
    ∃ t es, Host.Core.run core (text.length + 1) s = .next t ∧ t.trace = s.trace ++ es ∧
      statuses es = .errValidation :: List.replicate text.length .skipped ∧ busWrites es = [] ∧
      hostResult (statuses es) = some .errValidation ∧ t.owner = none ∧ t.abort = false

/-- R281, R144, R270: a text operation that meets no error gives the controller the set-address command of the line's first cell
and then the text, byte by byte in order, and nothing else, in `6 × (COLUMNS + 1)` bus writes for a text of `COLUMNS` bytes; what it
gives is said of a controller that is known and between two bytes, since after a failed write it holds any value (U1). The
byte `0x80 | a` is R173's, from general knowledge (G1, log 10); how a trace is read is log 15. -/
def Obligations.TextOperationWritesTheText : Prop :=
  ∀ (s : State) (k line : Nat) (a : DdramAddr) (text : List Byte) (t' : Transport), s.Consistent → s.seq = .idle →
    s.owner = none → s.power = true → s.initialized = true → line ≤ 255 →
    resolve s.params line 0 = some a → text ≠ [] → (s.ports[k]?).map Port.pending = some (expand line text) →
    (∀ j, j ≠ k → s.presented j = none) → Transport.Grants (6 * (text.length + 1)) s.transport t' →
    ∃ t es, Host.Core.run core (text.length + 1) s = .next t ∧ t.trace = s.trace ++ es ∧
      statuses es = List.replicate (text.length + 1) .ok ∧ (busWrites es).length = 6 * (text.length + 1) ∧
      (betweenBytes s.params.pinMap s.trace = true →
        received s.params.pinMap t.trace =
          received s.params.pinMap s.trace ++ (false, 0x80#8 ||| a.zeroExtend 8) :: text.map (fun b => (true, b)) ∧
        betweenBytes s.params.pinMap t.trace = true) ∧
      t.owner = none ∧ t.abort = false

/-- R110, R111 and 95_test_vectors.md P1, P2, P4, P5: lines and the words they make. -/
def Obligations.VectorLinesAssemble : Prop :=
  assembleLine 16 "ENABLE           last   ; 0x100000" = some (0, [{ word := 0x100000#24, last := true }]) ∧
  assembleLine 16 "SETPOS 2, 3             ; 0x800203" = some (0, [{ word := 0x800203#24, last := false }]) ∧
  assembleLine 16 "SEND.D 'i'       last" = some (0, [{ word := 0xA00169#24, last := true }]) ∧
  assembleLine 16 "SEND.C 0x01      last" = some (0, [{ word := 0xA00001#24, last := true }]) ∧
  assembleLine 16 ".word 0xB00000   last" = some (0, [{ word := 0xB00000#24, last := true }]) ∧
  assembleLine 16 "[1] BL_ON         last" = some (1, [{ word := 0x400000#24, last := true }]) ∧
  assembleLine 16 "CLEAR_LINE 2" = some (0, clearLine 16 2) ∧
  assembleLine 16 "SETPOS 2, 256" = none

/-! ### Binds, gaps, failing text operations, and the controller after a failure -/

/-- R331, R39, R34: a bind is held until a cycle with `bind_done` = 1; then `bind_req` drops, and an answer `ok` enables the
hardware and lets the command go on, while an answer `err` ends it with `ERR_TRANSPORT`, the enable as it was. That the bind is
presented in a cycle of its own, and that nothing else is presented in the cycle in which it is done, is the model's choice of
cycles (log 8). -/
def Obligations.OutstandingBindIsHeld : Prop :=
  ∀ (p : Pins) (s : State) (k : Nat) (w : CommandWord) (last : Bool) (rest : List MicroStep), p.rst = false →
    s.seq = .busy k w last (.bind :: rest) →
    (s.bindReq = false → edge p s = { s.dropResponses with bindReq := true, trace := s.trace ++ [.bind] }) ∧
    (s.bindReq = true → p.bindDone = false → edge p s = s.dropResponses) ∧
    (s.bindReq = true → p.bindDone = true → p.bindErr = false →
      (edge p s).bindReq = false ∧ (edge p s).initialized = true ∧ busWrites (edge p s).trace = busWrites s.trace ∧
      ∀ b steps, rest = .write b :: steps →
        edge p s = { s.dropResponses with bindReq := false, initialized := true, seq := .busy k w last rest }) ∧
    (s.bindReq = true → p.bindDone = true → p.bindErr = true →
      edge p s = ({ s.dropResponses with bindReq := false } : State).concluded k last .errTransport 0#7 [])

/-- R141, R143, R370: the micro-steps that the commands which send bytes load once their checks pass: `PULSE_GAP_CYCLES` between the
three writes of each nibble and `CMD_WAIT_CYCLES` after each byte, and how many idle cycles that is in all. The bytes of SETPOS,
CLEAR, HOME and ENABLE are the spec's from general knowledge (log 10); a gap of 0 is no micro-step (log 8). -/
def Obligations.CommandsLoadTheirGaps : Prop :=
  (∀ (s : State) (k : Nat) (w : CommandWord) (last : Bool) (steps : List MicroStep), s.seq = .busy k w last steps →
    s.abort = false →
    (start .enable s).seq =
      .busy k w last (.bind :: initPlan s.params s.backlight ++ [.respond .ok 0#7]) ∧
    (s.power = true → s.initialized = true →
      (∀ d v, (start (.send d v) s).seq = .busy k w last (bytePlan s.params v d s.backlight ++ [.respond .ok 0#7])) ∧
      (start .clear s).seq = .busy k w last (bytePlan s.params 0x01#8 false s.backlight ++ [.respond .ok 0#7]) ∧
      (start .home s).seq = .busy k w last (bytePlan s.params 0x02#8 false s.backlight ++ [.respond .ok 0#7]) ∧
      (∀ line col a, resolve s.params line col = some a →
        (start (.setpos line col) s).seq =
          .busy k w last (bytePlan s.params (0x80#8 ||| a.zeroExtend 8) false s.backlight ++ [.respond .ok a])))) ∧
  (∀ (p : Params) (v : Byte) (rs bl : Bool),
    idleCycles (bytePlan p v rs bl) = p.cmdWaitCycles + 4 * p.pulseGapCycles ∧
    idleCycles (initPlan p bl) = 4 * p.cmdWaitCycles + 24 * p.pulseGapCycles)

/-- R281, R307, R311, R282: a text operation while powered on and not enabled: `ERR_NOT_INIT`, then `SKIPPED` for every byte,
nothing written, and the host reports that error. -/
def Obligations.TextOperationBeforeEnable : Prop :=
  ∀ (s : State) (k line : Nat) (a : DdramAddr) (text : List Byte), s.Consistent → s.seq = .idle → s.owner = none →
    s.power = true → s.initialized = false → line ≤ 255 → resolve s.params line 0 = some a → text ≠ [] →
    (s.ports[k]?).map Port.pending = some (expand line text) → (∀ j, j ≠ k → s.presented j = none) →
    ∃ t es, Host.Core.run core (text.length + 1) s = .next t ∧ t.trace = s.trace ++ es ∧
      statuses es = .errNotInit :: List.replicate text.length .skipped ∧ busWrites es = [] ∧
      hostResult (statuses es) = some .errNotInit ∧ t.owner = none ∧ t.abort = false

/-- R281, R304, R325, R311, R282: a text operation whose bus write number `j + 1` fails: `OK` for the words before the one that makes
it, `ERR_TRANSPORT` for that one, `SKIPPED` for every later one; the failing write is the last; the host reports the
error. The byte `0x80 | a` is the spec's from general knowledge (G1, log 10). -/
def Obligations.TextOperationWithAFailingWrite : Prop :=
  ∀ (s : State) (k line j : Nat) (a : DdramAddr) (text : List Byte) (t' : Transport), s.Consistent → s.seq = .idle →
    s.owner = none → s.power = true → s.initialized = true → line ≤ 255 → resolve s.params line 0 = some a → text ≠ [] →
    (s.ports[k]?).map Port.pending = some (expand line text) → (∀ i, i ≠ k → s.presented i = none) →
    j < 6 * (text.length + 1) → Transport.FailsAfter j s.transport t' →
    ∃ t es, Host.Core.run core (text.length + 1) s = .next t ∧ t.trace = s.trace ++ es ∧
      statuses es = List.replicate (j / 6) .ok ++ .errTransport :: List.replicate (text.length - j / 6) .skipped ∧
      busWrites es = (byteWrites s.params.pinMap (0x80#8 ||| a.zeroExtend 8) false s.backlight ++
        text.flatMap (fun b => byteWrites s.params.pinMap b true s.backlight)).take (j + 1) ∧
      hostResult (statuses es) = some .errTransport ∧ t.transport = t' ∧ t.owner = none ∧ t.abort = false

/-- R144, R325, R365, R304, R351 (U1, U10): after any trace `xs` that leaves the controller known, its last request answered with
`ok`, a bus write that fails, is cut off by a reset or is not answered, or a bind that fails, leaves the controller with what `xs`
gave it and a free value, whatever is written afterwards; an ENABLE whose bind and writes succeed gives a known controller again,
with what it latches of its own. `xs ++ [.response j .ok c]` is `xs` with its last request answered with `ok`. How a trace is read,
and that a failed bind is among these, is log 15; the nibbles of the initialisation are log 10. -/
def Obligations.UnappliedWriteLeavesTheControllerOpen : Prop :=
  ∀ (p : PinMap) (xs : List Event) (j : Nat) (c : DdramAddr) (kws : List Byte) (e : Event) (es : List Event),
    (spans (xs ++ [.response j .ok c])).getLast? = some (.known kws) → LeavesControllerOpen e es → .bind ∉ es →
    (received p (xs ++ e :: es) = received p (xs ++ [.response j .ok c]) ++
      receivedBytes ((Config.uncertainLatches (busWrites (xs ++ e :: es)) (xs ++ e :: es).length).map
        (fun l => { rs := l.1, nibble := l.2 }))) ∧
    betweenBytes p (xs ++ e :: es) = false ∧
    (∀ (bl : Bool) (k : Nat) (a : DdramAddr), es ≠ [] → (pinPositions p).Nodup →
      latched p (xs ++ e :: (es ++ .bind :: initEvents p bl ++ [.response k .ok a])) =
        latched p (xs ++ [.response j .ok c]) ++
        (Config.uncertainLatches (busWrites (xs ++ e :: es)) (xs ++ e :: es).length).map
          (fun l => { rs := l.1, nibble := l.2 }) ++
        ([0x3, 0x3, 0x3, 0x2, 0x2, 0x8, 0x0, 0xE, 0x0, 0x1, 0x0, 0x7] : List Nibble).map
          (fun n => { rs := false, nibble := n }) ∧
      betweenBytes p (xs ++ e :: (es ++ .bind :: initEvents p bl ++ [.response k .ok a])) = true)
end

