-- ==== Sys2Proof/Laws/State.lean ====
section
/-! SUPPORT. One lemma per field per update: what each named operation of the machine leaves in every field of the state. -/

namespace Sys2Proof.Machine

variable (s : State)

/-! ### `dropResponses` -/

@[simp] theorem dropResponses_initialized : (s.dropResponses).initialized = s.initialized := rfl
@[simp] theorem dropResponses_power : (s.dropResponses).power = s.power := rfl
@[simp] theorem dropResponses_backlight : (s.dropResponses).backlight = s.backlight := rfl
@[simp] theorem dropResponses_owner : (s.dropResponses).owner = s.owner := rfl
@[simp] theorem dropResponses_abort : (s.dropResponses).abort = s.abort := rfl
@[simp] theorem dropResponses_seq : (s.dropResponses).seq = s.seq := rfl
@[simp] theorem dropResponses_bwData : (s.dropResponses).bwData = s.bwData := rfl
@[simp] theorem dropResponses_bwValid : (s.dropResponses).bwValid = s.bwValid := rfl
@[simp] theorem dropResponses_bindReq : (s.dropResponses).bindReq = s.bindReq := rfl
@[simp] theorem dropResponses_delay : (s.dropResponses).delay = s.delay := rfl
@[simp] theorem dropResponses_ports : (s.dropResponses).ports = s.ports.map (fun p => { p with rsp := none }) := rfl
@[simp] theorem dropResponses_transport : (s.dropResponses).transport = s.transport := rfl
@[simp] theorem dropResponses_params : (s.dropResponses).params = s.params := rfl
@[simp] theorem dropResponses_trace : (s.dropResponses).trace = s.trace := rfl
@[simp] theorem dropResponses_arbDraws : (s.dropResponses).arbDraws = s.arbDraws := rfl

/-! ### `accept` -/

@[simp] theorem accept_initialized (k : Nat) (r : Request) : (s.accept k r).initialized = s.initialized := rfl
@[simp] theorem accept_power (k : Nat) (r : Request) : (s.accept k r).power = s.power := rfl
@[simp] theorem accept_backlight (k : Nat) (r : Request) : (s.accept k r).backlight = s.backlight := rfl
@[simp] theorem accept_owner (k : Nat) (r : Request) : (s.accept k r).owner = ownerAfterAccept s.owner k r.last := rfl
@[simp] theorem accept_abort (k : Nat) (r : Request) : (s.accept k r).abort = s.abort := rfl
@[simp] theorem accept_seq (k : Nat) (r : Request) : (s.accept k r).seq = .busy k r.word r.last [] := rfl
@[simp] theorem accept_bwData (k : Nat) (r : Request) : (s.accept k r).bwData = s.bwData := rfl
@[simp] theorem accept_bwValid (k : Nat) (r : Request) : (s.accept k r).bwValid = s.bwValid := rfl
@[simp] theorem accept_bindReq (k : Nat) (r : Request) : (s.accept k r).bindReq = s.bindReq := rfl
@[simp] theorem accept_delay (k : Nat) (r : Request) : (s.accept k r).delay = s.delay := rfl
@[simp] theorem accept_ports (k : Nat) (r : Request) : (s.accept k r).ports = s.ports.modify k (fun p => { p with pending := p.pending.tail }) := rfl
@[simp] theorem accept_transport (k : Nat) (r : Request) : (s.accept k r).transport = s.transport := rfl
@[simp] theorem accept_params (k : Nat) (r : Request) : (s.accept k r).params = s.params := rfl
@[simp] theorem accept_trace (k : Nat) (r : Request) : (s.accept k r).trace = s.trace := rfl
@[simp] theorem accept_arbDraws (k : Nat) (r : Request) : (s.accept k r).arbDraws = s.arbDraws + 1 := rfl

/-! ### `setSteps` -/

@[simp] theorem setSteps_initialized (l : List MicroStep) : (s.setSteps l).initialized = s.initialized := rfl
@[simp] theorem setSteps_power (l : List MicroStep) : (s.setSteps l).power = s.power := rfl
@[simp] theorem setSteps_backlight (l : List MicroStep) : (s.setSteps l).backlight = s.backlight := rfl
@[simp] theorem setSteps_owner (l : List MicroStep) : (s.setSteps l).owner = s.owner := rfl
@[simp] theorem setSteps_abort (l : List MicroStep) : (s.setSteps l).abort = s.abort := rfl
@[simp] theorem setSteps_seq (l : List MicroStep) : (s.setSteps l).seq = s.seq.withSteps l := rfl
@[simp] theorem setSteps_bwData (l : List MicroStep) : (s.setSteps l).bwData = s.bwData := rfl
@[simp] theorem setSteps_bwValid (l : List MicroStep) : (s.setSteps l).bwValid = s.bwValid := rfl
@[simp] theorem setSteps_bindReq (l : List MicroStep) : (s.setSteps l).bindReq = s.bindReq := rfl
@[simp] theorem setSteps_delay (l : List MicroStep) : (s.setSteps l).delay = s.delay := rfl
@[simp] theorem setSteps_ports (l : List MicroStep) : (s.setSteps l).ports = s.ports := rfl
@[simp] theorem setSteps_transport (l : List MicroStep) : (s.setSteps l).transport = s.transport := rfl
@[simp] theorem setSteps_params (l : List MicroStep) : (s.setSteps l).params = s.params := rfl
@[simp] theorem setSteps_trace (l : List MicroStep) : (s.setSteps l).trace = s.trace := rfl
@[simp] theorem setSteps_arbDraws (l : List MicroStep) : (s.setSteps l).arbDraws = s.arbDraws := rfl

/-! ### `goTo` -/

@[simp] theorem goTo_initialized (l : List MicroStep) : (s.goTo l).initialized = s.initialized := rfl
@[simp] theorem goTo_power (l : List MicroStep) : (s.goTo l).power = s.power := rfl
@[simp] theorem goTo_backlight (l : List MicroStep) : (s.goTo l).backlight = s.backlight := rfl
@[simp] theorem goTo_owner (l : List MicroStep) : (s.goTo l).owner = s.owner := rfl
@[simp] theorem goTo_abort (l : List MicroStep) : (s.goTo l).abort = s.abort := rfl
@[simp] theorem goTo_seq (l : List MicroStep) : (s.goTo l).seq = s.seq.withSteps l := rfl
@[simp] theorem goTo_bwData (l : List MicroStep) : (s.goTo l).bwData = s.bwData := rfl
@[simp] theorem goTo_bwValid (l : List MicroStep) : (s.goTo l).bwValid = s.bwValid := rfl
@[simp] theorem goTo_bindReq (l : List MicroStep) : (s.goTo l).bindReq = s.bindReq := rfl
@[simp] theorem goTo_delay (l : List MicroStep) : (s.goTo l).delay = delayOnArrival s.params l s.delay := rfl
@[simp] theorem goTo_ports (l : List MicroStep) : (s.goTo l).ports = s.ports := rfl
@[simp] theorem goTo_transport (l : List MicroStep) : (s.goTo l).transport = s.transport := rfl
@[simp] theorem goTo_params (l : List MicroStep) : (s.goTo l).params = s.params := rfl
@[simp] theorem goTo_trace (l : List MicroStep) : (s.goTo l).trace = s.trace ++ eventOnArrival l := rfl
@[simp] theorem goTo_arbDraws (l : List MicroStep) : (s.goTo l).arbDraws = s.arbDraws := rfl

/-! ### `presentWrite` -/

@[simp] theorem presentWrite_initialized (b : Byte) : (s.presentWrite b).initialized = s.initialized := rfl
@[simp] theorem presentWrite_power (b : Byte) : (s.presentWrite b).power = s.power := rfl
@[simp] theorem presentWrite_backlight (b : Byte) : (s.presentWrite b).backlight = s.backlight := rfl
@[simp] theorem presentWrite_owner (b : Byte) : (s.presentWrite b).owner = s.owner := rfl
@[simp] theorem presentWrite_abort (b : Byte) : (s.presentWrite b).abort = s.abort := rfl
@[simp] theorem presentWrite_seq (b : Byte) : (s.presentWrite b).seq = s.seq := rfl
@[simp] theorem presentWrite_bwData (b : Byte) : (s.presentWrite b).bwData = if s.bwValid then s.bwData else b := rfl
@[simp] theorem presentWrite_bwValid (b : Byte) : (s.presentWrite b).bwValid = true := rfl
@[simp] theorem presentWrite_bindReq (b : Byte) : (s.presentWrite b).bindReq = s.bindReq := rfl
@[simp] theorem presentWrite_delay (b : Byte) : (s.presentWrite b).delay = s.delay := rfl
@[simp] theorem presentWrite_ports (b : Byte) : (s.presentWrite b).ports = s.ports := rfl
@[simp] theorem presentWrite_transport (b : Byte) : (s.presentWrite b).transport = s.transport := rfl
@[simp] theorem presentWrite_params (b : Byte) : (s.presentWrite b).params = s.params := rfl
@[simp] theorem presentWrite_trace (b : Byte) : (s.presentWrite b).trace = if s.bwValid then s.trace else s.trace ++ [.write b] := rfl
@[simp] theorem presentWrite_arbDraws (b : Byte) : (s.presentWrite b).arbDraws = s.arbDraws := rfl

/-! ### `presentBind` -/

@[simp] theorem presentBind_initialized : (s.presentBind).initialized = s.initialized := rfl
@[simp] theorem presentBind_power : (s.presentBind).power = s.power := rfl
@[simp] theorem presentBind_backlight : (s.presentBind).backlight = s.backlight := rfl
@[simp] theorem presentBind_owner : (s.presentBind).owner = s.owner := rfl
@[simp] theorem presentBind_abort : (s.presentBind).abort = s.abort := rfl
@[simp] theorem presentBind_seq : (s.presentBind).seq = s.seq := rfl
@[simp] theorem presentBind_bwData : (s.presentBind).bwData = s.bwData := rfl
@[simp] theorem presentBind_bwValid : (s.presentBind).bwValid = s.bwValid := rfl
@[simp] theorem presentBind_bindReq : (s.presentBind).bindReq = true := rfl
@[simp] theorem presentBind_delay : (s.presentBind).delay = s.delay := rfl
@[simp] theorem presentBind_ports : (s.presentBind).ports = s.ports := rfl
@[simp] theorem presentBind_transport : (s.presentBind).transport = s.transport := rfl
@[simp] theorem presentBind_params : (s.presentBind).params = s.params := rfl
@[simp] theorem presentBind_trace : (s.presentBind).trace = if s.bindReq then s.trace else s.trace ++ [.bind] := rfl
@[simp] theorem presentBind_arbDraws : (s.presentBind).arbDraws = s.arbDraws := rfl

/-! ### `dropWrite` -/

@[simp] theorem dropWrite_initialized : (s.dropWrite).initialized = s.initialized := rfl
@[simp] theorem dropWrite_power : (s.dropWrite).power = s.power := rfl
@[simp] theorem dropWrite_backlight : (s.dropWrite).backlight = s.backlight := rfl
@[simp] theorem dropWrite_owner : (s.dropWrite).owner = s.owner := rfl
@[simp] theorem dropWrite_abort : (s.dropWrite).abort = s.abort := rfl
@[simp] theorem dropWrite_seq : (s.dropWrite).seq = s.seq := rfl
@[simp] theorem dropWrite_bwData : (s.dropWrite).bwData = s.bwData := rfl
@[simp] theorem dropWrite_bwValid : (s.dropWrite).bwValid = false := rfl
@[simp] theorem dropWrite_bindReq : (s.dropWrite).bindReq = s.bindReq := rfl
@[simp] theorem dropWrite_delay : (s.dropWrite).delay = s.delay := rfl
@[simp] theorem dropWrite_ports : (s.dropWrite).ports = s.ports := rfl
@[simp] theorem dropWrite_transport : (s.dropWrite).transport = s.transport := rfl
@[simp] theorem dropWrite_params : (s.dropWrite).params = s.params := rfl
@[simp] theorem dropWrite_trace : (s.dropWrite).trace = s.trace := rfl
@[simp] theorem dropWrite_arbDraws : (s.dropWrite).arbDraws = s.arbDraws := rfl

/-! ### `dropBind` -/

@[simp] theorem dropBind_initialized : (s.dropBind).initialized = s.initialized := rfl
@[simp] theorem dropBind_power : (s.dropBind).power = s.power := rfl
@[simp] theorem dropBind_backlight : (s.dropBind).backlight = s.backlight := rfl
@[simp] theorem dropBind_owner : (s.dropBind).owner = s.owner := rfl
@[simp] theorem dropBind_abort : (s.dropBind).abort = s.abort := rfl
@[simp] theorem dropBind_seq : (s.dropBind).seq = s.seq := rfl
@[simp] theorem dropBind_bwData : (s.dropBind).bwData = s.bwData := rfl
@[simp] theorem dropBind_bwValid : (s.dropBind).bwValid = s.bwValid := rfl
@[simp] theorem dropBind_bindReq : (s.dropBind).bindReq = false := rfl
@[simp] theorem dropBind_delay : (s.dropBind).delay = s.delay := rfl
@[simp] theorem dropBind_ports : (s.dropBind).ports = s.ports := rfl
@[simp] theorem dropBind_transport : (s.dropBind).transport = s.transport := rfl
@[simp] theorem dropBind_params : (s.dropBind).params = s.params := rfl
@[simp] theorem dropBind_trace : (s.dropBind).trace = s.trace := rfl
@[simp] theorem dropBind_arbDraws : (s.dropBind).arbDraws = s.arbDraws := rfl

/-! ### `setTransport` -/

@[simp] theorem setTransport_initialized (t : Transport) : (s.setTransport t).initialized = s.initialized := rfl
@[simp] theorem setTransport_power (t : Transport) : (s.setTransport t).power = s.power := rfl
@[simp] theorem setTransport_backlight (t : Transport) : (s.setTransport t).backlight = s.backlight := rfl
@[simp] theorem setTransport_owner (t : Transport) : (s.setTransport t).owner = s.owner := rfl
@[simp] theorem setTransport_abort (t : Transport) : (s.setTransport t).abort = s.abort := rfl
@[simp] theorem setTransport_seq (t : Transport) : (s.setTransport t).seq = s.seq := rfl
@[simp] theorem setTransport_bwData (t : Transport) : (s.setTransport t).bwData = s.bwData := rfl
@[simp] theorem setTransport_bwValid (t : Transport) : (s.setTransport t).bwValid = s.bwValid := rfl
@[simp] theorem setTransport_bindReq (t : Transport) : (s.setTransport t).bindReq = s.bindReq := rfl
@[simp] theorem setTransport_delay (t : Transport) : (s.setTransport t).delay = s.delay := rfl
@[simp] theorem setTransport_ports (t : Transport) : (s.setTransport t).ports = s.ports := rfl
@[simp] theorem setTransport_transport (t : Transport) : (s.setTransport t).transport = t := rfl
@[simp] theorem setTransport_params (t : Transport) : (s.setTransport t).params = s.params := rfl
@[simp] theorem setTransport_trace (t : Transport) : (s.setTransport t).trace = s.trace := rfl
@[simp] theorem setTransport_arbDraws (t : Transport) : (s.setTransport t).arbDraws = s.arbDraws := rfl

/-! ### `setInitialized` -/

@[simp] theorem setInitialized_initialized : (s.setInitialized).initialized = true := rfl
@[simp] theorem setInitialized_power : (s.setInitialized).power = s.power := rfl
@[simp] theorem setInitialized_backlight : (s.setInitialized).backlight = s.backlight := rfl
@[simp] theorem setInitialized_owner : (s.setInitialized).owner = s.owner := rfl
@[simp] theorem setInitialized_abort : (s.setInitialized).abort = s.abort := rfl
@[simp] theorem setInitialized_seq : (s.setInitialized).seq = s.seq := rfl
@[simp] theorem setInitialized_bwData : (s.setInitialized).bwData = s.bwData := rfl
@[simp] theorem setInitialized_bwValid : (s.setInitialized).bwValid = s.bwValid := rfl
@[simp] theorem setInitialized_bindReq : (s.setInitialized).bindReq = s.bindReq := rfl
@[simp] theorem setInitialized_delay : (s.setInitialized).delay = s.delay := rfl
@[simp] theorem setInitialized_ports : (s.setInitialized).ports = s.ports := rfl
@[simp] theorem setInitialized_transport : (s.setInitialized).transport = s.transport := rfl
@[simp] theorem setInitialized_params : (s.setInitialized).params = s.params := rfl
@[simp] theorem setInitialized_trace : (s.setInitialized).trace = s.trace := rfl
@[simp] theorem setInitialized_arbDraws : (s.setInitialized).arbDraws = s.arbDraws := rfl

/-! ### `setDelay` -/

@[simp] theorem setDelay_initialized (n : Nat) : (s.setDelay n).initialized = s.initialized := rfl
@[simp] theorem setDelay_power (n : Nat) : (s.setDelay n).power = s.power := rfl
@[simp] theorem setDelay_backlight (n : Nat) : (s.setDelay n).backlight = s.backlight := rfl
@[simp] theorem setDelay_owner (n : Nat) : (s.setDelay n).owner = s.owner := rfl
@[simp] theorem setDelay_abort (n : Nat) : (s.setDelay n).abort = s.abort := rfl
@[simp] theorem setDelay_seq (n : Nat) : (s.setDelay n).seq = s.seq := rfl
@[simp] theorem setDelay_bwData (n : Nat) : (s.setDelay n).bwData = s.bwData := rfl
@[simp] theorem setDelay_bwValid (n : Nat) : (s.setDelay n).bwValid = s.bwValid := rfl
@[simp] theorem setDelay_bindReq (n : Nat) : (s.setDelay n).bindReq = s.bindReq := rfl
@[simp] theorem setDelay_delay (n : Nat) : (s.setDelay n).delay = n := rfl
@[simp] theorem setDelay_ports (n : Nat) : (s.setDelay n).ports = s.ports := rfl
@[simp] theorem setDelay_transport (n : Nat) : (s.setDelay n).transport = s.transport := rfl
@[simp] theorem setDelay_params (n : Nat) : (s.setDelay n).params = s.params := rfl
@[simp] theorem setDelay_trace (n : Nat) : (s.setDelay n).trace = s.trace := rfl
@[simp] theorem setDelay_arbDraws (n : Nat) : (s.setDelay n).arbDraws = s.arbDraws := rfl

/-! ### `setPower` -/

@[simp] theorem setPower_initialized (v : Bool) : (s.setPower v).initialized = s.initialized := rfl
@[simp] theorem setPower_power (v : Bool) : (s.setPower v).power = v := rfl
@[simp] theorem setPower_backlight (v : Bool) : (s.setPower v).backlight = s.backlight := rfl
@[simp] theorem setPower_owner (v : Bool) : (s.setPower v).owner = s.owner := rfl
@[simp] theorem setPower_abort (v : Bool) : (s.setPower v).abort = s.abort := rfl
@[simp] theorem setPower_seq (v : Bool) : (s.setPower v).seq = s.seq := rfl
@[simp] theorem setPower_bwData (v : Bool) : (s.setPower v).bwData = s.bwData := rfl
@[simp] theorem setPower_bwValid (v : Bool) : (s.setPower v).bwValid = s.bwValid := rfl
@[simp] theorem setPower_bindReq (v : Bool) : (s.setPower v).bindReq = s.bindReq := rfl
@[simp] theorem setPower_delay (v : Bool) : (s.setPower v).delay = s.delay := rfl
@[simp] theorem setPower_ports (v : Bool) : (s.setPower v).ports = s.ports := rfl
@[simp] theorem setPower_transport (v : Bool) : (s.setPower v).transport = s.transport := rfl
@[simp] theorem setPower_params (v : Bool) : (s.setPower v).params = s.params := rfl
@[simp] theorem setPower_trace (v : Bool) : (s.setPower v).trace = s.trace := rfl
@[simp] theorem setPower_arbDraws (v : Bool) : (s.setPower v).arbDraws = s.arbDraws := rfl

/-! ### `setBacklight` -/

@[simp] theorem setBacklight_initialized (v : Bool) : (s.setBacklight v).initialized = s.initialized := rfl
@[simp] theorem setBacklight_power (v : Bool) : (s.setBacklight v).power = s.power := rfl
@[simp] theorem setBacklight_backlight (v : Bool) : (s.setBacklight v).backlight = v := rfl
@[simp] theorem setBacklight_owner (v : Bool) : (s.setBacklight v).owner = s.owner := rfl
@[simp] theorem setBacklight_abort (v : Bool) : (s.setBacklight v).abort = s.abort := rfl
@[simp] theorem setBacklight_seq (v : Bool) : (s.setBacklight v).seq = s.seq := rfl
@[simp] theorem setBacklight_bwData (v : Bool) : (s.setBacklight v).bwData = s.bwData := rfl
@[simp] theorem setBacklight_bwValid (v : Bool) : (s.setBacklight v).bwValid = s.bwValid := rfl
@[simp] theorem setBacklight_bindReq (v : Bool) : (s.setBacklight v).bindReq = s.bindReq := rfl
@[simp] theorem setBacklight_delay (v : Bool) : (s.setBacklight v).delay = s.delay := rfl
@[simp] theorem setBacklight_ports (v : Bool) : (s.setBacklight v).ports = s.ports := rfl
@[simp] theorem setBacklight_transport (v : Bool) : (s.setBacklight v).transport = s.transport := rfl
@[simp] theorem setBacklight_params (v : Bool) : (s.setBacklight v).params = s.params := rfl
@[simp] theorem setBacklight_trace (v : Bool) : (s.setBacklight v).trace = s.trace := rfl
@[simp] theorem setBacklight_arbDraws (v : Bool) : (s.setBacklight v).arbDraws = s.arbDraws := rfl

/-! ### `respond` -/

@[simp] theorem respond_initialized (k : Nat) (last : Bool) (st : Status) (a : DdramAddr) : (s.respond k last st a).initialized = s.initialized := rfl
@[simp] theorem respond_power (k : Nat) (last : Bool) (st : Status) (a : DdramAddr) : (s.respond k last st a).power = s.power := rfl
@[simp] theorem respond_backlight (k : Nat) (last : Bool) (st : Status) (a : DdramAddr) : (s.respond k last st a).backlight = s.backlight := rfl
@[simp] theorem respond_owner (k : Nat) (last : Bool) (st : Status) (a : DdramAddr) : (s.respond k last st a).owner = ownerAfterResponse s.owner last := rfl
@[simp] theorem respond_abort (k : Nat) (last : Bool) (st : Status) (a : DdramAddr) : (s.respond k last st a).abort = abortAfterResponse s.abort last st := rfl
@[simp] theorem respond_seq (k : Nat) (last : Bool) (st : Status) (a : DdramAddr) : (s.respond k last st a).seq = .idle := rfl
@[simp] theorem respond_bwData (k : Nat) (last : Bool) (st : Status) (a : DdramAddr) : (s.respond k last st a).bwData = s.bwData := rfl
@[simp] theorem respond_bwValid (k : Nat) (last : Bool) (st : Status) (a : DdramAddr) : (s.respond k last st a).bwValid = s.bwValid := rfl
@[simp] theorem respond_bindReq (k : Nat) (last : Bool) (st : Status) (a : DdramAddr) : (s.respond k last st a).bindReq = s.bindReq := rfl
@[simp] theorem respond_delay (k : Nat) (last : Bool) (st : Status) (a : DdramAddr) : (s.respond k last st a).delay = s.delay := rfl
@[simp] theorem respond_ports (k : Nat) (last : Bool) (st : Status) (a : DdramAddr) : (s.respond k last st a).ports = postResponse k { status := st, addr := a } s.ports := rfl
@[simp] theorem respond_transport (k : Nat) (last : Bool) (st : Status) (a : DdramAddr) : (s.respond k last st a).transport = s.transport := rfl
@[simp] theorem respond_params (k : Nat) (last : Bool) (st : Status) (a : DdramAddr) : (s.respond k last st a).params = s.params := rfl
@[simp] theorem respond_trace (k : Nat) (last : Bool) (st : Status) (a : DdramAddr) : (s.respond k last st a).trace = s.trace ++ [.response k st a] := rfl
@[simp] theorem respond_arbDraws (k : Nat) (last : Bool) (st : Status) (a : DdramAddr) : (s.respond k last st a).arbDraws = s.arbDraws := rfl

/-! ### `applyReset` -/

@[simp] theorem applyReset_initialized : (s.applyReset).initialized = false := rfl
@[simp] theorem applyReset_power : (s.applyReset).power = false := rfl
@[simp] theorem applyReset_backlight : (s.applyReset).backlight = false := rfl
@[simp] theorem applyReset_owner : (s.applyReset).owner = none := rfl
@[simp] theorem applyReset_abort : (s.applyReset).abort = false := rfl
@[simp] theorem applyReset_seq : (s.applyReset).seq = .idle := rfl
@[simp] theorem applyReset_bwData : (s.applyReset).bwData = 0x00#8 := rfl
@[simp] theorem applyReset_bwValid : (s.applyReset).bwValid = false := rfl
@[simp] theorem applyReset_bindReq : (s.applyReset).bindReq = false := rfl
@[simp] theorem applyReset_delay : (s.applyReset).delay = 0 := rfl
@[simp] theorem applyReset_ports : (s.applyReset).ports = s.ports.map (fun p => { p with rsp := none }) := rfl
@[simp] theorem applyReset_transport : (s.applyReset).transport = s.transport := rfl
@[simp] theorem applyReset_params : (s.applyReset).params = s.params := rfl
@[simp] theorem applyReset_trace : (s.applyReset).trace = s.trace ++ [.reset] := rfl
@[simp] theorem applyReset_arbDraws : (s.applyReset).arbDraws = s.arbDraws := rfl

/-! ### `concluded` -/

@[simp] theorem concluded_initialized (k : Nat) (last : Bool) (st : Status) (a : DdramAddr) (es : List Event) : (s.concluded k last st a es).initialized = s.initialized := rfl
@[simp] theorem concluded_power (k : Nat) (last : Bool) (st : Status) (a : DdramAddr) (es : List Event) : (s.concluded k last st a es).power = s.power := rfl
@[simp] theorem concluded_backlight (k : Nat) (last : Bool) (st : Status) (a : DdramAddr) (es : List Event) : (s.concluded k last st a es).backlight = s.backlight := rfl
@[simp] theorem concluded_owner (k : Nat) (last : Bool) (st : Status) (a : DdramAddr) (es : List Event) : (s.concluded k last st a es).owner = if last then none else s.owner := rfl
@[simp] theorem concluded_abort (k : Nat) (last : Bool) (st : Status) (a : DdramAddr) (es : List Event) : (s.concluded k last st a es).abort = (!last && (s.abort || st.aborts)) := rfl
@[simp] theorem concluded_seq (k : Nat) (last : Bool) (st : Status) (a : DdramAddr) (es : List Event) : (s.concluded k last st a es).seq = .idle := rfl
@[simp] theorem concluded_bwData (k : Nat) (last : Bool) (st : Status) (a : DdramAddr) (es : List Event) : (s.concluded k last st a es).bwData = s.bwData := rfl
@[simp] theorem concluded_bwValid (k : Nat) (last : Bool) (st : Status) (a : DdramAddr) (es : List Event) : (s.concluded k last st a es).bwValid = s.bwValid := rfl
@[simp] theorem concluded_bindReq (k : Nat) (last : Bool) (st : Status) (a : DdramAddr) (es : List Event) : (s.concluded k last st a es).bindReq = s.bindReq := rfl
@[simp] theorem concluded_delay (k : Nat) (last : Bool) (st : Status) (a : DdramAddr) (es : List Event) : (s.concluded k last st a es).delay = s.delay := rfl
@[simp] theorem concluded_ports (k : Nat) (last : Bool) (st : Status) (a : DdramAddr) (es : List Event) : (s.concluded k last st a es).ports = s.ports.modify k (fun p => { p with rsp := some { status := st, addr := a } }) := rfl
@[simp] theorem concluded_transport (k : Nat) (last : Bool) (st : Status) (a : DdramAddr) (es : List Event) : (s.concluded k last st a es).transport = s.transport := rfl
@[simp] theorem concluded_params (k : Nat) (last : Bool) (st : Status) (a : DdramAddr) (es : List Event) : (s.concluded k last st a es).params = s.params := rfl
@[simp] theorem concluded_trace (k : Nat) (last : Bool) (st : Status) (a : DdramAddr) (es : List Event) : (s.concluded k last st a es).trace = s.trace ++ es ++ [.response k st a] := rfl
@[simp] theorem concluded_arbDraws (k : Nat) (last : Bool) (st : Status) (a : DdramAddr) (es : List Event) : (s.concluded k last st a es).arbDraws = s.arbDraws := rfl

end Sys2Proof.Machine
end

