-- ==== Sys2Proof/Laws/Ops.lean ====
section
/-! SUPPORT. What the shared operations of the machine do, said once: the meanings as `start`, the checks, the transport, and a run of
micro-steps to its response, to its first failing request, or to silence. -/

namespace Sys2Proof.Machine

/-! ### The sequencer's steps -/

@[simp] theorem withSteps_idle (l : List MicroStep) : Seq.withSteps l .idle = .idle := rfl

@[simp] theorem withSteps_busy (l l' : List MicroStep) (k : Nat) (w : CommandWord) (last : Bool) :
    Seq.withSteps l (.busy k w last l') = .busy k w last l := rfl

@[simp] theorem withSteps_withSteps (l l' : List MicroStep) (q : Seq) : (q.withSteps l').withSteps l = q.withSteps l := by
  cases q <;> rfl

@[simp] theorem withSteps_eq_idle (l : List MicroStep) (q : Seq) : q.withSteps l = .idle ↔ q = .idle := by
  cases q <;> simp

theorem answerWith_eq (st : Status) (a : DdramAddr) (s : State) : s.answerWith st a = s.goTo [.respond st a] := rfl

theorem raise_eq (st : Status) (s : State) : s.raise st = s.goTo [.respond st 0#7] := rfl

/-- A response, as the statements write it. -/
theorem respond_eq_concluded (k : Nat) (last : Bool) (st : Status) (a : DdramAddr) (s : State) :
    s.respond k last st a = s.concluded k last st a [] := by
  cases last <;> simp [State.respond, State.concluded, ownerAfterResponse, abortAfterResponse, postResponse]

/-! ### Configuration, ports -/

theorem legal_congr {s t : State} (hp : t.params = s.params) (hl : t.ports.length = s.ports.length) : t.legal = s.legal := by
  have : t.ports.isEmpty = s.ports.isEmpty := by
    rw [Bool.eq_iff_iff, List.isEmpty_iff_length_eq_zero, List.isEmpty_iff_length_eq_zero, hl]
  simp [State.legal, hp, this]

@[simp] theorem postResponse_length (k : Nat) (r : Response) (ps : List Port) : (postResponse k r ps).length = ps.length := by
  simp [postResponse]

@[simp] theorem postResponse_pending (k : Nat) (r : Response) (ps : List Port) :
    (postResponse k r ps).map Port.pending = ps.map Port.pending := by
  apply List.ext_getElem?
  intro j
  simp only [postResponse, List.getElem?_map, List.getElem?_modify]
  cases ps[j]? <;> simp [apply_ite Port.pending]

@[simp] theorem legal_dropResponses (s : State) : s.dropResponses.legal = s.legal := legal_congr rfl (by simp)
@[simp] theorem legal_accept (k : Nat) (r : Request) (s : State) : (s.accept k r).legal = s.legal := legal_congr rfl (by simp)
@[simp] theorem legal_goTo (l : List MicroStep) (s : State) : (s.goTo l).legal = s.legal := legal_congr rfl rfl
@[simp] theorem legal_setSteps (l : List MicroStep) (s : State) : (s.setSteps l).legal = s.legal := legal_congr rfl rfl
@[simp] theorem legal_presentWrite (b : Byte) (s : State) : (s.presentWrite b).legal = s.legal := legal_congr rfl rfl
@[simp] theorem legal_presentBind (s : State) : s.presentBind.legal = s.legal := legal_congr rfl rfl
@[simp] theorem legal_dropWrite (s : State) : s.dropWrite.legal = s.legal := legal_congr rfl rfl
@[simp] theorem legal_dropBind (s : State) : s.dropBind.legal = s.legal := legal_congr rfl rfl
@[simp] theorem legal_setTransport (t : Transport) (s : State) : (s.setTransport t).legal = s.legal := legal_congr rfl rfl
@[simp] theorem legal_setInitialized (s : State) : s.setInitialized.legal = s.legal := legal_congr rfl rfl
@[simp] theorem legal_setDelay (n : Nat) (s : State) : (s.setDelay n).legal = s.legal := legal_congr rfl rfl
@[simp] theorem legal_setPower (v : Bool) (s : State) : (s.setPower v).legal = s.legal := legal_congr rfl rfl
@[simp] theorem legal_setBacklight (v : Bool) (s : State) : (s.setBacklight v).legal = s.legal := legal_congr rfl rfl
@[simp] theorem legal_respond (k : Nat) (last : Bool) (st : Status) (a : DdramAddr) (s : State) :
    (s.respond k last st a).legal = s.legal := legal_congr rfl (by simp)
@[simp] theorem legal_applyReset (s : State) : s.applyReset.legal = s.legal := legal_congr rfl (by simp)

@[simp] theorem presented_dropResponses (s : State) (k : Nat) : s.dropResponses.presented k = s.presented k := by
  simp only [State.presented, dropResponses_ports, List.getElem?_map]
  cases s.ports[k]? <;> rfl

@[simp] theorem waiting_dropResponses (s : State) : s.dropResponses.waiting = s.waiting := by
  simp [State.waiting]

@[simp] theorem arbitrate_dropResponses (s : State) : s.dropResponses.arbitrate = s.arbitrate := by
  simp [State.arbitrate]

theorem presented_lt {s : State} {k : Nat} {r : Request} (h : s.presented k = some r) : k < s.ports.length := by
  by_contra hk
  simp [State.presented, List.getElem?_eq_none (Nat.le_of_not_lt hk)] at h

theorem mem_waiting {s : State} {k : Nat} : k ∈ s.waiting ↔ (s.presented k).isSome = true := by
  simp only [State.waiting, List.mem_filter, List.mem_range, and_iff_right_iff_imp]
  intro h
  obtain ⟨r, hr⟩ := Option.isSome_iff_exists.mp h
  exact presented_lt hr

/-- The arbiter takes a requester that presents a word. -/
theorem arbitrate_presented {s : State} {k : Nat} (h : s.arbitrate = some k) : ∃ r, s.presented k = some r := by
  rw [← Option.isSome_iff_exists]
  unfold State.arbitrate at h
  cases ho : s.owner with
  | some j =>
    simp only [ho] at h
    split at h
    · cases h; assumption
    · cases h
  | none =>
    simp only [ho] at h
    rw [← mem_waiting]
    split at h
    · cases h
    · rename_i hw; cases h; simp [hw]
    · exact List.mem_of_getElem? h

/-- It takes the owner of an open transaction, or any one while none is open. -/
theorem arbitrate_owner {s : State} {k : Nat} (h : s.arbitrate = some k) : s.owner = none ∨ s.owner = some k := by
  unfold State.arbitrate at h
  cases ho : s.owner with
  | none => exact .inl rfl
  | some j =>
    simp only [ho] at h
    split at h
    · cases h; exact .inr rfl
    · cases h

/-- What an IDLE block with a word to accept does. -/
theorem acceptIfIdle_of_arbitrate {s : State} {k : Nat} {r : Request} (hi : s.seq = .idle) (ha : s.arbitrate = some k)
    (hp : s.presented k = some r) : s.acceptIfIdle = s.accept k r := by
  simp [State.acceptIfIdle, hi, ha, hp]

theorem acceptIfIdle_of_none {s : State} (hi : s.seq = .idle) (ha : s.arbitrate = none) : s.acceptIfIdle = s := by
  simp [State.acceptIfIdle, hi, ha]

theorem acceptIfIdle_of_busy {s : State} {k : Nat} {w : CommandWord} {last : Bool} {l : List MicroStep}
    (hb : s.seq = .busy k w last l) : s.acceptIfIdle = s := by
  simp [State.acceptIfIdle, hb]

/-- Either no word is accepted and nothing changes, or one is. -/
theorem acceptIfIdle_cases (s : State) :
    s.acceptIfIdle = s ∨
    ∃ k r, s.seq = .idle ∧ s.arbitrate = some k ∧ s.presented k = some r ∧ s.acceptIfIdle = s.accept k r := by
  cases hq : s.seq with
  | busy k w last l => exact .inl (acceptIfIdle_of_busy hq)
  | idle =>
    cases ha : s.arbitrate with
    | none => exact .inl (acceptIfIdle_of_none hq ha)
    | some k =>
      obtain ⟨r, hr⟩ := arbitrate_presented ha
      exact .inr ⟨k, r, rfl, rfl, hr, acceptIfIdle_of_arbitrate hq ha hr⟩

/-! ### Meanings -/

/-- Every meaning is its `start`, run to the response. -/
theorem exec_eq (i : Instr) (s : State) : exec i s = runCommand (start i) s := by cases i <;> rfl

theorem runCommand_busy {s : State} {k : Nat} {w : CommandWord} {last : Bool} {l : List MicroStep} (f : State → State)
    (hl : s.legal = true) (hb : s.seq = .busy k w last l) : runCommand f s = .next (f s).finish := by
  simp [runCommand, hl, hb]

/-- When a command answers a next state, and which. -/
theorem runCommand_next {f : State → State} {s t : State} (h : runCommand f s = .next t) :
    s.legal = true ∧ (∃ k w last l, s.seq = .busy k w last l) ∧ t = (f s).finish := by
  unfold runCommand at h
  split at h
  · rename_i hl
    split at h
    · cases h
    · rename_i k w last l hb
      cases h
      exact ⟨hl, ⟨k, w, last, l, hb⟩, rfl⟩
  · cases h

theorem finish_busy {s : State} {k : Nat} {w : CommandWord} {last : Bool} {l : List MicroStep} (hb : s.seq = .busy k w last l) :
    s.finish = runSteps k last l s := by
  simp [State.finish, hb]

theorem finish_idle {s : State} (hi : s.seq = .idle) : s.finish = s := by
  simp [State.finish, hi]

/-- An accepted word is its `startWord`, run to the response. -/
theorem execWord_eq (w : CommandWord) (s : State) : execWord w s = runCommand (startWord w) s := by
  unfold execWord startWord
  cases ha : s.abort
  · cases hd : decode w with
    | ok i => simp [exec_eq, runCommand, ha]
    | error e => simp [execIllegal, runCommand, ha]
  · simp [execSkipped, runCommand, ha]

/-- The meaning of a sequence of micro-steps loaded into a busy sequencer. -/
theorem finish_goTo {s : State} {k : Nat} {w : CommandWord} {last : Bool} {l' : List MicroStep}
    (hb : s.seq = .busy k w last l') (l : List MicroStep) : (s.goTo l).finish = runSteps k last l (s.goTo l) :=
  finish_busy (w := w) (by simp [hb])

/-! ### The checks -/

theorem unlessAborted_of_abort (f : State → State) {s : State} (h : s.abort = true) :
    State.unlessAborted f s = s.goTo [.respond .skipped 0#7] := by
  simp [State.unlessAborted, h, State.answerWith]

theorem unlessAborted_of_not (f : State → State) {s : State} (h : s.abort = false) : State.unlessAborted f s = f s := by
  simp [State.unlessAborted, h]

theorem ifPowered_of_off (f : State → State) {s : State} (h : s.power = false) :
    State.ifPowered f s = s.goTo [.respond .okOff 0#7] := by
  simp [State.ifPowered, h, State.answerWith]

theorem ifPowered_of_on (f : State → State) {s : State} (h : s.power = true) : State.ifPowered f s = f s := by
  simp [State.ifPowered, h]

theorem ifInitialized_of_not (f : State → State) {s : State} (h : s.initialized = false) :
    State.ifInitialized f s = s.goTo [.respond .errNotInit 0#7] := by
  simp [State.ifInitialized, h, raise_eq]

theorem ifInitialized_of_init (f : State → State) {s : State} (h : s.initialized = true) : State.ifInitialized f s = f s := by
  simp [State.ifInitialized, h]

theorem ifValid_of_none (f : DdramAddr → State → State) {s : State} {line col : Nat} (h : resolve s.params line col = none) :
    State.ifValid line col f s = s.goTo [.respond .errValidation 0#7] := by
  simp [State.ifValid, h, raise_eq]

theorem ifValid_of_some (f : DdramAddr → State → State) {s : State} {line col : Nat} {a : DdramAddr}
    (h : resolve s.params line col = some a) : State.ifValid line col f s = f a s := by
  simp [State.ifValid, h]

/-- Every command starts with the abort check. -/
theorem start_of_abort (i : Instr) {s : State} (h : s.abort = true) : start i s = s.goTo [.respond .skipped 0#7] := by
  cases i <;>
    simp only [start, startEnable, startPowerOn, startPowerOff, startBlOn, startBlOff, startClear, startHome, startSetpos,
      startResolve, startSend, unlessAborted_of_abort _ h]

/-- A command that only answers: its start, run to the response. -/
theorem finish_goTo_respond {s : State} {k : Nat} {w : CommandWord} {last : Bool} {l : List MicroStep}
    (hb : s.seq = .busy k w last l) (st : Status) (a : DdramAddr) :
    (s.goTo [.respond st a]).finish = s.concluded k last st a [] := by
  rw [finish_goTo hb, runSteps, respond_eq_concluded]
  simp [State.concluded, State.goTo, eventOnArrival, delayOnArrival]

/-! ### The transport -/

@[simp] theorem answer_push_cons (a : Answer) (t : Transport) : (t.push [a]).answer = some (a, t) := rfl

@[simp] theorem push_nil (t : Transport) : t.push [] = t := rfl

theorem push_append (as bs : List Answer) (t : Transport) : t.push (as ++ bs) = (t.push bs).push as := by
  simp [Transport.push]

theorem grants_add {m n : Nat} {t t' : Transport} :
    Transport.Grants (m + n) t t' ↔ ∃ t₁, Transport.Grants m t t₁ ∧ Transport.Grants n t₁ t' := by
  induction m generalizing t with
  | zero => simp [Transport.Grants]
  | succ m ih =>
    rw [show m + 1 + n = (m + n) + 1 by omega]
    simp only [Transport.Grants, ih]
    constructor
    · rintro ⟨t₁, h, t₂, h₁, h₂⟩; exact ⟨t₂, ⟨t₁, h, h₁⟩, h₂⟩
    · rintro ⟨t₂, ⟨t₁, h, h₁⟩, h₂⟩; exact ⟨t₁, h, t₂, h₁, h₂⟩

@[simp] theorem grants_one {t t' : Transport} : Transport.Grants 1 t t' ↔ t.answer = some (.ok, t') := by
  simp [Transport.Grants]

theorem failsAfter_zero {t t' : Transport} : Transport.FailsAfter 0 t t' ↔ t.answer = some (.err, t') := by
  simp [Transport.FailsAfter, Transport.Grants]

theorem failsAfter_succ {j : Nat} {t t' : Transport} :
    Transport.FailsAfter (j + 1) t t' ↔ ∃ t₁, t.answer = some (.ok, t₁) ∧ Transport.FailsAfter j t₁ t' := by
  simp only [Transport.FailsAfter, Transport.Grants]
  constructor
  · rintro ⟨t₂, ⟨t₁, h, h₁⟩, h₂⟩; exact ⟨t₁, h, t₂, h₁, h₂⟩
  · rintro ⟨t₁, h, t₂, h₁, h₂⟩; exact ⟨t₂, ⟨t₁, h, h₁⟩, h₂⟩

/-! ### A run of micro-steps -/

/-- The event of performing one micro-step. -/
def ownEvent : MicroStep → List Event
  | .write b => [.write b]
  | .bind => [.bind]
  | .wait _ | .gap _ | .respond _ _ => []

/-- The events of performing `l`, which the sequencer has reached, up to its response. -/
def emitted : List MicroStep → List Event
  | [] => []
  | .respond _ _ :: _ => []
  | m :: rest => ownEvent m ++ eventOnArrival rest ++ emitted rest

/-- The response that ends `l`. -/
def answerOf : List MicroStep → Option (Status × DdramAddr)
  | [] => none
  | .respond st a :: _ => some (st, a)
  | _ :: rest => answerOf rest

/-- How many requests to the transport stand among some events. -/
def requests : List Event → Nat
  | [] => 0
  | .write _ :: es => requests es + 1
  | .bind :: es => requests es + 1
  | _ :: es => requests es

/-- The byte on `bw_data` after some events. -/
def dataAfter (d : Byte) : List Event → Byte
  | [] => d
  | .write b :: es => dataAfter b es
  | _ :: es => dataAfter d es

/-- Whether the hardware is enabled after some events, every request of them having succeeded. -/
def enabledAfter (i : Bool) : List Event → Bool
  | [] => i
  | .bind :: es => enabledAfter true es
  | _ :: es => enabledAfter i es

@[simp] theorem requests_append (es fs : List Event) : requests (es ++ fs) = requests es + requests fs := by
  induction es with
  | nil => simp [requests]
  | cons e es ih => cases e <;> simp [requests, ih] <;> omega

@[simp] theorem dataAfter_append (d : Byte) (es fs : List Event) : dataAfter d (es ++ fs) = dataAfter (dataAfter d es) fs := by
  induction es generalizing d with
  | nil => rfl
  | cons e es ih => cases e <;> simp [dataAfter, ih]

@[simp] theorem enabledAfter_append (i : Bool) (es fs : List Event) :
    enabledAfter i (es ++ fs) = enabledAfter (enabledAfter i es) fs := by
  induction es generalizing i with
  | nil => rfl
  | cons e es ih => cases e <;> simp [enabledAfter, ih]

@[simp] theorem requests_writes (bs : List Byte) : requests (bs.map .write) = bs.length := by
  induction bs with
  | nil => rfl
  | cons b bs ih => simp [requests, ih]

@[simp] theorem enabledAfter_writes (i : Bool) (bs : List Byte) : enabledAfter i (bs.map .write) = i := by
  induction bs with
  | nil => rfl
  | cons b bs ih => simp [enabledAfter, ih]

@[simp] theorem busWrites_append (es fs : List Event) : busWrites (es ++ fs) = busWrites es ++ busWrites fs := by
  induction es with
  | nil => rfl
  | cons e es ih => cases e <;> simp [busWrites, ih]

@[simp] theorem waits_append (es fs : List Event) : waits (es ++ fs) = waits es ++ waits fs := by
  induction es with
  | nil => rfl
  | cons e es ih => cases e <;> simp [waits, ih]

@[simp] theorem statuses_append (es fs : List Event) : statuses (es ++ fs) = statuses es ++ statuses fs := by
  induction es with
  | nil => rfl
  | cons e es ih => cases e <;> simp [statuses, ih]

@[simp] theorem busWrites_writes (bs : List Byte) : busWrites (bs.map .write) = bs := by
  induction bs with
  | nil => rfl
  | cons b bs ih => simp [busWrites, ih]

@[simp] theorem statuses_writes (bs : List Byte) : statuses (bs.map .write) = [] := by
  induction bs with
  | nil => rfl
  | cons b bs ih => simp [statuses, ih]

@[simp] theorem requests_arrival (l : List MicroStep) : requests (eventOnArrival l) = 0 := by
  rcases l with _ | ⟨_ | _ | _ | _ | _, _⟩ <;> rfl

@[simp] theorem dataAfter_arrival (d : Byte) (l : List MicroStep) : dataAfter d (eventOnArrival l) = d := by
  rcases l with _ | ⟨_ | _ | _ | _ | _, _⟩ <;> rfl

@[simp] theorem enabledAfter_arrival (i : Bool) (l : List MicroStep) : enabledAfter i (eventOnArrival l) = i := by
  rcases l with _ | ⟨_ | _ | _ | _ | _, _⟩ <;> rfl

@[simp] theorem busWrites_arrival (l : List MicroStep) : busWrites (eventOnArrival l) = [] := by
  rcases l with _ | ⟨_ | _ | _ | _ | _, _⟩ <;> rfl

@[simp] theorem statuses_arrival (l : List MicroStep) : statuses (eventOnArrival l) = [] := by
  rcases l with _ | ⟨_ | _ | _ | _ | _, _⟩ <;> rfl

/-- The transport port and the counter are as the sequencer has them when it has just reached `l`: nothing is outstanding, and the
counter runs only in a wait. -/
structure Arrived (l : List MicroStep) (s : State) : Prop where
  write : s.bwValid = false
  bind : s.bindReq = false
  delay : s.delay ≠ 0 → ∃ ms rest, l = .wait ms :: rest

/-- `s` with what a run of micro-steps, all of whose requests succeed, leaves outside the response: the events, the transport after
them, and what they write. -/
def State.ranThrough (es : List Event) (t' : Transport) (s : State) : State :=
  { s with
    initialized := enabledAfter s.initialized es, bwData := dataAfter s.bwData es, bwValid := false, bindReq := false
    delay := 0, transport := t' }

theorem arrived_goTo {l : List MicroStep} {s : State} (hw : s.bwValid = false) (hb : s.bindReq = false) (hd : s.delay = 0) :
    Arrived l (s.goTo l) := by
  refine ⟨hw, hb, fun h => ?_⟩
  rcases l with _ | ⟨_ | _ | ms | _ | _, rest⟩ <;> simp_all [delayOnArrival]

/-- All requests granted: the run emits its events and gives its response. -/
theorem runSteps_granted {k : Nat} {last : Bool} {w : CommandWord} {st : Status} {a : DdramAddr} {t' : Transport}
    {l : List MicroStep} {s : State} (hs : s.seq = .busy k w last l) (hr : Arrived l s) (ha : answerOf l = some (st, a))
    (hg : Transport.Grants (requests (emitted l)) s.transport t') :
    runSteps k last l s = (s.ranThrough (emitted l) t').concluded k last st a (emitted l) := by
  induction l generalizing s with
  | nil => simp [answerOf] at ha
  | cons m rest ih =>
    cases m with
    | respond st' a' =>
      obtain ⟨rfl, rfl⟩ : st' = st ∧ a' = a := by simpa [answerOf] using ha
      have hd : s.delay = 0 := by
        by_contra h
        obtain ⟨_, _, h⟩ := hr.delay h
        simp at h
      have ht : t' = s.transport := by simpa [emitted, requests, Transport.Grants] using hg
      subst ht
      rw [runSteps, respond_eq_concluded]
      simp [State.ranThrough, State.concluded, emitted, enabledAfter, dataAfter, hr.write, hr.bind, hd]
    | gap n =>
      have hd : s.delay = 0 := by
        by_contra h
        obtain ⟨_, _, h⟩ := hr.delay h
        simp at h
      rw [runSteps, ih (by simp [hs]) (arrived_goTo hr.write hr.bind hd) (by simpa [answerOf] using ha)
        (by simpa [emitted, ownEvent] using hg)]
      simp [State.ranThrough, State.concluded, emitted, ownEvent, State.goTo]
    | wait n =>
      rw [runSteps, ih (s := (s.setDelay 0).goTo rest) (by simp [hs]) (arrived_goTo hr.write hr.bind rfl) (by simpa [answerOf] using ha)
        (by simpa [emitted, ownEvent] using hg)]
      simp [State.ranThrough, State.concluded, emitted, ownEvent, State.goTo, State.setDelay]
    | write b =>
      have hd : s.delay = 0 := by
        by_contra h
        obtain ⟨_, _, h⟩ := hr.delay h
        simp at h
      obtain ⟨t₁, h₁, h₂⟩ : ∃ t₁, s.transport.answer = some (.ok, t₁) ∧ Transport.Grants (requests (emitted rest)) t₁ t' := by
        have : requests (emitted (.write b :: rest)) = requests (emitted rest) + 1 := by
          simp [emitted, ownEvent, requests]
        rw [this] at hg
        exact hg
      rw [runSteps, h₁]
      simp only []
      rw [ih (s := ((s.presentWrite b).dropWrite.setTransport t₁).goTo rest) (by simp [hs]) (arrived_goTo rfl hr.bind hd) (by simpa [answerOf] using ha) (by simpa using h₂)]
      have := hr.write
      simp [State.ranThrough, State.concluded, emitted, ownEvent, State.goTo, State.presentWrite, State.dropWrite,
        State.setTransport, this, enabledAfter, dataAfter]
    | bind =>
      have hd : s.delay = 0 := by
        by_contra h
        obtain ⟨_, _, h⟩ := hr.delay h
        simp at h
      obtain ⟨t₁, h₁, h₂⟩ : ∃ t₁, s.transport.answer = some (.ok, t₁) ∧ Transport.Grants (requests (emitted rest)) t₁ t' := by
        have : requests (emitted (.bind :: rest)) = requests (emitted rest) + 1 := by
          simp [emitted, ownEvent, requests]
        rw [this] at hg
        exact hg
      rw [runSteps, h₁]
      simp only []
      rw [ih (s := (s.presentBind.dropBind.setTransport t₁).setInitialized.goTo rest) (by simp [hs])
        (arrived_goTo hr.write rfl hd) (by simpa [answerOf] using ha) (by simpa using h₂)]
      have := hr.bind
      simp [State.ranThrough, State.concluded, emitted, ownEvent, State.goTo, State.presentBind, State.dropBind,
        State.setTransport, State.setInitialized, this, enabledAfter, dataAfter]

/-- The first failing request: the run emits the events up to it and answers `ERR_TRANSPORT`. -/
theorem runSteps_failing {k : Nat} {last : Bool} {w : CommandWord} {t' : Transport} {pre post : List Event} {e : Event}
    {l : List MicroStep} {s : State} (he : e = .bind ∨ ∃ b, e = .write b) (hs : s.seq = .busy k w last l) (hr : Arrived l s)
    (hl : emitted l = pre ++ e :: post) (hg : Transport.FailsAfter (requests pre) s.transport t') :
    runSteps k last l s =
      ({ s.ranThrough pre t' with bwData := dataAfter s.bwData (pre ++ [e]) } : State).concluded k last .errTransport 0#7
        (pre ++ [e]) := by
  induction l generalizing s pre with
  | nil => simp [emitted] at hl
  | cons m rest ih =>
    have hd : (∀ ms, m ≠ .wait ms) → s.delay = 0 := fun hm => by
      by_contra h
      obtain ⟨ms, _, h⟩ := hr.delay h
      exact hm ms (by simpa using (List.cons.inj h).1)
    -- the events before the failing request, once the sequencer has gone on to `rest`
    have split : ∀ {pre : List Event}, eventOnArrival rest ++ emitted rest = pre ++ e :: post →
        ∃ pre', pre = eventOnArrival rest ++ pre' ∧ emitted rest = pre' ++ e :: post := by
      intro pre h
      rcases rest with _ | ⟨_ | _ | ms | _ | _, rest⟩ <;>
        try exact ⟨pre, by simp [eventOnArrival], by simpa [eventOnArrival] using h⟩
      cases pre with
      | nil =>
        obtain ⟨rfl, -⟩ : Event.wait ms = e ∧ _ := by simpa [eventOnArrival] using h
        rcases he with he | ⟨_, he⟩ <;> cases he
      | cons x pre =>
        simp only [eventOnArrival, List.cons_append, List.nil_append, List.cons.injEq] at h
        exact ⟨pre, by simp [eventOnArrival, h.1], h.2⟩
    cases m with
    | respond st' a' => simp [emitted] at hl
    | gap n =>
      obtain ⟨pre', rfl, h'⟩ := split (by simpa [emitted, ownEvent] using hl)
      rw [runSteps, ih (s := s.goTo rest) (by simp [hs]) (arrived_goTo hr.write hr.bind (hd (by simp))) h' (by simpa using hg)]
      simp [State.ranThrough, State.concluded, State.goTo]
    | wait n =>
      obtain ⟨pre', rfl, h'⟩ := split (by simpa [emitted, ownEvent] using hl)
      rw [runSteps, ih (s := (s.setDelay 0).goTo rest) (by simp [hs]) (arrived_goTo hr.write hr.bind rfl) h' (by simpa using hg)]
      simp [State.ranThrough, State.concluded, State.goTo, State.setDelay]
    | write b =>
      have hd := hd (by simp)
      have hw := hr.write
      have hb := hr.bind
      cases pre with
      | nil =>
        obtain ⟨rfl, -⟩ : Event.write b = e ∧ _ := by simpa [emitted, ownEvent] using hl
        rw [runSteps, failsAfter_zero.mp hg]
        simp only []
        rw [respond_eq_concluded]
        simp [State.ranThrough, State.concluded, State.presentWrite, State.dropWrite, State.setTransport, hw, hb, hd, dataAfter,
          enabledAfter]
      | cons x pre =>
        obtain ⟨rfl, h⟩ : Event.write b = x ∧ eventOnArrival rest ++ emitted rest = pre ++ e :: post := by
          simpa [emitted, ownEvent] using hl
        obtain ⟨pre', rfl, h'⟩ := split h
        obtain ⟨t₁, h₁, h₂⟩ := failsAfter_succ.mp (by simpa [requests] using hg)
        rw [runSteps, h₁]
        simp only []
        rw [ih (s := ((s.presentWrite b).dropWrite.setTransport t₁).goTo rest) (by simp [hs]) (arrived_goTo rfl hb hd) h'
          (by simpa using h₂)]
        simp [State.ranThrough, State.concluded, State.goTo, State.presentWrite, State.dropWrite, State.setTransport, hw,
          enabledAfter, dataAfter]
    | bind =>
      have hd := hd (by simp)
      have hw := hr.write
      have hb := hr.bind
      cases pre with
      | nil =>
        obtain ⟨rfl, -⟩ : Event.bind = e ∧ _ := by simpa [emitted, ownEvent] using hl
        rw [runSteps, failsAfter_zero.mp hg]
        simp only []
        rw [respond_eq_concluded]
        simp [State.ranThrough, State.concluded, State.presentBind, State.dropBind, State.setTransport, hw, hb, hd, dataAfter,
          enabledAfter]
      | cons x pre =>
        obtain ⟨rfl, h⟩ : Event.bind = x ∧ eventOnArrival rest ++ emitted rest = pre ++ e :: post := by
          simpa [emitted, ownEvent] using hl
        obtain ⟨pre', rfl, h'⟩ := split h
        obtain ⟨t₁, h₁, h₂⟩ := failsAfter_succ.mp (by simpa [requests] using hg)
        rw [runSteps, h₁]
        simp only []
        rw [ih (s := (s.presentBind.dropBind.setTransport t₁).setInitialized.goTo rest) (by simp [hs]) (arrived_goTo hw rfl hd) h'
          (by simpa using h₂)]
        simp [State.ranThrough, State.concluded, State.goTo, State.presentBind, State.dropBind, State.setTransport,
          State.setInitialized, hb, enabledAfter, dataAfter]

end Sys2Proof.Machine
end

