-- ==== Sys2Proof/Laws/Run.lean ====
section
/-! SUPPORT. What every run of micro-steps keeps, and the three ways a run ends: with its own response, with `ERR_TRANSPORT` at the first
failing request, or held at a request the transport does not answer. -/

namespace Sys2Proof.Machine

/-- The induction over a run, once: what every operation of a run keeps, the run keeps. -/
theorem runSteps_keeps (P : State → Prop) (k : Nat) (last : Bool)
    (hGo : ∀ l s, P s → P (s.goTo l)) (hDelay : ∀ s, P s → P (s.setDelay 0))
    (hWrite : ∀ b s, P s → P (s.presentWrite b)) (hDropWrite : ∀ s, P s → P s.dropWrite)
    (hBind : ∀ s, P s → P s.presentBind) (hDropBind : ∀ s, P s → P s.dropBind)
    (hTransport : ∀ t s, P s → P (s.setTransport t)) (hRespond : ∀ st a s, P s → P (s.respond k last st a))
    (l : List MicroStep) (hInit : .bind ∈ l → ∀ s, P s → P s.setInitialized) (s : State) (h : P s) :
    P (runSteps k last l s) := by
  induction l generalizing s with
  | nil => exact h
  | cons m rest ih =>
    have ih := ih (fun hb => hInit (List.mem_cons_of_mem _ hb))
    cases m with
    | respond st a => exact hRespond _ _ _ h
    | gap n => exact ih _ (hGo _ _ h)
    | wait n => exact ih _ (hGo _ _ (hDelay _ h))
    | write b =>
      rw [runSteps]
      split
      · exact hWrite _ _ h
      · exact ih _ (hGo _ _ (hTransport _ _ (hDropWrite _ (hWrite _ _ h))))
      · exact hRespond _ _ _ (hTransport _ _ (hDropWrite _ (hWrite _ _ h)))
    | bind =>
      rw [runSteps]
      split
      · exact hBind _ h
      · exact ih _ (hGo _ _ (hInit (by simp) _ (hTransport _ _ (hDropBind _ (hBind _ h)))))
      · exact hRespond _ _ _ (hTransport _ _ (hDropBind _ (hBind _ h)))

section
variable (k : Nat) (last : Bool) (l : List MicroStep) (s : State)

@[simp] theorem runSteps_power : (runSteps k last l s).power = s.power := by
  apply runSteps_keeps (fun t => t.power = s.power) <;> simp +contextual

@[simp] theorem runSteps_backlight : (runSteps k last l s).backlight = s.backlight := by
  apply runSteps_keeps (fun t => t.backlight = s.backlight) <;> simp +contextual

@[simp] theorem runSteps_params : (runSteps k last l s).params = s.params := by
  apply runSteps_keeps (fun t => t.params = s.params) <;> simp +contextual

@[simp] theorem runSteps_arbDraws : (runSteps k last l s).arbDraws = s.arbDraws := by
  apply runSteps_keeps (fun t => t.arbDraws = s.arbDraws) <;> simp +contextual

@[simp] theorem runSteps_pending : (runSteps k last l s).ports.map Port.pending = s.ports.map Port.pending := by
  apply runSteps_keeps (fun t => t.ports.map Port.pending = s.ports.map Port.pending) <;> simp +contextual

@[simp] theorem runSteps_portCount : (runSteps k last l s).ports.length = s.ports.length := by
  apply runSteps_keeps (fun t => t.ports.length = s.ports.length) <;> simp +contextual

/-- The record of events only grows. -/
theorem runSteps_trace : ∃ es, (runSteps k last l s).trace = s.trace ++ es := by
  apply runSteps_keeps (fun t => ∃ es, t.trace = s.trace ++ es)
  case h => exact ⟨[], by simp⟩
  case hWrite =>
    rintro b t ⟨es, h⟩
    cases hv : t.bwValid
    · exact ⟨es ++ [.write b], by simp [hv, h]⟩
    · exact ⟨es, by simp [hv, h]⟩
  case hBind =>
    rintro t ⟨es, h⟩
    cases hv : t.bindReq
    · exact ⟨es ++ [.bind], by simp [hv, h]⟩
    · exact ⟨es, by simp [hv, h]⟩
  case hGo => rintro l t ⟨es, h⟩; exact ⟨es ++ eventOnArrival l, by simp [h]⟩
  case hRespond => rintro st a t ⟨es, h⟩; exact ⟨es ++ [.response k st a], by simp [h]⟩
  all_goals intros; simp_all

/-- Only a bind enables the hardware. -/
theorem runSteps_initialized (h : .bind ∉ l) : (runSteps k last l s).initialized = s.initialized := by
  apply runSteps_keeps (fun t => t.initialized = s.initialized) <;> simp +contextual [h]

/-- Nothing disables it. -/
theorem runSteps_stays_initialized (h : s.initialized = true) : (runSteps k last l s).initialized = true := by
  apply runSteps_keeps (fun t => t.initialized = true) <;> simp +contextual [h]

end

/-! ### The three ways a run ends -/

/-- The transport answers its next `j` requests with `ok` and the one after them never, and is `t'` then. -/
def Transport.SilentAfter (j : Nat) (t t' : Transport) : Prop := Transport.Grants j t t' ∧ t'.answer = none

theorem silentAfter_zero {t t' : Transport} : Transport.SilentAfter 0 t t' ↔ t' = t ∧ t.answer = none := by
  simp only [Transport.SilentAfter, Transport.Grants]
  constructor <;> · rintro ⟨rfl, h⟩; exact ⟨rfl, h⟩

theorem silentAfter_succ {j : Nat} {t t' : Transport} :
    Transport.SilentAfter (j + 1) t t' ↔ ∃ t₁, t.answer = some (.ok, t₁) ∧ Transport.SilentAfter j t₁ t' := by
  simp only [Transport.SilentAfter, Transport.Grants]
  constructor
  · rintro ⟨⟨t₁, h, h₁⟩, h₂⟩; exact ⟨t₁, h, h₁, h₂⟩
  · rintro ⟨t₁, h, h₁, h₂⟩; exact ⟨⟨t₁, h, h₁⟩, h₂⟩

/-- Whatever the transport does: it grants the next `n` requests, or one of them is the first that fails, or that it never answers. -/
theorem transport_cases (n : Nat) (t : Transport) :
    (∃ t', Transport.Grants n t t') ∨ (∃ j t', j < n ∧ Transport.FailsAfter j t t') ∨
    (∃ j t', j < n ∧ Transport.SilentAfter j t t') := by
  induction n generalizing t with
  | zero => exact .inl ⟨t, rfl⟩
  | succ n ih =>
    rcases h : t.answer with _ | ⟨_ | _, t₁⟩
    · exact .inr (.inr ⟨0, t, by omega, silentAfter_zero.mpr ⟨rfl, h⟩⟩)
    · rcases ih t₁ with ⟨t', h'⟩ | ⟨j, t', hj, h'⟩ | ⟨j, t', hj, h'⟩
      · exact .inl ⟨t', t₁, h, h'⟩
      · exact .inr (.inl ⟨j + 1, t', by omega, failsAfter_succ.mpr ⟨t₁, h, h'⟩⟩)
      · exact .inr (.inr ⟨j + 1, t', by omega, silentAfter_succ.mpr ⟨t₁, h, h'⟩⟩)
    · exact .inr (.inl ⟨0, t₁, by omega, failsAfter_zero.mpr h⟩)

/-- Among events with more than `j` requests, the request number `j`. -/
theorem request_at {es : List Event} {j : Nat} (h : j < requests es) :
    ∃ pre e post, es = pre ++ e :: post ∧ requests pre = j ∧ (e = .bind ∨ ∃ b, e = .write b) := by
  induction es generalizing j with
  | nil => simp [requests] at h
  | cons x es ih =>
    have skip : requests (x :: es) = requests es → (∀ ys, requests (x :: ys) = requests ys) →
        ∃ pre e post, x :: es = pre ++ e :: post ∧ requests pre = j ∧ (e = .bind ∨ ∃ b, e = .write b) := by
      intro h₁ h₂
      obtain ⟨pre, e, post, rfl, hr, he⟩ := ih (j := j) (by omega)
      exact ⟨x :: pre, e, post, by simp, by simpa [h₂] using hr, he⟩
    have take : requests (x :: es) = requests es + 1 → (∀ ys, requests (x :: ys) = requests ys + 1) →
        (x = .bind ∨ ∃ b, x = .write b) →
        ∃ pre e post, x :: es = pre ++ e :: post ∧ requests pre = j ∧ (e = .bind ∨ ∃ b, e = .write b) := by
      intro h₁ h₂ hx
      cases j with
      | zero => exact ⟨[], x, es, rfl, rfl, hx⟩
      | succ j =>
        obtain ⟨pre, e, post, rfl, hr, he⟩ := ih (j := j) (by omega)
        exact ⟨x :: pre, e, post, by simp, by simp [h₂, hr], he⟩
    cases x with
    | bind => exact take rfl (fun _ => rfl) (.inl rfl)
    | write b => exact take rfl (fun _ => rfl) (.inr ⟨b, rfl⟩)
    | wait ms => exact skip rfl (fun _ => rfl)
    | response p st a => exact skip rfl (fun _ => rfl)
    | reset => exact skip rfl (fun _ => rfl)

/-- The micro-step that makes a request. -/
def stepOf : Event → MicroStep
  | .write b => .write b
  | _ => .bind

/-- `s` held at a request that the transport does not answer: the events before it and its own have been made. -/
def State.heldAt (es : List Event) (e : Event) (rest : List MicroStep) (t : Transport) (s : State) : State :=
  { s.ranThrough es t with
    seq := s.seq.withSteps (stepOf e :: rest)
    bwData := dataAfter s.bwData (es ++ [e])
    bwValid := (match e with | .write _ => true | _ => false)
    bindReq := (match e with | .write _ => false | _ => true)
    trace := s.trace ++ (es ++ [e]) }

/-- The first request that is not answered: the run emits the events up to it and stays there. -/
theorem runSteps_silent {k : Nat} {last : Bool} {w : CommandWord} {t' : Transport} {pre post : List Event} {e : Event}
    {l : List MicroStep} {s : State} (he : e = .bind ∨ ∃ b, e = .write b) (hs : s.seq = .busy k w last l) (hr : Arrived l s)
    (hl : emitted l = pre ++ e :: post) (hg : Transport.SilentAfter (requests pre) s.transport t') :
    ∃ before rest, l = before ++ stepOf e :: rest ∧ runSteps k last l s = s.heldAt pre e rest t' := by
  induction l generalizing s pre with
  | nil => simp [emitted] at hl
  | cons m rest ih =>
    have hd : (∀ ms, m ≠ .wait ms) → s.delay = 0 := fun hm => by
      by_contra h
      obtain ⟨ms, _, h⟩ := hr.delay h
      exact hm ms (by simpa using (List.cons.inj h).1)
    have split : ∀ {pre : List Event}, eventOnArrival rest ++ emitted rest = pre ++ e :: post →
        ∃ pre', pre = eventOnArrival rest ++ pre' ∧ emitted rest = pre' ++ e :: post := by
      intro pre h
      rcases rest with _ | ⟨_ | _ | ms | _ | _, rest⟩ <;>
        try exact ⟨pre, by simp [eventOnArrival], by simpa [eventOnArrival] using h⟩
      cases pre with
      | nil =>
        obtain ⟨rfl, -⟩ : Event.wait ms = e ∧ _ := by simpa [eventOnArrival] using h
        rcases he with he | ⟨_, he⟩ <;> cases he
      | cons x pre =>
        simp only [eventOnArrival, List.cons_append, List.nil_append, List.cons.injEq] at h
        exact ⟨pre, by simp [eventOnArrival, h.1], h.2⟩
    have hw := hr.write
    have hb := hr.bind
    cases m with
    | respond st' a' => simp [emitted] at hl
    | gap n =>
      obtain ⟨pre', rfl, h'⟩ := split (by simpa [emitted, ownEvent] using hl)
      obtain ⟨before, rest', hl', h⟩ := ih (s := s.goTo rest) (by simp [hs]) (arrived_goTo hw hb (hd (by simp))) h'
        (by simpa using hg)
      refine ⟨.gap n :: before, rest', by simp [hl'], ?_⟩
      rw [runSteps, h]
      simp [State.heldAt, State.ranThrough, State.goTo]
    | wait n =>
      obtain ⟨pre', rfl, h'⟩ := split (by simpa [emitted, ownEvent] using hl)
      obtain ⟨before, rest', hl', h⟩ := ih (s := (s.setDelay 0).goTo rest) (by simp [hs]) (arrived_goTo hw hb rfl) h'
        (by simpa using hg)
      refine ⟨.wait n :: before, rest', by simp [hl'], ?_⟩
      rw [runSteps, h]
      simp [State.heldAt, State.ranThrough, State.goTo, State.setDelay]
    | write b =>
      have hd := hd (by simp)
      cases pre with
      | nil =>
        obtain ⟨rfl, -⟩ : Event.write b = e ∧ _ := by simpa [emitted, ownEvent] using hl
        obtain ⟨rfl, h⟩ := silentAfter_zero.mp hg
        refine ⟨[], rest, rfl, ?_⟩
        rw [runSteps, h]
        simp [State.heldAt, State.ranThrough, State.presentWrite, hw, hb, hd, dataAfter, enabledAfter, stepOf, hs]
      | cons x pre =>
        obtain ⟨rfl, h⟩ : Event.write b = x ∧ eventOnArrival rest ++ emitted rest = pre ++ e :: post := by
          simpa [emitted, ownEvent] using hl
        obtain ⟨pre', rfl, h'⟩ := split h
        obtain ⟨t₁, h₁, h₂⟩ := silentAfter_succ.mp (by simpa [requests] using hg)
        obtain ⟨before, rest', hl', h⟩ := ih (s := ((s.presentWrite b).dropWrite.setTransport t₁).goTo rest) (by simp [hs])
          (arrived_goTo rfl hb hd) h' (by simpa using h₂)
        refine ⟨.write b :: before, rest', by simp [hl'], ?_⟩
        rw [runSteps, h₁]
        simp only []
        rw [h]
        simp [State.heldAt, State.ranThrough, State.goTo, State.presentWrite, State.dropWrite, State.setTransport, hw,
          enabledAfter, dataAfter]
    | bind =>
      have hd := hd (by simp)
      cases pre with
      | nil =>
        obtain ⟨rfl, -⟩ : Event.bind = e ∧ _ := by simpa [emitted, ownEvent] using hl
        obtain ⟨rfl, h⟩ := silentAfter_zero.mp hg
        refine ⟨[], rest, rfl, ?_⟩
        rw [runSteps, h]
        simp [State.heldAt, State.ranThrough, State.presentBind, hw, hb, hd, dataAfter, enabledAfter, stepOf, hs]
      | cons x pre =>
        obtain ⟨rfl, h⟩ : Event.bind = x ∧ eventOnArrival rest ++ emitted rest = pre ++ e :: post := by
          simpa [emitted, ownEvent] using hl
        obtain ⟨pre', rfl, h'⟩ := split h
        obtain ⟨t₁, h₁, h₂⟩ := silentAfter_succ.mp (by simpa [requests] using hg)
        obtain ⟨before, rest', hl', h⟩ := ih (s := (s.presentBind.dropBind.setTransport t₁).setInitialized.goTo rest)
          (by simp [hs]) (arrived_goTo hw rfl hd) h' (by simpa using h₂)
        refine ⟨.bind :: before, rest', by simp [hl'], ?_⟩
        rw [runSteps, h₁]
        simp only []
        rw [h]
        simp [State.heldAt, State.ranThrough, State.goTo, State.presentBind, State.dropBind, State.setTransport,
          State.setInitialized, hb, enabledAfter, dataAfter]

/-- The three ways a run ends: with its own response, with `ERR_TRANSPORT` at the first failing request, or held. -/
theorem runSteps_cases {k : Nat} {last : Bool} {w : CommandWord} {st : Status} {a : DdramAddr} {l : List MicroStep} {s : State}
    (hs : s.seq = .busy k w last l) (hr : Arrived l s) (ha : answerOf l = some (st, a)) :
    (∃ t', runSteps k last l s = (s.ranThrough (emitted l) t').concluded k last st a (emitted l)) ∨
    (∃ pre e post t', (e = .bind ∨ ∃ b, e = .write b) ∧ emitted l = pre ++ e :: post ∧
      runSteps k last l s = ({ s.ranThrough pre t' with bwData := dataAfter s.bwData (pre ++ [e]) } : State).concluded
        k last .errTransport 0#7 (pre ++ [e])) ∨
    (∃ pre e post t' before rest, (e = .bind ∨ ∃ b, e = .write b) ∧ emitted l = pre ++ e :: post ∧
      l = before ++ stepOf e :: rest ∧ runSteps k last l s = s.heldAt pre e rest t') := by
  rcases transport_cases (requests (emitted l)) s.transport with ⟨t', h⟩ | ⟨j, t', hj, h⟩ | ⟨j, t', hj, h⟩
  · exact .inl ⟨t', runSteps_granted hs hr ha h⟩
  · obtain ⟨pre, e, post, hl, rfl, he⟩ := request_at hj
    exact .inr (.inl ⟨pre, e, post, t', he, hl, runSteps_failing he hs hr hl h⟩)
  · obtain ⟨pre, e, post, hl, rfl, he⟩ := request_at hj
    obtain ⟨before, rest, hb, h⟩ := runSteps_silent he hs hr hl h
    exact .inr (.inr ⟨pre, e, post, t', before, rest, he, hl, hb, h⟩)

end Sys2Proof.Machine
end

