-- ==== Sys2Proof/Laws/Plans.lean ====
section
/-! SUPPORT. The micro-steps the commands load: what they emit, which response they end in, and which command loads which. -/

namespace Sys2Proof.Machine

/-! ### Micro-steps followed by more -/

/-- Steps that neither wait nor respond: what they emit does not depend on what follows, which is not a wait. -/
def plainSteps : List MicroStep → Bool
  | [] => true
  | .write _ :: l | .gap _ :: l => plainSteps l
  | .bind :: _ | .wait _ :: _ | .respond _ _ :: _ => false

theorem plainSteps_append {l l' : List MicroStep} (h : plainSteps l = true) (h' : plainSteps l' = true) :
    plainSteps (l ++ l') = true := by
  induction l with
  | nil => exact h'
  | cons m l ih => cases m <;> simp_all [plainSteps]

@[simp] theorem plainSteps_gapSteps (n : Nat) : plainSteps (gapSteps n) = true := by
  by_cases h : n = 0 <;> simp [gapSteps, h, plainSteps]

@[simp] theorem plainSteps_nibble (n : Nibble) (rs : Bool) (s : State) : plainSteps (nibble n rs s) = true := by
  simp only [nibble]
  exact plainSteps_append (plainSteps_append (plainSteps_append (plainSteps_append rfl (by simp)) rfl) (by simp)) rfl

@[simp] theorem plainSteps_sendByte (v : Byte) (rs : Bool) (s : State) : plainSteps (sendByte v rs s) = true :=
  plainSteps_append (plainSteps_append (by simp) (by simp)) (by simp)

/-- The writes among plain steps, as events. -/
def writeEvents : List MicroStep → List Event
  | [] => []
  | .write b :: l => .write b :: writeEvents l
  | _ :: l => writeEvents l

@[simp] theorem writeEvents_append (l l' : List MicroStep) : writeEvents (l ++ l') = writeEvents l ++ writeEvents l' := by
  induction l with
  | nil => rfl
  | cons m l ih => cases m <;> simp [writeEvents, ih]

@[simp] theorem writeEvents_gapSteps (n : Nat) : writeEvents (gapSteps n) = [] := by
  by_cases h : n = 0 <;> simp [gapSteps, h, writeEvents]

theorem writeEvents_nibble (n : Nibble) (rs : Bool) (s : State) :
    writeEvents (nibble n rs s) = (nibbleWrites s.params.pinMap n rs s.backlight).map .write := by
  simp [nibble, nibbleWrites, writeEvents]

theorem writeEvents_sendByte (v : Byte) (rs : Bool) (s : State) :
    writeEvents (sendByte v rs s) = (byteWrites s.params.pinMap v rs s.backlight).map .write := by
  simp [sendByte, byteWrites, writeEvents_nibble]

theorem emitted_plain_append {l : List MicroStep} (h : plainSteps l = true) (hne : l ≠ []) (l' : List MicroStep) :
    emitted (l ++ l') = writeEvents l ++ eventOnArrival l' ++ emitted l' := by
  induction l with
  | nil => exact absurd rfl hne
  | cons m l ih =>
    have hl : eventOnArrival (l ++ l') ++ emitted (l ++ l') = writeEvents l ++ eventOnArrival l' ++ emitted l' := by
      cases l with
      | nil => simp [writeEvents]
      | cons m' l =>
        have : eventOnArrival (m' :: l ++ l') = [] := by cases m <;> cases m' <;> simp_all [plainSteps, eventOnArrival]
        rw [this, List.nil_append]
        exact ih (by cases m <;> simp_all [plainSteps]) (by simp)
    cases m <;> simp_all [plainSteps, emitted, ownEvent, writeEvents]

theorem nibble_ne_nil (n : Nibble) (rs : Bool) (s : State) : nibble n rs s ≠ [] := by simp [nibble]

theorem sendByte_ne_nil (v : Byte) (rs : Bool) (s : State) : sendByte v rs s ≠ [] := by simp [sendByte, nibble]

/-- A nibble transaction that is followed by a wait, or by anything else. -/
theorem emitted_nibble_append (n : Nibble) (rs : Bool) (s : State) (l : List MicroStep) :
    emitted (nibble n rs s ++ l) =
      (nibbleWrites s.params.pinMap n rs s.backlight).map .write ++ eventOnArrival l ++ emitted l := by
  rw [emitted_plain_append (by simp) (nibble_ne_nil n rs s), writeEvents_nibble]

theorem emitted_sendByte_append (v : Byte) (rs : Bool) (s : State) (l : List MicroStep) :
    emitted (sendByte v rs s ++ l) =
      (byteWrites s.params.pinMap v rs s.backlight).map .write ++ eventOnArrival l ++ emitted l := by
  rw [emitted_plain_append (by simp) (sendByte_ne_nil v rs s), writeEvents_sendByte]

@[simp] theorem eventOnArrival_nibble (n : Nibble) (rs : Bool) (s : State) (l : List MicroStep) :
    eventOnArrival (nibble n rs s ++ l) = [] := rfl

@[simp] theorem eventOnArrival_sendByte (v : Byte) (rs : Bool) (s : State) (l : List MicroStep) :
    eventOnArrival (sendByte v rs s ++ l) = [] := rfl

/-- The response at the end of steps that hold no other. -/
theorem answerOf_append {l : List MicroStep} (h : ∀ st a, .respond st a ∉ l) (l' : List MicroStep) :
    answerOf (l ++ l') = answerOf l' := by
  induction l with
  | nil => rfl
  | cons m l ih =>
    have := ih (fun st a hm => h st a (List.mem_cons_of_mem _ hm))
    cases m with
    | respond st a => exact absurd (List.mem_cons_self) (h st a)
    | _ => simpa [answerOf] using this

theorem plain_no_respond {l : List MicroStep} (h : plainSteps l = true) (st : Status) (a : DdramAddr) : .respond st a ∉ l := by
  induction l with
  | nil => simp
  | cons m l ih => cases m <;> simp_all [plainSteps]

theorem plain_no_bind {l : List MicroStep} (h : plainSteps l = true) : .bind ∉ l := by
  induction l with
  | nil => simp
  | cons m l ih => cases m <;> simp_all [plainSteps]

/-! ### One byte and its response -/

theorem emitted_byte (v : Byte) (rs : Bool) (st : Status) (a : DdramAddr) (s : State) :
    emitted (sendByte v rs s ++ [.respond st a]) = (byteWrites s.params.pinMap v rs s.backlight).map .write := by
  rw [emitted_sendByte_append]
  simp [eventOnArrival, emitted]

theorem answerOf_byte (v : Byte) (rs : Bool) (st : Status) (a : DdramAddr) (s : State) :
    answerOf (sendByte v rs s ++ [.respond st a]) = some (st, a) := by
  rw [answerOf_append (plain_no_respond (by simp))]
  rfl

@[simp] theorem length_byteWrites (p : PinMap) (v : Byte) (rs bl : Bool) : (byteWrites p v rs bl).length = 6 := rfl

/-! ### The initialisation sequence -/

theorem emitted_enable (s : State) :
    emitted ([.bind] ++ initSteps s ++ [.respond .ok 0#7]) = .bind :: initEvents s.params.pinMap s.backlight := by
  have wait : ∀ ms l, emitted (.wait ms :: l) = eventOnArrival l ++ emitted l := fun ms l => by simp [emitted, ownEvent]
  have bind : ∀ l, emitted (.bind :: l) = .bind :: (eventOnArrival l ++ emitted l) := fun l => by simp [emitted, ownEvent]
  simp only [initSteps, List.append_assoc, List.cons_append, List.nil_append, bind, wait, emitted_nibble_append,
    emitted_sendByte_append, eventOnArrival_nibble, eventOnArrival_sendByte, List.cons.injEq, true_and]
  simp [eventOnArrival, emitted, initEvents, pulseEvents, init8, init4, funcSet, dispCtl, clearCmd, entryMode]

theorem answerOf_enable (s : State) : answerOf ([.bind] ++ initSteps s ++ [.respond .ok 0#7]) = some (.ok, 0#7) := by
  rw [answerOf_append]
  · rfl
  · intro st a
    have hn := fun n => plain_no_respond (plainSteps_nibble n false s) st a
    have hb := fun v => plain_no_respond (plainSteps_sendByte v false s) st a
    simp [initSteps, hn, hb]

/-! ### What each command loads -/

/-- A command, its checks passed, as the flags it writes at once and the micro-steps it loads; none for one that does not pass. -/
def loads (i : Instr) (s : State) : State × List MicroStep :=
  match i with
  | .enable => (s, [.bind] ++ initSteps s ++ [.respond .ok 0#7])
  | .powerOn => (s.setPower true, [.respond .ok 0#7])
  | .powerOff => (s.setPower false, [.respond .ok 0#7])
  | .blOn =>
    (s.setBacklight true,
      if s.params.blImmediateWrite then [.write (blByte s.params.pinMap true), .respond .ok 0#7] else [.respond .ok 0#7])
  | .blOff =>
    (s.setBacklight false,
      if s.params.blImmediateWrite then [.write (blByte s.params.pinMap false), .respond .ok 0#7] else [.respond .ok 0#7])
  | .clear => (s, sendByte clearCmd false s ++ [.respond .ok 0#7])
  | .home => (s, sendByte homeCmd false s ++ [.respond .ok 0#7])
  | .setpos line col =>
    (s, match resolve s.params line col with
      | some a => sendByte (setAddrCmd a) false s ++ [.respond .ok a]
      | none => [.respond .errValidation 0#7])
  | .resolve line col =>
    (s, match resolve s.params line col with
      | some a => [.respond .ok a]
      | none => [.respond .errValidation 0#7])
  | .send d v => (s, sendByte v d s ++ [.respond .ok 0#7])

/-- Whether a command passes the checks of 60_exceptions.md R315 that come before its effect, validation aside. -/
def passes (i : Instr) (s : State) : Prop :=
  s.abort = false ∧ (gated i = true → s.power = true) ∧ (needsEnable s.params i = true → s.initialized = true)

/-- A command that passes its checks writes its flags and loads its micro-steps. -/
theorem start_of_passes {i : Instr} {s : State} (h : passes i s) :
    start i s = (loads i s).1.goTo (loads i s).2 := by
  obtain ⟨ha, hp, hi⟩ := h
  cases i with
  | enable => simp only [start, startEnable, unlessAborted_of_not _ ha, loads]
  | powerOn => simp only [start, startPowerOn, unlessAborted_of_not _ ha, loads, answerWith_eq]
  | powerOff => simp only [start, startPowerOff, unlessAborted_of_not _ ha, loads, answerWith_eq]
  | blOn =>
    simp only [start, startBlOn, unlessAborted_of_not _ ha, ifPowered_of_on _ (hp rfl), State.switchBacklight, loads]
    split
    · rename_i hb; simp [ifInitialized_of_init _ (hi hb), State.writeBacklight]
    · rw [answerWith_eq]
  | blOff =>
    simp only [start, startBlOff, unlessAborted_of_not _ ha, ifPowered_of_on _ (hp rfl), State.switchBacklight, loads]
    split
    · rename_i hb; simp [ifInitialized_of_init _ (hi hb), State.writeBacklight]
    · rw [answerWith_eq]
  | clear =>
    simp only [start, startClear, unlessAborted_of_not _ ha, ifPowered_of_on _ (hp rfl), ifInitialized_of_init _ (hi rfl), loads,
      State.sendAndRespond]
  | home =>
    simp only [start, startHome, unlessAborted_of_not _ ha, ifPowered_of_on _ (hp rfl), ifInitialized_of_init _ (hi rfl), loads,
      State.sendAndRespond]
  | send d v =>
    simp only [start, startSend, unlessAborted_of_not _ ha, ifPowered_of_on _ (hp rfl), ifInitialized_of_init _ (hi rfl), loads,
      State.sendAndRespond]
  | setpos line col =>
    simp only [start, startSetpos, unlessAborted_of_not _ ha, ifPowered_of_on _ (hp rfl), loads]
    cases hr : resolve s.params line col with
    | none => rw [ifValid_of_none _ hr]
    | some a => rw [ifValid_of_some _ hr, ifInitialized_of_init _ (hi rfl)]; rfl
  | resolve line col =>
    simp only [start, startResolve, unlessAborted_of_not _ ha, loads]
    cases hr : resolve s.params line col with
    | none => rw [ifValid_of_none _ hr]
    | some a => rw [ifValid_of_some _ hr, answerWith_eq]

/-- A command that does not pass them only answers, with a status that is no `OK`. -/
theorem start_of_not_passes {i : Instr} {s : State} (h : ¬ passes i s) :
    ∃ st, st ≠ .ok ∧ start i s = s.goTo [.respond st 0#7] := by
  cases ha : s.abort with
  | true => exact ⟨.skipped, by simp, start_of_abort i ha⟩
  | false =>
    have off : ∀ f, s.power = false → State.unlessAborted (State.ifPowered f) s = s.goTo [.respond .okOff 0#7] :=
      fun f hp => by rw [unlessAborted_of_not _ ha, ifPowered_of_off _ hp]
    have notInit : ∀ f, s.power = true → s.initialized = false →
        State.unlessAborted (State.ifPowered (State.ifInitialized f)) s = s.goTo [.respond .errNotInit 0#7] :=
      fun f hp hi => by rw [unlessAborted_of_not _ ha, ifPowered_of_on _ hp, ifInitialized_of_not _ hi]
    have gatedOff : s.power = false → gated i = true → start i s = s.goTo [.respond .okOff 0#7] := by
      intro hp hg
      cases i with
      | enable => simp [gated] at hg
      | powerOn => simp [gated] at hg
      | powerOff => simp [gated] at hg
      | resolve line col => simp [gated] at hg
      | blOn => exact off _ hp
      | blOff => exact off _ hp
      | clear => exact off _ hp
      | home => exact off _ hp
      | setpos line col => exact off _ hp
      | send d v => exact off _ hp
    by_cases hg : gated i = true ∧ s.power = false
    · exact ⟨.okOff, by simp, gatedOff hg.2 hg.1⟩
    · have hp : gated i = true → s.power = true := by
        intro h; by_contra hp; exact hg ⟨h, by simpa using hp⟩
      have hn : needsEnable s.params i = true ∧ s.initialized = false := by
        by_contra hn
        refine h ⟨ha, hp, fun hn' => ?_⟩
        by_contra hi
        exact hn ⟨hn', by simpa using hi⟩
      cases i with
      | clear => exact ⟨.errNotInit, by simp, notInit _ (hp rfl) hn.2⟩
      | home => exact ⟨.errNotInit, by simp, notInit _ (hp rfl) hn.2⟩
      | send d v => exact ⟨.errNotInit, by simp, notInit _ (hp rfl) hn.2⟩
      | setpos line col =>
        simp only [start, startSetpos, unlessAborted_of_not _ ha, ifPowered_of_on _ (hp rfl)]
        cases hr : resolve s.params line col with
        | none => exact ⟨.errValidation, by simp, ifValid_of_none _ hr⟩
        | some a => exact ⟨.errNotInit, by simp, by rw [ifValid_of_some _ hr, ifInitialized_of_not _ hn.2]⟩
      | blOn =>
        have hb : s.params.blImmediateWrite = true := hn.1
        exact ⟨.errNotInit, by simp, by
          simp [start, startBlOn, unlessAborted_of_not _ ha, ifPowered_of_on _ (hp rfl), State.switchBacklight, hb,
            ifInitialized_of_not _ hn.2]⟩
      | blOff =>
        have hb : s.params.blImmediateWrite = true := hn.1
        exact ⟨.errNotInit, by simp, by
          simp [start, startBlOff, unlessAborted_of_not _ ha, ifPowered_of_on _ (hp rfl), State.switchBacklight, hb,
            ifInitialized_of_not _ hn.2]⟩
      | _ => exact absurd hn.1 (by simp [needsEnable])

end Sys2Proof.Machine
end

