-- ==== Sys2Proof/Laws/Commands.lean ====
section
/-! SUPPORT. What a command does where it executes: it only answers, or it writes its flags and runs the micro-steps it loads; and what
those micro-steps are good for. -/

namespace Sys2Proof.Machine

variable {s t : State} {k : Nat} {last : Bool} {i : Instr}

/-! ### Commands that only answer -/

/-- A command whose start is a response. -/
theorem exec_of_answer (h : s.Executing k last) {st : Status} {a : DdramAddr} (hs : start i s = s.goTo [.respond st a]) :
    exec i s = .next (s.concluded k last st a []) := by
  obtain ⟨w, l, hb⟩ := h.busy
  rw [exec_eq, runCommand_busy _ h.legal hb, hs, finish_goTo_respond hb]

/-- A command that does not pass its checks answers a status that is no `OK`, and does nothing else. -/
theorem exec_of_not_passes (h : s.Executing k last) (hp : ¬ passes i s) (hex : exec i s = .next t) :
    ∃ st, st ≠ .ok ∧ t = s.concluded k last st 0#7 [] := by
  obtain ⟨st, hne, hst⟩ := start_of_not_passes hp
  rw [exec_of_answer h hst] at hex
  cases hex
  exact ⟨st, hne, rfl⟩

/-! ### The resolver -/

theorem legalParams_of_legal (h : s.legal = true) : legalParams s.params = true := by
  simp [State.legal] at h
  exact h.1

theorem resolve_of_invalid {p : Params} {line col : Nat} (h : line = 0 ∨ p.rows < line ∨ p.columns < col) :
    resolve p line col = none := by
  unfold resolve
  rcases h with h | h | h
  · simp [h]
  · simp [h]
  · rw [if_pos h, ite_self]

/-- The position of a legal configuration's geometry has an address. -/
theorem resolve_of_valid {p : Params} {line col : Nat} (hp : legalParams p = true)
    (h : 1 ≤ line ∧ line ≤ p.rows ∧ col ≤ p.columns) : ∃ a, resolve p line col = some a := by
  simp only [legalParams, Bool.and_eq_true, decide_eq_true_eq] at hp
  obtain ⟨⟨⟨⟨-, h₂⟩, -⟩, -⟩, -⟩ := hp
  obtain ⟨h₃, h₄, h₅⟩ := h
  have h₆ : line ≤ 4 := by omega
  simp only [resolve, show ¬ (line < 1 ∨ line > p.rows) by omega, if_false, show ¬ col > p.columns by omega]
  interval_cases line <;> simp [lineBase]

/-! ### The micro-steps a command loads -/

@[simp] theorem loads_seq (i : Instr) (s : State) : (loads i s).1.seq = s.seq := by cases i <;> rfl

@[simp] theorem loads_trace (i : Instr) (s : State) : (loads i s).1.trace = s.trace := by cases i <;> rfl

@[simp] theorem loads_params (i : Instr) (s : State) : (loads i s).1.params = s.params := by cases i <;> rfl

@[simp] theorem loads_ports (i : Instr) (s : State) : (loads i s).1.ports = s.ports := by cases i <;> rfl

@[simp] theorem loads_owner (i : Instr) (s : State) : (loads i s).1.owner = s.owner := by cases i <;> rfl

@[simp] theorem loads_abort (i : Instr) (s : State) : (loads i s).1.abort = s.abort := by cases i <;> rfl

@[simp] theorem loads_initialized (i : Instr) (s : State) : (loads i s).1.initialized = s.initialized := by cases i <;> rfl

@[simp] theorem loads_transport (i : Instr) (s : State) : (loads i s).1.transport = s.transport := by cases i <;> rfl

@[simp] theorem loads_arrival (i : Instr) (s : State) : eventOnArrival (loads i s).2 = [] := by
  cases i <;> simp only [loads] <;> (try split) <;> rfl

/-- The response they end in: `OK`, or `ERR_VALIDATION` for a position outside the geometry. -/
theorem loads_answer (i : Instr) (s : State) :
    ∃ st a, answerOf (loads i s).2 = some (st, a) ∧ (st ≠ .ok → a = 0#7) ∧
      (st = .ok ∨ (st = .errValidation ∧ ∃ line col, position i = some (line, col) ∧ resolve s.params line col = none)) := by
  cases i with
  | enable => exact ⟨_, _, answerOf_enable s, by simp, .inl rfl⟩
  | clear => exact ⟨_, _, answerOf_byte .., by simp, .inl rfl⟩
  | home => exact ⟨_, _, answerOf_byte .., by simp, .inl rfl⟩
  | send d v => exact ⟨_, _, answerOf_byte .., by simp, .inl rfl⟩
  | setpos line col =>
    simp only [loads]
    split
    · exact ⟨_, _, answerOf_byte .., by simp, .inl rfl⟩
    · exact ⟨_, _, rfl, by simp, .inr ⟨rfl, line, col, rfl, by assumption⟩⟩
  | resolve line col =>
    simp only [loads]
    split
    · exact ⟨_, _, rfl, by simp, .inl rfl⟩
    · exact ⟨_, _, rfl, by simp, .inr ⟨rfl, line, col, rfl, by assumption⟩⟩
  | blOn => simp only [loads]; split <;> exact ⟨_, _, rfl, by simp, .inl rfl⟩
  | blOff => simp only [loads]; split <;> exact ⟨_, _, rfl, by simp, .inl rfl⟩
  | powerOn => exact ⟨_, _, rfl, by simp, .inl rfl⟩
  | powerOff => exact ⟨_, _, rfl, by simp, .inl rfl⟩

theorem loads_arrived (i : Instr) (h : s.Executing k last) : Arrived (loads i s).2 ((loads i s).1.goTo (loads i s).2) := by
  apply arrived_goTo
  · cases i <;> exact h.noWrite
  · cases i <;> exact h.noBind
  · cases i <;> exact h.noDelay

/-- A command that passes its checks runs the micro-steps it loads. -/
theorem exec_of_passes (h : s.Executing k last) (hp : passes i s) :
    exec i s = .next (runSteps k last (loads i s).2 ((loads i s).1.goTo (loads i s).2)) := by
  obtain ⟨w, l, hb⟩ := h.busy
  rw [exec_eq, runCommand_busy _ h.legal hb, start_of_passes hp, finish_goTo (k := k) (last := last) (w := w) (l' := l) (by simp [hb])]

/-- A run of micro-steps answers nothing before its response. -/
@[simp] theorem statuses_emitted (l : List MicroStep) : statuses (emitted l) = [] := by
  induction l with
  | nil => rfl
  | cons m l ih => cases m <;> simp [emitted, ownEvent, statuses, ih]

/-- The start of a command, whatever its checks say: the flags that are not its own, and the micro-steps. -/
theorem start_keeps (i : Instr) (s : State) :
    (i ≠ .powerOn → i ≠ .powerOff → (start i s).power = s.power) ∧
    (i ≠ .blOn → i ≠ .blOff → (start i s).backlight = s.backlight) ∧
    (start i s).initialized = s.initialized ∧ (start i s).params = s.params ∧ (start i s).arbDraws = s.arbDraws ∧
    (start i s).ports = s.ports ∧ (start i s).trace = s.trace ∧
    ∃ l, (start i s).seq = s.seq.withSteps l ∧ (i ≠ .enable → .bind ∉ l) := by
  by_cases hp : passes i s
  · rw [start_of_passes hp]
    refine ⟨?_, ?_, ?_, ?_, ?_, ?_, by simp, ⟨(loads i s).2, by simp, ?_⟩⟩
    · intro h₁ h₂; cases i <;> first | rfl | contradiction
    · intro h₁ h₂; cases i <;> first | rfl | contradiction
    · cases i <;> rfl
    · cases i <;> rfl
    · cases i <;> rfl
    · cases i <;> rfl
    · intro hne
      have hb := fun v r => plain_no_bind (plainSteps_sendByte v r s)
      cases i <;> simp only [loads] <;> (try split) <;> simp_all [-Bool.forall_bool]
  · obtain ⟨st, _, h⟩ := start_of_not_passes hp
    rw [h]
    exact ⟨fun _ _ => rfl, fun _ _ => rfl, rfl, rfl, rfl, rfl, by simp [eventOnArrival], ⟨_, rfl, by simp⟩⟩

/-- The three outcomes of a command that passes its checks: its own response, `ERR_TRANSPORT` at a request, or held there. -/
theorem exec_cases (h : s.Executing k last) (hp : passes i s) (hex : exec i s = .next t) :
    (∃ t' st a, answerOf (loads i s).2 = some (st, a) ∧
      t = ((loads i s).1.ranThrough (emitted (loads i s).2) t').concluded k last st a (emitted (loads i s).2)) ∨
    (∃ pre e post t', (e = .bind ∨ ∃ b, e = .write b) ∧ emitted (loads i s).2 = pre ++ e :: post ∧
      t = ({ (loads i s).1.ranThrough pre t' with bwData := dataAfter (loads i s).1.bwData (pre ++ [e]) } : State).concluded
        k last .errTransport 0#7 (pre ++ [e])) ∨
    (∃ pre e post t' before rest, (e = .bind ∨ ∃ b, e = .write b) ∧ emitted (loads i s).2 = pre ++ e :: post ∧
      (loads i s).2 = before ++ stepOf e :: rest ∧ t = (loads i s).1.heldAt pre e rest t') := by
  rw [exec_of_passes h hp] at hex
  cases hex
  obtain ⟨w, l', hb⟩ := h.busy
  obtain ⟨st, a, hans, -⟩ := loads_answer i s
  rcases runSteps_cases (k := k) (last := last) (w := w) (by simp [hb]) (loads_arrived i h) hans with
    ⟨t', e⟩ | ⟨pre, e, post, t', he, hl, e'⟩ | ⟨pre, e, post, t', b, r, he, hl, hbr, e'⟩
  · exact .inl ⟨t', st, a, hans, by rw [e]; simp [State.ranThrough, State.concluded]⟩
  · exact .inr (.inl ⟨pre, e, post, t', he, hl, by rw [e']; simp [State.ranThrough, State.concluded]⟩)
  · exact .inr (.inr ⟨pre, e, post, t', b, r, he, hl, hbr, by rw [e']; simp [State.heldAt, State.ranThrough]⟩)

end Sys2Proof.Machine
end

