-- ==== Sys2Proof/Laws/Encoding.lean ====
section
/-! SUPPORT. The fields of the words the encoder makes, and the pins of the bytes `pack` makes. -/

namespace Sys2Proof

/-- A word of format P, as a number: its three fields side by side. -/
theorem toNat_encodeP (op line col : Nat) (ho : op < 16) (hl : line ≤ 255) (hc : col ≤ 255) :
    (encodeP (BitVec.ofNat 24 op) line col).toNat = op * 2 ^ 20 + line * 2 ^ 8 + col := by
  have h1 : (encodeP (BitVec.ofNat 24 op) line col).toNat = (op * 2 ^ 20 ||| line * 2 ^ 8 ||| col) := by
    simp only [encodeP, BitVec.toNat_or, BitVec.toNat_shiftLeft, BitVec.toNat_ofNat, Nat.shiftLeft_eq]
    rw [Nat.mod_eq_of_lt (show op < 2 ^ 24 by omega), Nat.mod_eq_of_lt (show line < 2 ^ 24 by omega),
      Nat.mod_eq_of_lt (show col < 2 ^ 24 by omega), Nat.mod_eq_of_lt (show op * 2 ^ 20 < 2 ^ 24 by omega),
      Nat.mod_eq_of_lt (show line * 2 ^ 8 < 2 ^ 24 by omega)]
  have h2 : op * 2 ^ 20 ||| line * 2 ^ 8 = (op * 2 ^ 12 + line) * 2 ^ 8 := by
    have := Nat.shiftLeft_add_eq_or_of_lt (i := 20) (b := line * 2 ^ 8) (by omega) op
    rw [Nat.shiftLeft_eq] at this
    omega
  have h3 := Nat.shiftLeft_add_eq_or_of_lt (i := 8) (b := col) (by omega) (op * 2 ^ 12 + line)
  rw [Nat.shiftLeft_eq] at h3
  rw [h1, h2, ← h3]
  omega

/-- A word of format S, as a number. -/
theorem toNat_encodeSend (d : Bool) (v : Byte) : (encode (.send d v)).toNat = 0xA00000 + d.toNat * 2 ^ 8 + v.toNat := by
  have hv := v.isLt
  have h1 : (encode (.send d v)).toNat = (0xA00000 ||| d.toNat * 2 ^ 8 ||| v.toNat) := by
    simp only [encode, BitVec.toNat_or, BitVec.toNat_shiftLeft, BitVec.toNat_setWidth, BitVec.toNat_ofBool, Nat.shiftLeft_eq]
    rw [Nat.mod_eq_of_lt (show v.toNat < 2 ^ 24 by omega)]
    cases d <;> rfl
  have h2 : 0xA00000 ||| d.toNat * 2 ^ 8 = (0xA000 + d.toNat) * 2 ^ 8 := by cases d <;> rfl
  have h3 := Nat.shiftLeft_add_eq_or_of_lt (i := 8) (b := v.toNat) (by omega) (0xA000 + d.toNat)
  rw [Nat.shiftLeft_eq] at h3
  rw [h1, h2, ← h3]
  cases d <;> simp

/-- The bits of a word, `n` of them from bit `i` up, as a number. -/
theorem toNat_field (w : CommandWord) (i n : Nat) : (w.extractLsb' i n).toNat = w.toNat / 2 ^ i % 2 ^ n := by
  simp [BitVec.extractLsb'_toNat, Nat.shiftRight_eq_div_pow]

/-- A field is zero exactly when it is zero as a number. -/
theorem field_eq_zero (w : CommandWord) (i n : Nat) : w.extractLsb' i n = 0 ↔ w.toNat / 2 ^ i % 2 ^ n = 0 := by
  rw [← toNat_field, ← BitVec.toNat_inj]
  simp

end Sys2Proof

namespace Sys2Proof.Machine

/-- One signal drives its own position and no other. -/
theorem getLsbD_pinBit : ∀ (j p : Fin 8) (v : Bool), (pinBit p v).getLsbD j.val = (v && decide (j = p)) := by decide

/-- Every level of a packed byte: the signals that stand at the position. -/
theorem pinLevel_pack (j : Fin 8) (p : PinMap) (n : Nibble) (rs bl e : Bool) :
    pinLevel j (pack p n rs bl e) =
      ((n.getLsbD 0 && decide (j = p.d4)) || (n.getLsbD 1 && decide (j = p.d5)) || (n.getLsbD 2 && decide (j = p.d6)) ||
        (n.getLsbD 3 && decide (j = p.d7)) || (rs && decide (j = p.rs)) || (bl && decide (j = p.bl)) ||
        (e && decide (j = p.e))) := by
  simp only [pinLevel, pack, BitVec.getLsbD_or, getLsbD_pinBit]

/-- The BL position of a packed byte is the backlight flag. -/
theorem pinLevel_bl_pack {p : PinMap} (h : (pinPositions p).Nodup) (n : Nibble) (rs bl e : Bool) :
    pinLevel p.bl (pack p n rs bl e) = bl := by
  obtain ⟨a, b, c, d, f, g, i⟩ := p
  simp only [pinPositions, List.nodup_cons, List.mem_cons, List.not_mem_nil, or_false, not_or, List.nodup_nil] at h
  obtain ⟨⟨-, h₁, -⟩, ⟨h₂, -⟩, ⟨h₃, h₄, h₅, h₆⟩, -⟩ := h
  simp [pinLevel_pack, h₃, h₄, h₅, h₆, Ne.symm h₁, Ne.symm h₂]

/-- A nibble is its four bits. -/
theorem nibble_eq_bits : ∀ n : Nibble,
    (if n.getLsbD 0 then 1#4 else 0#4) ||| (if n.getLsbD 1 then 2#4 else 0#4) ||| (if n.getLsbD 2 then 4#4 else 0#4) |||
      (if n.getLsbD 3 then 8#4 else 0#4) = n := by decide

/-- A byte is its two nibbles. -/
theorem highNibble_append_lowNibble : ∀ v : Byte, highNibble v ++ lowNibble v = v := by decide

end Sys2Proof.Machine
end

