-- ==== Sys2Proof/Laws/Consistent.lean ====
section
/-! SUPPORT. How the operations of the block treat `State.Consistent`: accepting a word, loading micro-steps, presenting a request,
going on, and responding. -/

namespace Sys2Proof.Machine

variable {s u : State} {k : Nat} {w : CommandWord} {last : Bool} {m : MicroStep} {l rest : List MicroStep}

/-! ### The parts of consistency -/

/-- The part of consistency that says nothing of the sequencer. -/
structure State.Grounded (s : State) : Prop where
  legal : s.legal = true
  owner : ∀ k, s.owner = some k → k < s.ports.length
  abort : s.abort = true → s.owner.isSome = true

theorem State.Consistent.grounded (h : s.Consistent) : s.Grounded := ⟨h.legal, h.owner, h.abort⟩

theorem State.Grounded.congr (h : s.Grounded) (h₁ : u.params = s.params) (h₂ : u.ports.length = s.ports.length)
    (h₃ : u.owner = s.owner) (h₄ : u.abort = s.abort) : u.Grounded :=
  ⟨by rw [legal_congr h₁ h₂]; exact h.legal, by rw [h₂, h₃]; exact h.owner, by rw [h₃, h₄]; exact h.abort⟩

theorem consistent_of_busy (hg : s.Grounded) (hs : s.seq = .busy k w last l) (h₁ : s.PortsMatch l)
    (h₂ : s.CommandMatches k last l) : s.Consistent := by
  refine ⟨hg.legal, hg.owner, hg.abort, fun h => ?_, fun k' w' last' l' h => ?_⟩
  · rw [hs] at h
    cases h
  · rw [hs] at h
    cases h
    exact ⟨h₁, h₂⟩

/-- Only a write's own micro-step has a write outstanding. -/
theorem State.PortsMatch.noWrite (h : s.PortsMatch (m :: rest)) (hm : ∀ b, m ≠ .write b) : s.bwValid = false := by
  by_contra hv
  obtain ⟨_, h⟩ := h.write (by simpa using hv)
  exact hm _ (List.cons.inj h).1

/-- Only a bind's own micro-step has a bind outstanding. -/
theorem State.PortsMatch.noBind (h : s.PortsMatch (m :: rest)) (hm : m ≠ .bind) : s.bindReq = false := by
  by_contra hv
  obtain ⟨_, h⟩ := h.bind (by simpa using hv)
  exact hm (List.cons.inj h).1

/-- The counter runs only in a wait. -/
theorem State.PortsMatch.noDelay (h : s.PortsMatch (m :: rest)) (hm : ∀ ms, m ≠ .wait ms) : s.delay = 0 := by
  by_contra hv
  obtain ⟨_, _, h⟩ := h.delay hv
  exact hm _ (List.cons.inj h).1

/-- A command matches its micro-steps whatever the rest of the state is. -/
theorem State.CommandMatches.congr (h : s.CommandMatches k last l) (h₁ : u.ports.length = s.ports.length)
    (h₂ : u.owner = s.owner) (h₃ : u.initialized = s.initialized) (h₄ : u.params = s.params)
    (h₅ : u.backlight = s.backlight) : u.CommandMatches k last l :=
  ⟨by rw [h₁]; exact h.port, by rw [h₂]; exact h.open_, by rw [h₂]; exact h.owner, by rw [h₃]; exact h.enabled,
    by rw [h₄, h₅]; exact h.carry, h.response⟩

/-- A command goes on matching when a micro-step that neither binds nor responds is done. -/
theorem State.CommandMatches.tail (h : s.CommandMatches k last (m :: rest)) (hr : ∀ st a, m ≠ .respond st a)
    (hb : m ≠ .bind) : s.CommandMatches k last rest := by
  refine ⟨h.port, h.open_, h.owner, ?_, ?_, ?_⟩
  · have := h.enabled
    cases m <;> simp [writesEnabled] at this hb ⊢ <;> first | exact this | exact this.2
  · have := h.carry
    cases m <;> simp_all [writesCarry]
  · have := h.response
    cases m <;> cases rest <;> simp_all [oneResponse]

/-- The bind done, the writes after it have an enabled hardware. -/
theorem State.CommandMatches.bound (h : s.CommandMatches k last (.bind :: rest)) : s.setInitialized.CommandMatches k last rest := by
  refine ⟨h.port, h.open_, h.owner, ?_, ?_, ?_⟩
  · simpa [writesEnabled] using h.enabled
  · simpa [writesCarry] using h.carry
  · have := h.response
    cases rest <;> simp_all [oneResponse]

/-! ### The operations -/

/-- Reaching micro-steps with nothing outstanding. -/
theorem consistent_goTo (hg : s.Grounded) (hs : s.seq = .busy k w last l) (hw : s.bwValid = false) (hb : s.bindReq = false)
    (hd : s.delay = 0) (hm : s.CommandMatches k last rest) (hms : ∀ ms, .wait ms ∈ rest → ms ≤ 200) :
    (s.goTo rest).Consistent := by
  refine consistent_of_busy (k := k) (w := w) (last := last) (l := rest) (hg.congr rfl rfl rfl rfl) (by simp [hs])
    ⟨by simp [hw], by simp [hb], (arrived_goTo hw hb hd).delay, ?_, hms⟩ (hm.congr rfl rfl rfl rfl rfl)
  simp only [goTo_delay, hd, goTo_params]
  rcases rest with _ | ⟨_ | _ | ms | _ | _, r⟩ <;> simp [delayOnArrival]
  have h := Nat.mul_le_mul_right s.params.clkHz (hms ms (by simp))
  exact Nat.div_le_div_right (by omega)

/-- Responding with nothing outstanding. -/
theorem consistent_respond (hg : s.Grounded) (hw : s.bwValid = false) (hb : s.bindReq = false) (hd : s.delay = 0)
    (ho : last = false → s.owner = some k) (st : Status) (a : DdramAddr) : (s.respond k last st a).Consistent := by
  refine ⟨by simpa using hg.legal, ?_, ?_, fun _ => ⟨?_, ?_, ?_, ?_, ?_⟩, by simp⟩
  · intro j
    simp only [respond_owner, ownerAfterResponse, Option.ite_none_left_eq_some, respond_ports, postResponse_length]
    exact fun h => hg.owner _ h.2
  · simp only [respond_abort, respond_owner, abortAfterResponse, ownerAfterResponse]
    cases last <;> simp_all
  · simp [hw]
  · simp [hb]
  · simp [hd]
  · simp [hd]
  · simp

theorem consistent_presentWrite (h : s.Consistent) {b : Byte} (hs : s.seq = .busy k w last (.write b :: rest)) :
    (s.presentWrite b).Consistent := by
  obtain ⟨h₁, h₂⟩ := h.busy _ _ _ _ hs
  refine consistent_of_busy (k := k) (w := w) (last := last) (l := .write b :: rest) (h.grounded.congr rfl rfl rfl rfl)
    (by simpa using hs) ⟨fun _ => ⟨rest, ?_⟩, h₁.bind, h₁.delay, h₁.delayBound, h₁.waitBound⟩ (h₂.congr rfl rfl rfl rfl rfl)
  simp only [presentWrite_bwData]
  split
  · rename_i hv
    obtain ⟨_, h⟩ := h₁.write hv
    rw [(MicroStep.write.inj (List.cons.inj h).1)]
  · rfl

theorem consistent_presentBind (h : s.Consistent) (hs : s.seq = .busy k w last (.bind :: rest)) : s.presentBind.Consistent := by
  obtain ⟨h₁, h₂⟩ := h.busy _ _ _ _ hs
  exact consistent_of_busy (k := k) (w := w) (last := last) (l := .bind :: rest) (h.grounded.congr rfl rfl rfl rfl)
    (by simpa using hs) ⟨h₁.write, fun _ => ⟨_, rfl⟩, h₁.delay, h₁.delayBound, h₁.waitBound⟩ (h₂.congr rfl rfl rfl rfl rfl)

theorem consistent_dropResponses (h : s.Consistent) : s.dropResponses.Consistent := by
  refine ⟨by simpa using h.legal, by simpa using h.owner, h.abort, fun hi => ?_, fun k w last l hs => ?_⟩
  · have := h.idle hi
    exact ⟨this.write, this.bind, this.delay, this.delayBound, this.waitBound⟩
  · obtain ⟨h₁, h₂⟩ := h.busy _ _ _ _ hs
    exact ⟨⟨h₁.write, h₁.bind, h₁.delay, h₁.delayBound, h₁.waitBound⟩, h₂.congr (by simp) rfl rfl rfl rfl⟩

theorem consistent_accept (h : s.Consistent) (hi : s.seq = .idle) {r : Request} (ha : s.arbitrate = some k)
    (hp : s.presented k = some r) : (s.accept k r).Consistent := by
  have hk := presented_lt hp
  have hm := h.idle hi
  have ho := arbitrate_owner ha
  refine consistent_of_busy (k := k) (w := r.word) (last := r.last) (l := []) ⟨by simpa using h.legal, ?_, ?_⟩ rfl
    ⟨hm.write, hm.bind, hm.delay, hm.delayBound, hm.waitBound⟩ ⟨by simpa using hk, ?_, ?_, rfl, rfl, rfl⟩
  · intro j hj
    rcases ho with ho | ho <;> simp [ownerAfterAccept, ho] at hj <;> simp <;> omega
  · intro hab
    obtain ⟨j, hj⟩ := Option.isSome_iff_exists.mp (h.abort hab)
    simp [ownerAfterAccept, hj]
  · intro hl
    rcases ho with ho | ho <;> simp [ownerAfterAccept, ho, hl]
  · intro j hj
    rcases ho with ho | ho <;> simp [ownerAfterAccept, ho] at hj <;> omega

theorem consistent_acceptIfIdle (h : s.Consistent) : s.acceptIfIdle.Consistent := by
  rcases acceptIfIdle_cases s with e | ⟨k, r, hi, ha, hp, e⟩
  · rw [e]
    exact h
  · rw [e]
    exact consistent_accept h hi ha hp

/-! ### The micro-steps a command loads -/

theorem writesEnabled_plain (h : plainSteps l = true) (r : List MicroStep) :
    writesEnabled true (l ++ r) = writesEnabled true r := by
  induction l with
  | nil => rfl
  | cons m l ih => cases m <;> simp_all [plainSteps, writesEnabled]

theorem oneResponse_plain (h : plainSteps l = true) {r : List MicroStep} (hr : r ≠ []) (h' : oneResponse r = true) :
    oneResponse (l ++ r) = true := by
  induction l with
  | nil => exact h'
  | cons m l ih =>
    cases m <;> simp_all [plainSteps]
    all_goals
      cases hl : l ++ r with
      | nil => simp at hl; exact absurd hl.2 hr
      | cons x xs => rw [hl] at ih; simpa [oneResponse] using ih

/-- `writesCarry`, one micro-step at a time. -/
def carriesBacklight (p : PinMap) (bl : Bool) : MicroStep → Bool
  | .write b => pinLevel p.bl b == bl
  | .bind | .wait _ | .gap _ | .respond _ _ => true

theorem writesCarry_eq_all (p : PinMap) (bl : Bool) (l : List MicroStep) : writesCarry p bl l = l.all (carriesBacklight p bl) := by
  induction l with
  | nil => rfl
  | cons m l ih => cases m <;> simp [writesCarry, carriesBacklight, ih]

theorem carries_gapSteps (p : PinMap) (bl : Bool) (n : Nat) : (gapSteps n).all (carriesBacklight p bl) = true := by
  unfold gapSteps
  split <;> simp [carriesBacklight]

theorem carries_nibble (h : (pinPositions s.params.pinMap).Nodup) (n : Nibble) (rs : Bool) :
    (nibble n rs s).all (carriesBacklight s.params.pinMap s.backlight) = true := by
  simp only [nibble, List.all_append, carries_gapSteps]
  simp [carriesBacklight, pinLevel_bl_pack h]

theorem carries_sendByte (h : (pinPositions s.params.pinMap).Nodup) (v : Byte) (rs : Bool) :
    (sendByte v rs s).all (carriesBacklight s.params.pinMap s.backlight) = true := by
  simp [sendByte, List.all_append, carries_gapSteps, carries_nibble h, -List.all_eq_true]

theorem wait_not_mem_nibble (n : Nibble) (rs : Bool) (ms : Nat) : .wait ms ∉ nibble n rs s := by
  have g : .wait ms ∉ gapSteps s.params.pulseGapCycles := by unfold gapSteps; split <;> simp
  simp [nibble, g]

theorem wait_not_mem_sendByte (v : Byte) (rs : Bool) (ms : Nat) : .wait ms ∉ sendByte v rs s := by
  have g : .wait ms ∉ gapSteps s.params.cmdWaitCycles := by unfold gapSteps; split <;> simp
  simp [sendByte, g, wait_not_mem_nibble]

/-- Micro-steps that a consistent block may reach. -/
structure State.Loadable (s : State) (l : List MicroStep) : Prop where
  enabled : writesEnabled s.initialized l = true
  carry : writesCarry s.params.pinMap s.backlight l = true
  response : oneResponse l = true
  waitBound : ∀ ms, .wait ms ∈ l → ms ≤ 200

theorem loadable_respond (st : Status) (a : DdramAddr) : s.Loadable [.respond st a] := ⟨rfl, rfl, rfl, by simp⟩

theorem loadable_byte (h : (pinPositions s.params.pinMap).Nodup) (hi : s.initialized = true) (v : Byte) (rs : Bool) (st : Status)
    (a : DdramAddr) : s.Loadable (sendByte v rs s ++ [.respond st a]) :=
  ⟨by rw [hi, writesEnabled_plain (by simp)]; rfl, by rw [writesCarry_eq_all, List.all_append, carries_sendByte h]; rfl,
    oneResponse_plain (by simp) (by simp) rfl, by simp [wait_not_mem_sendByte]⟩

theorem loadable_backlight (h : (pinPositions s.params.pinMap).Nodup) (hi : s.initialized = true) (v : Bool) :
    (s.setBacklight v).Loadable [.write (blByte s.params.pinMap v), .respond .ok 0#7] :=
  ⟨by simp [writesEnabled, hi], by simp [writesCarry, blByte, pinLevel_bl_pack h], rfl, by simp⟩

theorem loadable_enable (h : (pinPositions s.params.pinMap).Nodup) :
    s.Loadable ([.bind] ++ initSteps s ++ [.respond .ok 0#7]) := by
  refine ⟨?_, ?_, ?_, ?_⟩
  · simp only [initSteps, List.append_assoc, List.cons_append, List.nil_append, writesEnabled]
    repeat (first | rw [writesEnabled_plain (by simp)] | rw [writesEnabled])
  · simp only [initSteps, writesCarry_eq_all, List.all_append, carries_nibble h, carries_sendByte h]
    rfl
  · have bind : ∀ l, l ≠ [] → oneResponse l = true → oneResponse (.bind :: l) = true := by
      intro l h₁ h₂
      cases l <;> simp_all [oneResponse]
    simp only [initSteps, List.append_assoc, List.cons_append, List.nil_append]
    apply bind _ (by simp [nibble])
    repeat (first | rfl | apply oneResponse_plain (by simp) (by simp))
  · intro ms h
    simp [initSteps, wait_not_mem_nibble, wait_not_mem_sendByte] at h
    omega

/-- What a command that passes its checks loads. -/
theorem loadable_loads {i : Instr} (hl : s.legal = true) (hp : passes i s) : (loads i s).1.Loadable (loads i s).2 := by
  have hn : (pinPositions s.params.pinMap).Nodup := by
    have := legalParams_of_legal hl
    simp only [legalParams, Bool.and_eq_true, decide_eq_true_eq] at this
    exact this.1.2
  obtain ⟨-, -, hi⟩ := hp
  cases i with
  | enable => exact loadable_enable hn
  | powerOn => exact loadable_respond ..
  | powerOff => exact loadable_respond ..
  | clear => exact loadable_byte hn (hi rfl) ..
  | home => exact loadable_byte hn (hi rfl) ..
  | send d v => exact loadable_byte hn (hi rfl) ..
  | setpos line col =>
    simp only [loads]
    split
    · exact loadable_byte hn (hi rfl) ..
    · exact loadable_respond ..
  | resolve line col => simp only [loads]; split <;> exact loadable_respond ..
  | blOn =>
    simp only [loads]
    split
    · exact loadable_backlight hn (hi ‹_›) true
    · exact loadable_respond ..
  | blOff =>
    simp only [loads]
    split
    · exact loadable_backlight hn (hi ‹_›) false
    · exact loadable_respond ..

/-- The start of every command is the loading of some micro-steps into a state that differs in the command's own flag only. -/
theorem start_loads (hl : s.legal = true) (i : Instr) :
    ∃ (u : State) (l : List MicroStep), start i s = u.goTo l ∧ u.Loadable l ∧ l ≠ [] ∧ u.seq = s.seq ∧ u.bwValid = s.bwValid ∧
      u.bindReq = s.bindReq ∧ u.delay = s.delay ∧ u.params = s.params ∧ u.ports = s.ports ∧ u.owner = s.owner ∧
      u.abort = s.abort := by
  by_cases hp : passes i s
  · refine ⟨(loads i s).1, (loads i s).2, start_of_passes hp, loadable_loads hl hp, ?_, by simp, ?_, ?_, ?_, by simp, by simp,
      by simp, by simp⟩
    · intro h
      obtain ⟨_, _, h', _⟩ := loads_answer i s
      rw [h] at h'
      cases h'
    all_goals cases i <;> rfl
  · obtain ⟨st, _, h⟩ := start_of_not_passes hp
    exact ⟨s, _, h, loadable_respond .., by simp, rfl, rfl, rfl, rfl, rfl, rfl, rfl, rfl⟩

/-- An accepted word, checked and decoded. -/
theorem consistent_startWord (h : s.Consistent) (hs : s.seq = .busy k w last []) (w' : CommandWord) :
    (startWord w' s).Consistent ∧ ∃ l, l ≠ [] ∧ (startWord w' s).seq = .busy k w last l := by
  obtain ⟨h₁, h₂⟩ := h.busy _ _ _ _ hs
  have hw : s.bwValid = false := by
    by_contra hv
    obtain ⟨_, hv⟩ := h₁.write (by simpa using hv)
    cases hv
  have hb : s.bindReq = false := by
    by_contra hv
    obtain ⟨_, hv⟩ := h₁.bind (by simpa using hv)
    cases hv
  have hd : s.delay = 0 := by
    by_contra hv
    obtain ⟨_, _, hv⟩ := h₁.delay hv
    cases hv
  have ans : ∀ st a, (s.goTo [.respond st a]).Consistent := fun st a =>
    consistent_goTo h.grounded hs hw hb hd ⟨h₂.port, h₂.open_, h₂.owner, rfl, rfl, rfl⟩ (by simp)
  unfold startWord
  split
  · exact ⟨ans _ _, [.respond .skipped 0#7], by simp, by simp [answerWith_eq, hs]⟩
  · split
    · rename_i i _
      obtain ⟨u, l, e, hl, hne, e₁, e₂, e₃, e₄, e₅, e₆, e₇, e₈⟩ := start_loads h.legal i
      rw [e]
      refine ⟨consistent_goTo (h.grounded.congr e₅ (by rw [e₆]) e₇ e₈) (by rw [e₁, hs]) (by rw [e₂, hw]) (by rw [e₃, hb])
        (by rw [e₄, hd]) ?_ hl.waitBound, l, hne, by simp [e₁, hs]⟩
      exact ⟨by rw [e₆]; exact h₂.port, by rw [e₇]; exact h₂.open_, by rw [e₇]; exact h₂.owner, hl.enabled, hl.carry, hl.response⟩
    · exact ⟨ans _ _, [.respond .errIllegal 0#7], by simp, by simp [raise_eq, hs]⟩

end Sys2Proof.Machine
end

