-- ==== Sys2Proof/Laws/Clock.lean ====
section
/-! SUPPORT. How the cycle level and the command level meet: what `start`, a due response and `completeCommand` say of one another, and
what an edge leaves on the ports. -/

namespace Sys2Proof.Machine

variable {s : State} {k : Nat} {w : CommandWord} {last : Bool} {m : MicroStep} {rest : List MicroStep}

/-! ### The transport is read by a run only -/

theorem start_setTransport (i : Instr) (s : State) (t : Transport) :
    start i (s.setTransport t) = (start i s).setTransport t := by
  have valid : ∀ (f : DdramAddr → State → State), (∀ a s, f a (s.setTransport t) = (f a s).setTransport t) →
      ∀ line col s, State.ifValid line col f (s.setTransport t) = (State.ifValid line col f s).setTransport t := by
    intro f hf line col s
    unfold State.ifValid
    simp only [setTransport_params]
    cases Sys2Proof.Machine.resolve s.params line col
    · rfl
    · exact hf _ _
  have enabled : ∀ (f : State → State), (∀ s, f (s.setTransport t) = (f s).setTransport t) →
      ∀ s, State.ifInitialized f (s.setTransport t) = (State.ifInitialized f s).setTransport t := by
    intro f hf s
    unfold State.ifInitialized
    rw [setTransport_initialized]
    by_cases h : s.initialized = true
    · rw [if_pos h, if_pos h, hf]
    · rw [if_neg h, if_neg h]
      rfl
  obtain ⟨init, power, bl, owner, abort, q, d, v, b, n, ps, tr, ⟨rows, cols, pm, hz, blw, pg, cw⟩, es, c⟩ := s
  cases i with
  | setpos line col =>
    cases abort <;> cases power <;> try rfl
    exact valid (fun a => State.ifInitialized (State.sendAndRespond (setAddrCmd a) false a))
      (fun a s => enabled (State.sendAndRespond (setAddrCmd a) false a) (fun _ => rfl) s) line col _
  | resolve line col =>
    cases abort <;> try rfl
    exact valid (fun a => State.answerWith .ok a) (fun _ _ => rfl) line col _
  | _ => cases abort <;> cases power <;> cases init <;> cases blw <;> rfl

theorem startWord_setTransport (w : CommandWord) (s : State) (t : Transport) :
    startWord w (s.setTransport t) = (startWord w s).setTransport t := by
  unfold startWord
  rw [setTransport_abort]
  by_cases h : s.abort = true
  · rw [if_pos h, if_pos h]
    rfl
  · rw [if_neg h, if_neg h]
    cases decode w
    · rfl
    · exact start_setTransport ..

theorem respondIfDue_setTransport (s : State) (t : Transport) :
    s.respondIfDue.setTransport t = (s.setTransport t).respondIfDue := by
  unfold State.respondIfDue
  simp only [setTransport_seq]
  split <;> rfl

/-! ### A due response -/

/-- A block that is still busy had no response due. -/
theorem respondIfDue_of_busy (h : s.respondIfDue.seq ≠ .idle) : s.respondIfDue = s := by
  unfold State.respondIfDue at h ⊢
  split
  · rename_i hs
    simp [hs] at h
  · rfl

theorem respondIfDue_cases (s : State) :
    s.respondIfDue = s ∨
    ∃ k w last st a rest, s.seq = .busy k w last (.respond st a :: rest) ∧ s.respondIfDue = s.respond k last st a := by
  unfold State.respondIfDue
  split
  · rename_i hs
    exact .inr ⟨_, _, _, _, _, _, hs, rfl⟩
  · exact .inl rfl

/-- The response is part of a write's, a wait's or a decoding's own edge, and changes no bus signal and no write. -/
@[simp] theorem respondIfDue_bwValid (s : State) : s.respondIfDue.bwValid = s.bwValid := by
  rcases respondIfDue_cases s with e | ⟨_, _, _, _, _, _, _, e⟩ <;> rw [e]
  rfl

@[simp] theorem respondIfDue_busWrites (s : State) : busWrites s.respondIfDue.trace = busWrites s.trace := by
  rcases respondIfDue_cases s with e | ⟨_, _, _, _, _, _, _, e⟩ <;> rw [e]
  simp [busWrites]

@[simp] theorem respondIfDue_pending (s : State) : s.respondIfDue.ports.map Port.pending = s.ports.map Port.pending := by
  rcases respondIfDue_cases s with e | ⟨_, _, _, _, _, _, _, e⟩ <;> rw [e]
  simp

/-! ### Running a command to its end -/

theorem completeCommand_busy (hs : s.seq = .busy k w last (m :: rest)) :
    completeCommand s = .next (runSteps k last (m :: rest) s) := by
  simp [completeCommand, hs, State.finish]

theorem completeCommand_idle (hs : s.seq = .idle) : completeCommand s = .next s := by
  simp [completeCommand, hs]

/-- Giving a due response at once changes nothing of a command's end. -/
theorem completeCommand_respondIfDue (s : State) : completeCommand s.respondIfDue = completeCommand s := by
  rcases respondIfDue_cases s with e | ⟨k', w', last', st, a, rest, hs', e⟩
  · rw [e]
  · rw [e, completeCommand_idle rfl, completeCommand_busy hs', runSteps]

/-! ### Responses standing -/

/-- No port has a response standing. -/
theorem dropResponses_eq_self : s.dropResponses = s ↔ ∀ p ∈ s.ports, p.rsp = none := by
  constructor
  · intro h p hp
    rw [← h] at hp
    simp only [dropResponses_ports, List.mem_map] at hp
    obtain ⟨q, -, rfl⟩ := hp
    rfl
  · intro h
    have : s.ports.map (fun p => { p with rsp := none }) = s.ports := by
      conv_rhs => rw [← List.map_id s.ports]
      apply List.map_congr_left
      intro p hp
      have := h p hp
      cases p
      simp_all
    cases s
    simp only [State.dropResponses, State.mk.injEq, true_and] at this ⊢
    simpa using this

@[simp] theorem dropResponses_dropResponses (s : State) : s.dropResponses.dropResponses = s.dropResponses := by
  rw [dropResponses_eq_self]
  simp

end Sys2Proof.Machine
end

