-- ==== Sys2Proof/Laws/Observe.lean ====
section
/-! SUPPORT. Reading a trace (Machine/Observe.lean): the spans of whole runs of writes, of what follows a write that is not known to
be applied, and of a trace that goes on. -/

namespace Sys2Proof.Machine

theorem answeredOk_append {es : List Event} (h : es ≠ []) (fs : List Event) : answeredOk (es ++ fs) = answeredOk es := by
  cases es with
  | nil => exact absurd rfl h
  | cons e es => cases e <;> rfl

/-- Events of commands that succeed, with something after them that shows the last of their writes answered: all their writes join
the known ones. -/
theorem spansFrom_answered {es fs : List Event} (h : ∀ e ∈ es, answeredOk [e] = true ∧ e ≠ .bind) (hf : answeredOk fs = true)
    (ws : List Byte) (n : Nat) (kws : List Byte) :
    spansFrom ws n (some kws) (es ++ fs) =
      spansFrom (ws ++ busWrites es) (n + es.length) (some (kws ++ busWrites es)) fs := by
  induction es generalizing ws n kws with
  | nil => simp [busWrites]
  | cons e es ih =>
    obtain ⟨⟨he, hb⟩, hes⟩ := List.forall_mem_cons.mp h
    have hn : answeredOk (es ++ fs) = true := by
      cases es with
      | nil => exact hf
      | cons x es => exact (by cases x <;> rfl : answeredOk (x :: es ++ fs) = answeredOk [x]).trans (hes x (.head _)).1
    cases e <;> simp_all [spansFrom, busWrites, answeredOk, Nat.add_assoc, Nat.add_comm 1]

/-- Up to the next bind everything is one uncertain span. -/
theorem spansFrom_uncertain {es : List Event} (h : .bind ∉ es) (ws : List Byte) (n : Nat) :
    spansFrom ws n none es = [.uncertain (ws ++ busWrites es) (n + es.length)] := by
  induction es generalizing ws n with
  | nil => simp [spansFrom, busWrites]
  | cons e es ih =>
    simp only [List.mem_cons, not_or] at h
    cases e <;> simp_all [spansFrom, busWrites, Nat.add_assoc, Nat.add_comm 1]

/-- A bind that is answered with `ok` ends the uncertain span. -/
theorem spansFrom_uncertain_bind {es fs : List Event} (h : .bind ∉ es) (hf : answeredOk fs = true) (ws : List Byte) (n : Nat) :
    spansFrom ws n none (es ++ .bind :: fs) =
      .uncertain (ws ++ busWrites es) (n + es.length) :: spansFrom (ws ++ busWrites es) (n + es.length + 1) (some []) fs := by
  induction es generalizing ws n with
  | nil => simp [spansFrom, busWrites, hf]
  | cons e es ih =>
    simp only [List.mem_cons, not_or] at h
    cases e <;> simp_all [spansFrom, busWrites, Nat.add_assoc, Nat.add_comm 1]

/-- A span list is never empty. -/
theorem spansFrom_ne_nil (es : List Event) (ws : List Byte) (n : Nat) (known : Option (List Byte)) :
    spansFrom ws n known es ≠ [] := by
  induction es generalizing ws n known with
  | nil => cases known <;> simp [spansFrom]
  | cons e es ih =>
    cases e <;> cases known <;> simp only [spansFrom] <;> (try split) <;> first | exact ih _ _ _ | exact List.cons_ne_nil _ _

theorem answeredErr_append {es : List Event} (h : es ≠ []) (fs : List Event) : answeredErr (es ++ fs) = answeredErr es := by
  cases es with
  | nil => exact absurd rfl h
  | cons e es => cases e <;> rfl

theorem answeredErr_of_ok {es : List Event} (h : answeredOk es = true) : answeredErr es = false := by
  rcases es with _ | ⟨e, es⟩
  · rfl
  · cases e <;> simp_all [answeredOk, answeredErr]

/-- How the spans go on depends on what comes only through whether it shows the last request answered: for everything that shows it
answered with `ok`, they go on from the same spans and the same known writes. -/
theorem spansFrom_ok (xs : List Event) (ws : List Byte) (n : Nat) (known : Option (List Byte)) :
    ∃ pre known', ∀ ys, answeredOk ys = true →
      spansFrom ws n known (xs ++ ys) = pre ++ spansFrom (ws ++ busWrites xs) (n + xs.length) known' ys := by
  induction xs generalizing ws n known with
  | nil => exact ⟨[], known, fun ys _ => by simp [busWrites]⟩
  | cons e xs ih =>
    have tail : ∀ ys, answeredOk ys = true → answeredOk (xs ++ ys) = answeredOk (xs ++ [.wait 0]) ∧
        answeredErr (xs ++ ys) = answeredErr (xs ++ [.wait 0]) := fun ys hy => by
      cases xs with
      | nil => exact ⟨hy, answeredErr_of_ok hy⟩
      | cons x xs => cases x <;> exact ⟨rfl, rfl⟩
    have go : ∀ (ws' : List Byte) (k' : Option (List Byte)) (sp : List Span),
        ws' ++ busWrites xs = ws ++ busWrites (e :: xs) →
        (∀ ys, answeredOk ys = true → spansFrom ws n known (e :: xs ++ ys) = sp ++ spansFrom ws' (n + 1) k' (xs ++ ys)) →
        ∃ pre known', ∀ ys, answeredOk ys = true → spansFrom ws n known (e :: xs ++ ys) =
          pre ++ spansFrom (ws ++ busWrites (e :: xs)) (n + (e :: xs).length) known' ys := fun ws' k' sp hw hs => by
      obtain ⟨pre, known', h⟩ := ih ws' (n + 1) k'
      refine ⟨sp ++ pre, known', fun ys hy => ?_⟩
      rw [hs ys hy, h ys hy, List.append_assoc, hw, List.length_cons, Nat.add_assoc, Nat.add_comm 1]
    cases e with
    | write b =>
      have hw : ws ++ [b] ++ busWrites xs = ws ++ busWrites (.write b :: xs) := by simp [busWrites]
      cases known with
      | none => exact go _ none [] hw fun ys _ => rfl
      | some k =>
        cases ha : answeredOk (xs ++ [.wait 0]) with
        | true => exact go _ (some (k ++ [b])) [] hw fun ys hy => by simp [spansFrom, (tail ys hy).1, ha]
        | false => exact go _ none [.known k] hw fun ys hy => by simp [spansFrom, (tail ys hy).1, ha]
    | bind =>
      cases known with
      | some k =>
        exact go ws (if answeredErr (xs ++ [.wait 0]) then none else some []) [.known k] rfl fun ys hy => by
          simp [spansFrom, (tail ys hy).2]
      | none =>
        cases ha : answeredOk (xs ++ [.wait 0]) with
        | true => exact go ws (some []) [.uncertain ws n] rfl fun ys hy => by simp [spansFrom, (tail ys hy).1, ha]
        | false => exact go ws none [] rfl fun ys hy => by simp [spansFrom, (tail ys hy).1, ha]
    | wait ms => exact go ws known [] rfl fun ys _ => rfl
    | response k st a => exact go ws known [] rfl fun ys _ => rfl
    | reset => exact go ws known [] rfl fun ys _ => rfl

/-- A trace that leaves the controller known once its last request is answered with `ok` goes on from the last known span. -/
theorem spansFrom_settled {xs : List Event} {ws : List Byte} {n j : Nat} {c : DdramAddr} {known : Option (List Byte)}
    {kws : List Byte} (h : (spansFrom ws n known (xs ++ [.response j .ok c])).getLast? = some (.known kws)) {ys : List Event}
    (hy : answeredOk ys = true) :
    ∃ pre, spansFrom ws n known (xs ++ [.response j .ok c]) = pre ++ [.known kws] ∧
      spansFrom ws n known (xs ++ ys) = pre ++ spansFrom (ws ++ busWrites xs) (n + xs.length) (some kws) ys := by
  obtain ⟨pre, known', hk⟩ := spansFrom_ok xs ws n known
  have hr := hk [.response j .ok c] rfl
  cases known' with
  | none =>
    rw [hr] at h
    simp [spansFrom] at h
  | some k =>
    rw [hr] at h
    obtain rfl : k = kws := by simpa [spansFrom] using h
    exact ⟨pre, by simpa [spansFrom] using hr, hk ys hy⟩

/-- A trace after which the controller is known goes on from the last known span, unless what comes fails its last request. -/
theorem spansFrom_append {xs : List Event} {ws : List Byte} {n : Nat} {known : Option (List Byte)} {kws : List Byte}
    (h : (spansFrom ws n known xs).getLast? = some (.known kws)) {ys : List Event} (hy : answeredErr ys = false) :
    spansFrom ws n known (xs ++ ys) =
      (spansFrom ws n known xs).dropLast ++ spansFrom (ws ++ busWrites xs) (n + xs.length) (some kws) ys := by
  have step : ∀ {sp : Span} {l : List Span}, l ≠ [] → (sp :: l).getLast? = some (.known kws) →
      l.getLast? = some (.known kws) ∧ ∀ l', (sp :: l).dropLast ++ l' = sp :: (l.dropLast ++ l') := by
    intro sp l hl h'
    cases l with
    | nil => exact absurd rfl hl
    | cons x l => exact ⟨by simpa using h', fun _ => by simp⟩
  induction xs generalizing ws n known with
  | nil => cases known <;> simp_all [spansFrom, busWrites]
  | cons e xs ih =>
    have next : ∀ {ws : List Byte} {k : Option (List Byte)}, (spansFrom ws (n + 1) k xs).getLast? = some (.known kws) →
        spansFrom ws (n + 1) k (xs ++ ys) = (spansFrom ws (n + 1) k xs).dropLast ++
          spansFrom (ws ++ busWrites xs) (n + (xs.length + 1)) (some kws) ys := by
      intro ws k hk
      rw [ih hk, Nat.add_assoc, Nat.add_comm 1]
    cases e with
    | write b =>
      have hw : ws ++ busWrites (.write b :: xs) = ws ++ [b] ++ busWrites xs := by simp [busWrites]
      simp only [List.cons_append, List.length_cons, hw]
      cases known with
      | none => exact next h
      | some k =>
        cases xs with
        | nil => simp [spansFrom, answeredOk] at h
        | cons x xs =>
          simp only [spansFrom] at h ⊢
          rw [answeredOk_append (List.cons_ne_nil x xs)]
          cases ha : answeredOk (x :: xs) with
          | true => simp only [ha, if_true] at h ⊢; exact next h
          | false =>
            simp only [ha, Bool.false_eq_true, if_false] at h ⊢
            obtain ⟨h₁, h₂⟩ := step (spansFrom_ne_nil _ _ _ _) h
            rw [h₂, next h₁]
    | bind =>
      have hw : ws ++ busWrites (.bind :: xs) = ws ++ busWrites xs := rfl
      simp only [List.cons_append, List.length_cons, hw]
      cases known with
      | some k =>
        obtain ⟨h₁, h₂⟩ := step (spansFrom_ne_nil _ _ _ _) h
        have he : answeredErr (xs ++ ys) = answeredErr xs := by
          cases xs with
          | nil => exact hy
          | cons x xs => exact answeredErr_append (List.cons_ne_nil x xs) ys
        simp only [spansFrom]
        rw [h₂, he, next h₁]
      | none =>
        cases xs with
        | nil => simp [spansFrom, answeredOk] at h
        | cons x xs =>
          simp only [spansFrom] at h ⊢
          rw [answeredOk_append (List.cons_ne_nil x xs)]
          cases ha : answeredOk (x :: xs) with
          | false => simp only [ha, Bool.false_eq_true, if_false] at h ⊢; exact next h
          | true =>
            simp only [ha, if_true] at h ⊢
            obtain ⟨h₁, h₂⟩ := step (spansFrom_ne_nil _ _ _ _) h
            rw [h₂, next h₁]
    | wait ms => exact next h
    | response k st a => exact next h
    | reset => exact next h

theorem answeredOk_of_notApplied {es : List Event} (h : NotApplied es) : answeredOk es = false := by
  rcases h with rfl | ⟨_, rfl⟩ | ⟨_, _, _, rfl⟩ <;> rfl

/-- Whatever leaves the controller open is itself a request, so it shows the request before it answered with `ok`. -/
theorem LeavesControllerOpen.answeredOk {e : Event} {es : List Event} (h : LeavesControllerOpen e es) (fs : List Event) :
    Machine.answeredOk (e :: fs) = true := by
  rcases h with ⟨_, rfl, _⟩ | ⟨rfl, _⟩ <;> rfl

/-- From a known controller, an event that leaves it open ends the known span, and the rest is uncertain up to the next bind. -/
theorem LeavesControllerOpen.spans {e : Event} {es : List Event} (h : LeavesControllerOpen e es) (hb : .bind ∉ es)
    (ws : List Byte) (n : Nat) (kws : List Byte) :
    spansFrom ws n (some kws) (e :: es) =
      [.known kws, .uncertain (ws ++ busWrites (e :: es)) (n + (e :: es).length)] := by
  rcases h with ⟨b, rfl, hn⟩ | ⟨rfl, k, a, r, rfl⟩
  · simp [spansFrom, answeredOk_of_notApplied hn, spansFrom_uncertain hb, busWrites]
    omega
  · simp only [List.mem_cons, not_or] at hb
    simp [spansFrom, answeredErr, spansFrom_uncertain hb.2, busWrites]
    omega

/-- The same with a bind after it that is answered with `ok`, where a known span begins again. -/
theorem LeavesControllerOpen.spans_bind {e : Event} {es fs : List Event} (h : LeavesControllerOpen e es) (hb : .bind ∉ es)
    (hne : es ≠ []) (hf : Machine.answeredOk fs = true) (ws : List Byte) (n : Nat) (kws : List Byte) :
    spansFrom ws n (some kws) (e :: (es ++ .bind :: fs)) =
      .known kws :: .uncertain (ws ++ busWrites (e :: es)) (n + (e :: es).length) ::
        spansFrom (ws ++ busWrites (e :: es)) (n + (e :: es).length + 1) (some []) fs := by
  rcases h with ⟨b, rfl, hn⟩ | ⟨rfl, k, a, r, rfl⟩
  · simp only [spansFrom, answeredOk_append hne, answeredOk_of_notApplied hn]
    simp [spansFrom_uncertain_bind hb hf, busWrites, Nat.add_assoc, Nat.add_comm 1]
  · simp only [List.mem_cons, not_or] at hb
    simp [spansFrom, answeredErr, spansFrom_uncertain_bind hb.2 hf, busWrites, Nat.add_assoc]
    rw [show n + (2 + (r.length + 1)) = n + (r.length + 3) by omega]
    exact ⟨by omega, rfl⟩

/-! ### What whole nibbles and bytes latch -/

/-- The levels of a packed byte that a latch reads. -/
theorem latch_levels {p : PinMap} (h : (pinPositions p).Nodup) (n : Nibble) (rs bl e : Bool) :
    pinLevel p.e (pack p n rs bl e) = e ∧ pinLevel p.rs (pack p n rs bl e) = rs ∧ dataNibble p (pack p n rs bl e) = n := by
  obtain ⟨a, b, c, d, f, g, i⟩ := p
  simp only [pinPositions, List.nodup_cons, List.mem_cons, List.not_mem_nil, or_false, not_or, List.nodup_nil] at h
  obtain ⟨⟨h1, h2, h3, h4, h5, h6⟩, ⟨h7, h8, h9, h10, h11⟩, ⟨h12, h13, h14, h15⟩, ⟨h16, h17, h18⟩, ⟨h19, h20⟩, h21, -⟩ := h
  refine ⟨?_, ?_, ?_⟩
  · simp [pinLevel_pack, h7, h8, h9, h10, h11, Ne.symm h1]
  · simp [pinLevel_pack, h1, h2, h3, h4, h5, h6]
  · simp [dataNibble, pinLevel_pack, h16, h17, h18, h19, h20, h21, Ne.symm h3, Ne.symm h4, Ne.symm h5, Ne.symm h6, Ne.symm h8,
      Ne.symm h9, Ne.symm h10, Ne.symm h11, Ne.symm h12, Ne.symm h13, Ne.symm h14, Ne.symm h15, Ne.symm h16, Ne.symm h17,
      Ne.symm h18, Ne.symm h19, Ne.symm h20, Ne.symm h21]
    exact nibble_eq_bits n

/-- The three writes of a nibble, while E is low, latch the nibble and leave E low. -/
theorem latchedAfter_nibble {p : PinMap} (h : (pinPositions p).Nodup) (n : Nibble) (rs bl : Bool) {prev : Byte}
    (hp : pinLevel p.e prev = false) (l : List Byte) :
    latchedAfter p prev (pack p n rs bl false :: pack p n rs bl true :: pack p n rs bl false :: l) =
      { rs := rs, nibble := n } :: latchedAfter p (pack p n rs bl false) l := by
  obtain ⟨e0, -, -⟩ := latch_levels h n rs bl false
  obtain ⟨e1, r1, d1⟩ := latch_levels h n rs bl true
  simp [latchedAfter, e0, e1, r1, d1, hp]

/-- The same at the beginning of a run. -/
theorem latchedBy_nibble {p : PinMap} (h : (pinPositions p).Nodup) (n : Nibble) (rs bl : Bool) (l : List Byte) :
    latchedBy p (pack p n rs bl false :: pack p n rs bl true :: pack p n rs bl false :: l) =
      { rs := rs, nibble := n } :: latchedAfter p (pack p n rs bl false) l := by
  obtain ⟨e0, -, -⟩ := latch_levels h n rs bl false
  simpa [latchedBy, latchedAfter, e0] using latchedAfter_nibble h n rs bl e0 l

/-- Whole bytes, each with its register, while E is low, latch their nibbles, high before low. -/
theorem latchedAfter_bytes {p : PinMap} (h : (pinPositions p).Nodup) (l : List (Bool × Byte)) (bl : Bool) {prev : Byte}
    (hp : pinLevel p.e prev = false) :
    latchedAfter p prev (l.flatMap (fun x => byteWrites p x.2 x.1 bl)) =
      l.flatMap (fun x => [{ rs := x.1, nibble := highNibble x.2 }, { rs := x.1, nibble := lowNibble x.2 }]) := by
  induction l generalizing prev with
  | nil => rfl
  | cons x l ih =>
    have e0 := fun n rs => (latch_levels h n rs bl false).1
    have := ih (e0 (lowNibble x.2) x.1)
    simp only [List.flatMap_cons, byteWrites, nibbleWrites, List.cons_append, List.nil_append] at this ⊢
    rw [latchedAfter_nibble h _ _ _ hp, latchedAfter_nibble h _ _ _ (e0 _ _), this]

/-- Two runs of writes latch one after the other where the first leaves E low. -/
theorem latchedAfter_append (p : PinMap) (ys : List Byte) : ∀ (xs : List Byte) (prev : Byte),
    pinLevel p.e ((prev :: xs).getLast (by simp)) = false →
    latchedAfter p prev (xs ++ ys) = latchedAfter p prev xs ++ latchedAfter p ((prev :: xs).getLast (by simp)) ys
  | [], prev, _ => by simp [latchedAfter]
  | x :: xs, prev, h => by
    have := latchedAfter_append p ys xs x (by simpa using h)
    simp only [List.cons_append, latchedAfter, this]
    split <;> simp

/-- The nibbles of whole bytes pair up to the bytes. -/
theorem receivedBytes_bytes (l : List (Bool × Byte)) :
    receivedBytes (l.flatMap (fun x => [{ rs := x.1, nibble := highNibble x.2 }, { rs := x.1, nibble := lowNibble x.2 }])) = l := by
  induction l with
  | nil => rfl
  | cons x l ih => simp [List.flatMap_cons, receivedBytes, ih, highNibble_append_lowNibble]

/-- After an even number of nibbles the next one begins a byte. -/
theorem receivedBytes_append : ∀ (xs ys : List Latched), xs.length % 2 = 0 →
    receivedBytes (xs ++ ys) = receivedBytes xs ++ receivedBytes ys
  | [], ys, _ => by simp [receivedBytes]
  | [x], ys, h => by simp at h
  | x :: y :: xs, ys, h => by
    have := receivedBytes_append xs ys (by simp only [List.length_cons] at h; omega)
    simp [receivedBytes, this]

end Sys2Proof.Machine
end

