-- ==== Sys2Proof/Laws/PerInstr.lean ====
section
/-! SUPPORT. The statements made for all instructions, one lemma per constructor of Instr. -/

namespace Sys2Proof.Laws.TableRow

/-- The mask and the match of the instruction's row in spec/opcode_table.json. -/
def row : Instr → CommandWord × CommandWord
  | .enable      => (0xFFFFFF#24, 0x100000#24)
  | .powerOn     => (0xFFFFFF#24, 0x200000#24)
  | .powerOff    => (0xFFFFFF#24, 0x300000#24)
  | .blOn        => (0xFFFFFF#24, 0x400000#24)
  | .blOff       => (0xFFFFFF#24, 0x500000#24)
  | .clear       => (0xFFFFFF#24, 0x600000#24)
  | .home        => (0xFFFFFF#24, 0x700000#24)
  | .setpos _ _  => (0xFF0000#24, 0x800000#24)
  | .resolve _ _ => (0xFF0000#24, 0x900000#24)
  | .send _ _    => (0xFFFE00#24, 0xA00000#24)

/-- A well-formed instruction's word is a word of its row (30_encoding.md R106). -/
def Statement (i : Instr) : Prop := i.wellFormed = true → encode i &&& (row i).1 = (row i).2

/-- An 8-bit operand has no bit above its field. -/
theorem high_bit {n j : Nat} (hn : n ≤ 255) (hj : 8 ≤ j) (h : j < 24) : (BitVec.ofNat 24 n)[j] = false := by
  simp only [← BitVec.getLsbD_eq_getElem, BitVec.getLsbD_ofNat, h, decide_true, Bool.true_and]
  exact Nat.testBit_lt_two_pow (Nat.lt_of_le_of_lt hn (Nat.lt_of_lt_of_le (by decide : 255 < 2 ^ 8) (Nat.pow_le_pow_right (by decide) hj)))

/-- A word of format P: its opcode and its must-be-zero field. -/
theorem encodeP_row (op : CommandWord) {line col : Nat} (hl : line ≤ 255) (hc : col ≤ 255) :
    encodeP op line col &&& 0xFF0000#24 = op <<< 20 := by
  unfold encodeP
  ext i hi
  simp only [BitVec.getElem_and, BitVec.getElem_or, BitVec.getElem_shiftLeft]
  interval_cases i <;> simp [high_bit hl, high_bit hc]

theorem enable : Statement .enable := fun _ => by decide

theorem powerOn : Statement .powerOn := fun _ => by decide

theorem powerOff : Statement .powerOff := fun _ => by decide

theorem blOn : Statement .blOn := fun _ => by decide

theorem blOff : Statement .blOff := fun _ => by decide

theorem clear : Statement .clear := fun _ => by decide

theorem home : Statement .home := fun _ => by decide

theorem setpos (line col : Nat) : Statement (.setpos line col) := by
  intro h
  simp only [Instr.wellFormed, fitsField, Bool.and_eq_true, decide_eq_true_eq] at h
  exact encodeP_row 0x8#24 h.1 h.2

theorem resolve (line col : Nat) : Statement (.resolve line col) := by
  intro h
  simp only [Instr.wellFormed, fitsField, Bool.and_eq_true, decide_eq_true_eq] at h
  exact encodeP_row 0x9#24 h.1 h.2

theorem send (d : Bool) (value : Byte) : Statement (.send d value) := by
  intro _
  simp only [encode, row]
  ext i hi
  simp only [BitVec.getElem_and, BitVec.getElem_or, BitVec.getElem_shiftLeft]
  cases d <;> interval_cases i <;> simp

end Sys2Proof.Laws.TableRow
end

