-- ==== Sys2Proof/Laws/Text.lean ====
section
/-! SUPPORT. Steps along a transaction: an idle block whose next words are those of one requester. -/

namespace Sys2Proof.Machine

variable {s : State} {k : Nat} {r : Request} {rs : List Request}

/-- Of the requesters only `k` presents a word, so it is taken. -/
theorem arbitrate_single (ho : s.owner = none) (hk : s.presented k = some r) (hj : ∀ j, j ≠ k → s.presented j = none) :
    s.arbitrate = some k := by
  have hm : ∀ x, x ∈ s.waiting ↔ x = k := fun x => by
    rw [mem_waiting]
    by_cases hx : x = k
    · simp [hx, hk]
    · simp [hj x hx, hx]
  have hn : s.waiting.Nodup := List.nodup_range.filter _
  have hw : s.waiting = [k] := by
    rcases hw : s.waiting with _ | ⟨a, _ | ⟨b, l⟩⟩
    · simpa [hw] using (hm k).2 rfl
    · rw [(hm a).1 (by simp [hw])]
    · rw [hw, (hm a).1 (by simp [hw]), (hm b).1 (by simp [hw])] at hn
      simp at hn
  simp [State.arbitrate, ho, hw]

/-- An idle block with nothing outstanding, the words `ws` next on port `k`, and no other requester's word to take before them. -/
structure State.Serves (k : Nat) (ws : List Request) (s : State) : Prop where
  legal : s.legal = true
  idle : s.seq = .idle
  noWrite : s.bwValid = false
  noBind : s.bindReq = false
  noDelay : s.delay = 0
  pending : (s.ports[k]?).map Port.pending = some ws
  turn : s.owner = some k ∨ (s.owner = none ∧ ∀ j, j ≠ k → s.presented j = none)

theorem State.Serves.presented (h : s.Serves k (r :: rs)) : s.presented k = some r := by
  have := h.pending
  unfold State.presented
  rcases hk : s.ports[k]? with _ | p <;> simp [hk] at this ⊢
  simp [this]

theorem State.Serves.arbitrate (h : s.Serves k (r :: rs)) : s.arbitrate = some k := by
  rcases h.turn with ho | ⟨ho, hj⟩
  · simp [State.arbitrate, ho, h.presented]
  · exact arbitrate_single ho h.presented hj

/-- The next step runs the first of those words. -/
theorem State.Serves.step (h : s.Serves k (r :: rs)) :
    Machine.step s = execWord r.word (s.dropResponses.accept k r) ∧ (s.dropResponses.accept k r).Executing k r.last ∧
    (r.last = false → (s.dropResponses.accept k r).owner = some k) ∧
    ((s.dropResponses.accept k r).ports[k]?).map Port.pending = some rs := by
  refine ⟨?_, ⟨by simpa using h.legal, ⟨_, _, rfl⟩, h.noWrite, h.noBind, h.noDelay⟩, fun hl => ?_, ?_⟩
  · rw [Machine.step, if_pos h.legal, acceptIfIdle_of_arbitrate (s := s.dropResponses) h.idle (by simpa using h.arbitrate)
      (by simpa using h.presented)]
    simp [completeCommand]
  · rcases h.turn with ho | ⟨ho, _⟩ <;> simp [State.accept, ownerAfterAccept, ho, hl]
  · have := h.pending
    simp only [State.accept, State.dropResponses]
    rcases hk : s.ports[k]? with _ | p <;> simp_all

/-- After a word that is not the last, the block serves the words behind it. -/
theorem State.Executing.serves {u : State} {st : Status} {a : DdramAddr} {es : List Event} (d : Byte) (t' : Transport)
    (hu : u.Executing k false) (ho : u.owner = some k) (hp : (u.ports[k]?).map Port.pending = some rs) :
    (({ u with bwData := d, transport := t' } : State).concluded k false st a es).Serves k rs := by
  refine ⟨?_, rfl, hu.noWrite, hu.noBind, hu.noDelay, ?_, .inl ?_⟩
  · rw [← hu.legal]; exact legal_congr rfl (by simp [State.concluded])
  · rcases hk : u.ports[k]? with _ | p <;> simp_all [State.concluded]
  · simpa [State.concluded] using ho

/-- A consistent idle block with no transaction open serves the only requester that presents words. -/
theorem State.Consistent.serves {ws : List Request} (hc : s.Consistent) (hi : s.seq = .idle) (ho : s.owner = none)
    (hp : (s.ports[k]?).map Port.pending = some ws) (hj : ∀ j, j ≠ k → s.presented j = none) :
    s.Serves k ws ∧ s.abort = false := by
  have hm := hc.idle hi
  refine ⟨⟨hc.legal, hi, ?_, ?_, ?_, hp, .inr ⟨ho, hj⟩⟩, ?_⟩
  · exact Bool.eq_false_iff.2 fun h => by obtain ⟨_, h⟩ := hm.write h; cases h
  · exact Bool.eq_false_iff.2 fun h => by obtain ⟨_, h⟩ := hm.bind h; cases h
  · exact Classical.byContradiction fun h => by obtain ⟨_, _, h⟩ := hm.delay h; cases h
  · exact Bool.eq_false_iff.2 fun h => by simpa [ho] using hc.abort h

/-- The words of a text operation decode to what they stand for. -/
theorem decode_encode_send (d : Bool) (v : Byte) : decode (encode (.send d v)) = .ok (.send d v) := by
  have h := toNat_encodeSend d v
  have hv := v.isLt
  have hd := d.toNat_lt
  have ho : opcodeField (encode (.send d v)) = 0xA := by rw [opcodeField, toNat_field]; omega
  have hz : (encode (.send d v)).extractLsb' 9 11 = 0 := by rw [field_eq_zero]; omega
  have hval : valueField (encode (.send d v)) = v := by
    rw [valueField, ← BitVec.toNat_inj, toNat_field]; omega
  have hdd : dField (encode (.send d v)) = d := by
    rw [dField, BitVec.getLsbD, Nat.testBit_eq_decide_div_mod_eq, h]
    cases d <;> simp <;> omega
  simp [decode, ho, decodeS, hz, hval, hdd]

end Sys2Proof.Machine
end

