-- ==== Sys2Proof/Tests/Slice0.lean ====
section
/-! SUPPORT. The model's own tests, from 95_test_vectors.md and the encodings of 30_encoding.md, and a witness for the hypotheses of
every statement of Certificates/Slice0/Obligations.lean. -/

namespace Sys2Proof.Tests

open Sys2Proof.Machine

/-! ### WellFormed: an ill-formed term for each check -/

theorem test_wellFormed_largest : Instr.wellFormed (.setpos 255 255) = true ∧ Instr.wellFormed (.resolve 255 255) = true := by decide
theorem test_wellFormed_setpos_line : Instr.wellFormed (.setpos 256 0) = false := by decide
theorem test_wellFormed_setpos_col : Instr.wellFormed (.setpos 0 256) = false := by decide
theorem test_wellFormed_resolve_line : Instr.wellFormed (.resolve 256 0) = false := by decide
theorem test_wellFormed_resolve_col : Instr.wellFormed (.resolve 0 256) = false := by decide

/-! ### Decoding: words written out from the bit patterns of R101 and the opcodes of R106 -/

theorem test_decode_enable : decode 0b000100000000000000000000#24 = .ok .enable := by decide
theorem test_decode_powerOn : decode 0b001000000000000000000000#24 = .ok .powerOn := by decide
theorem test_decode_powerOff : decode 0b001100000000000000000000#24 = .ok .powerOff := by decide
theorem test_decode_blOn : decode 0b010000000000000000000000#24 = .ok .blOn := by decide
theorem test_decode_blOff : decode 0b010100000000000000000000#24 = .ok .blOff := by decide
theorem test_decode_clear : decode 0b011000000000000000000000#24 = .ok .clear := by decide
theorem test_decode_home : decode 0b011100000000000000000000#24 = .ok .home := by decide
theorem test_decode_setpos : decode 0b100000000000010000010011#24 = .ok (.setpos 4 19) := by decide
theorem test_decode_resolve : decode 0b100100000000000100010001#24 = .ok (.resolve 1 17) := by decide
theorem test_decode_send_command : decode 0b101000000000000010000000#24 = .ok (.send false 0x80#8) := by decide
theorem test_decode_send_data : decode 0b101000000000000111111111#24 = .ok (.send true 0xFF#8) := by decide

/-- V9, V2.12, V3.17, V7.8: the illegal words, and which rule makes them so. -/
theorem test_decode_illegal :
    [0x000000#24, 0x0FFFFF#24, 0xB00000#24, 0xFFFFFF#24].map decode = List.replicate 4 (.error .reservedOpcode) ∧
    [0x180000#24, 0x200001#24, 0x7FFFFF#24, 0x100001#24, 0x910100#24, 0xA00200#24, 0xA00300#24, 0xA80041#24].map decode =
      List.replicate 8 (.error .mustBeZero) := by decide

/-- R106, the word values. -/
theorem test_encode :
    [.enable, .powerOn, .powerOff, .blOn, .blOff, .clear, .home, .setpos 2 5, .resolve 4 40, .send false 0x01#8,
      .send true 0x48#8].map encode =
    [0x100000#24, 0x200000#24, 0x300000#24, 0x400000#24, 0x500000#24, 0x600000#24, 0x700000#24, 0x800205#24, 0x900428#24,
      0xA00001#24, 0xA00148#24] := by decide

/-- The table's words, as it numbers them. -/
theorem test_decodeTableWord :
    decodeTableWord 24 0x800205 = some (.setpos 2 5) ∧ decodeTableWord 24 0xB00000 = none ∧ decodeTableWord 25 0x100000 = none := by
  decide

/-! ### One step on a small state -/

/-- The reset state with `initialized`, `power` and `backlight` as given, as 95_test_vectors.md writes them. -/
def flags (initialized power backlight : Bool) : State :=
  { State.reset with initialized := initialized, power := power, backlight := backlight }

/-- The transport fails its request number `j + 1`. -/
def failing (j : Nat) : Transport := { script := List.replicate j .ok ++ [.err], after := .succeeds, draws := 0 }

/-- What a vector says of one word: trace, status, address, and the state `initialized`, `power`, `backlight`. -/
structure Seen where
  bytes : List Nat
  status : List Status
  addr : List Nat
  flags : Bool × Bool × Bool
  deriving DecidableEq, Repr

/-- The answered addresses among some events. -/
def addresses : List Event → List Nat
  | [] => []
  | .response _ _ a :: es => a.toNat :: addresses es
  | _ :: es => addresses es

/-- One step on a word, seen as a vector shows it. -/
def see (s : State) (w : Nat) : Option Seen :=
  match step (s.withFetchWord 24 w) with
  | .next t => some {
      bytes := (busWrites (newEvents s t)).map BitVec.toNat, status := statuses (newEvents s t), addr := addresses (newEvents s t)
      flags := (t.initialized, t.power, t.backlight) }
  | .fault _ => none
  | .refused _ => none

/-- A word that is not the last of its transaction. -/
def seeOpen (s : State) (w : Nat) : Option (List Status × Option Nat × Bool) :=
  match step { s with ports := [{ pending := [{ word := BitVec.ofNat 24 w, last := false }], rsp := none }] } with
  | .next t => some (statuses (newEvents s t), t.owner, t.abort)
  | .fault _ => none
  | .refused _ => none

set_option maxRecDepth 4096 in
/-- V7.1. -/
theorem test_enable : see State.reset 0x100000 = some {
    bytes := [0x30, 0x34, 0x30, 0x30, 0x34, 0x30, 0x30, 0x34, 0x30, 0x20, 0x24, 0x20,
      0x20, 0x24, 0x20, 0x80, 0x84, 0x80, 0x00, 0x04, 0x00, 0xE0, 0xE4, 0xE0,
      0x00, 0x04, 0x00, 0x10, 0x14, 0x10, 0x00, 0x04, 0x00, 0x70, 0x74, 0x70]
    status := [.ok], addr := [0], flags := (true, false, false) } := by decide

/-- V7.4: write 10 fails; `initialized` was set at the bind. -/
theorem test_enable_write_fails : see { State.reset with transport := failing 10 } 0x100000 = some {
    bytes := [0x30, 0x34, 0x30, 0x30, 0x34, 0x30, 0x30, 0x34, 0x30, 0x20]
    status := [.errTransport], addr := [0], flags := (true, false, false) } := by decide

/-- V5.1, V5.3. -/
theorem test_powerOn : see State.reset 0x200000 =
    some { bytes := [], status := [.ok], addr := [0], flags := (false, true, false) } := by decide
theorem test_powerOff : see (flags true true true) 0x300000 =
    some { bytes := [], status := [.ok], addr := [0], flags := (true, false, true) } := by decide

/-- V6.1, V6.7, V6.3, V6.4. -/
theorem test_blOn : see (flags true true false) 0x400000 =
    some { bytes := [0x08], status := [.ok], addr := [0], flags := (true, true, true) } := by decide
theorem test_blOn_write_fails : see { flags true true false with transport := failing 0 } 0x400000 =
    some { bytes := [0x08], status := [.errTransport], addr := [0], flags := (true, true, true) } := by decide
theorem test_blOff : see (flags true true true) 0x500000 =
    some { bytes := [0x00], status := [.ok], addr := [0], flags := (true, true, false) } := by decide
theorem test_blOff_off : see (flags true false true) 0x500000 =
    some { bytes := [], status := [.okOff], addr := [0], flags := (true, false, true) } := by decide

/-- V8.2, V8.7, V8.3, V8.5. -/
theorem test_clear : see (flags true true true) 0x600000 =
    some { bytes := [0x08, 0x0C, 0x08, 0x18, 0x1C, 0x18], status := [.ok], addr := [0], flags := (true, true, true) } := by
  decide
theorem test_clear_write_fails : see { flags true true false with transport := failing 1 } 0x600000 =
    some { bytes := [0x00, 0x04], status := [.errTransport], addr := [0], flags := (true, true, false) } := by decide
theorem test_home : see (flags true true false) 0x700000 =
    some { bytes := [0x00, 0x04, 0x00, 0x20, 0x24, 0x20], status := [.ok], addr := [0], flags := (true, true, false) } := by
  decide
theorem test_home_off : see (flags true false false) 0x700000 =
    some { bytes := [], status := [.okOff], addr := [0], flags := (true, false, false) } := by decide

/-- V4.5, V4.7. -/
theorem test_setpos : see (flags true true false) 0x800210 =
    some { bytes := [0xD0, 0xD4, 0xD0, 0x00, 0x04, 0x00], status := [.ok], addr := [0x50], flags := (true, true, false) } := by
  decide
theorem test_setpos_invalid : see (flags false true false) 0x800300 =
    some { bytes := [], status := [.errValidation], addr := [0], flags := (false, true, false) } := by decide

/-- V3.5, V3.4. -/
theorem test_resolve : see State.reset 0x900210 =
    some { bytes := [], status := [.ok], addr := [0x50], flags := (false, false, false) } := by decide
theorem test_resolve_invalid : see State.reset 0x900111 =
    some { bytes := [], status := [.errValidation], addr := [0], flags := (false, false, false) } := by decide

/-- V2.5, V2.9. -/
theorem test_send : see (flags true true false) 0xA00148 =
    some { bytes := [0x41, 0x45, 0x41, 0x81, 0x85, 0x81], status := [.ok], addr := [0], flags := (true, true, false) } := by
  decide
theorem test_send_write_fails : see { flags true true false with transport := failing 2 } 0xA00141 =
    some { bytes := [0x41, 0x45, 0x41], status := [.errTransport], addr := [0], flags := (true, true, false) } := by decide

/-- V9, V2.11: an illegal word, at reset. -/
theorem test_illegal : see State.reset 0xA00200 =
    some { bytes := [], status := [.errIllegal], addr := [0], flags := (false, false, false) } := by decide

/-- V10.1, V10.5, V10.7: the lock and the abort flag. -/
theorem test_transaction_aborts : seeOpen (flags true true false) 0x800300 = some ([.errValidation], some 0, true) := by
  decide
theorem test_transaction_open : seeOpen { flags true true false with owner := some 0 } 0xA00141 = some ([.ok], some 0, false) := by
  decide
theorem test_transaction_skips :
    seeOpen { flags true true false with owner := some 0, abort := true } 0xFFFFFF = some ([.skipped], some 0, true) := by
  decide

/-- V1, the last rows with PINMAP' (RS=4, E=6, BL=7, D4..D7=0..3). -/
theorem test_pack_other_pins :
    let p : PinMap := { rs := 4, e := 6, bl := 7, d4 := 0, d5 := 1, d6 := 2, d7 := 3 }
    pack p 0x8#4 false true true = 0xC8#8 ∧ pack p 0xF#4 true true true = 0xDF#8 ∧ pack p 0xA#4 true false false = 0x1A#8 ∧
    pack p 0x3#4 false false true = 0x43#8 ∧ blByte p true = 0x80#8 := by decide

/-- S6, S7, S8: the texts of the source. -/
theorem test_text :
    fmtPrint 5 [0x48#8, 0x69#8] = [0x48#8, 0x69#8, 0x20#8, 0x20#8, 0x20#8] ∧
    fmtCenter 16 [0x54#8, 0x68#8, 0x65#8, 0x72#8, 0x65#8] =
      List.replicate 5 0x20#8 ++ [0x54#8, 0x68#8, 0x65#8, 0x72#8, 0x65#8] ++ List.replicate 6 0x20#8 ∧
    fmtRjust 16 [0x34#8, 0x32#8] = List.replicate 14 0x20#8 ++ [0x34#8, 0x32#8] := by decide

/-! ### Witnesses: the hypotheses of the statements, met together -/

/-- A command of requester 0 is executing. -/
def executing (initialized power backlight abort last : Bool) (transport : Transport) : State :=
  { State.reset with
    initialized := initialized, power := power, backlight := backlight, abort := abort, owner := if last then none else some 0
    seq := .busy 0 0x000000#24 last [], transport := transport }

theorem witness_executing (initialized power backlight abort last : Bool) (transport : Transport) :
    (executing initialized power backlight abort last transport).Executing 0 last :=
  ⟨rfl, ⟨_, _, rfl⟩, rfl, rfl, rfl⟩

theorem witness_grants (n : Nat) : Transport.Grants n Transport.reliable Transport.reliable := by
  induction n with
  | zero => rfl
  | succ n ih => exact ⟨_, rfl, ih⟩

theorem witness_failsAfter (j : Nat) : Transport.FailsAfter j (failing j) { script := [], after := .succeeds, draws := 0 } := by
  induction j with
  | zero => exact failsAfter_zero.mpr rfl
  | succ j ih => exact failsAfter_succ.mpr ⟨failing j, rfl, ih⟩

/-- What the meanings and steps of the witnesses answer. -/
def nextOf (o : Host.Outcome State Fault Refusal) : State :=
  match o with
  | .next t => t
  | .fault _ => State.reset
  | .refused _ => State.reset

theorem next_nextOf {o : Host.Outcome State Fault Refusal} {t : State} (h : o = .next t) : o = .next (nextOf o) := by
  rw [h]
  rfl

/-! Encoding, resolver, Bit-Packer. -/

theorem witness_DecodeOfEncodeIsTheInstruction : Instr.wellFormed (.setpos 255 255) = true := by decide

theorem witness_EncodeOfDecodedWordIsTheWord : decode 0xA001FF#24 = .ok (.send true 0xFF#8) := by decide

theorem witness_ResolveIsBasePlusColumn :
    legalParams .standard = true ∧ (1 ≤ 2 ∧ 2 ≤ Params.standard.rows ∧ 16 ≤ Params.standard.columns) ∧
    Params.standard.rows < 3 ∧ Params.standard.columns < 17 := by decide

/-- The largest legal configuration, at its largest address. -/
theorem witness_ResolveIsBasePlusColumn_largest :
    legalParams { Params.standard with rows := 4, columns := 40 } = true ∧
    resolve { Params.standard with rows := 4, columns := 40 } 4 40 = some 0x7C#7 := by decide

theorem witness_ResolveAnswersTheAddress :
    (executing false false false true false .reliable).Executing 0 false ∧
    (executing false false false true false .reliable).abort = true ∧
    (executing false false false false true .reliable).Executing 0 true ∧
    (executing false false false false true .reliable).abort = false ∧
    resolve (executing false false false false true .reliable).params 0 0 = none ∧
    resolve (executing false false false false true .reliable).params 3 0 = none ∧
    resolve (executing false false false false true .reliable).params 1 17 = none ∧
    resolve (executing false false false false true .reliable).params 2 16 = some 0x50#7 :=
  ⟨witness_executing .., rfl, witness_executing .., rfl, rfl, rfl, rfl, rfl⟩

/-- The clauses on a failing write: write 5 of the six. -/
theorem witness_SetposSendsTheAddress :
    (∃ s : State, s.Executing 0 true ∧ s.abort = false ∧ s.power = false) ∧
    (∃ s : State, s.Executing 0 true ∧ s.abort = false ∧ s.power = true ∧ resolve s.params 3 0 = none) ∧
    (∃ s : State, s.Executing 0 true ∧ s.abort = false ∧ s.power = true ∧ resolve s.params 1 0 = some 0x00#7 ∧
      s.initialized = false) ∧
    (∃ (s : State) (t' : Transport), s.Executing 0 true ∧ s.abort = false ∧ s.power = true ∧
      resolve s.params 2 16 = some 0x50#7 ∧ s.initialized = true ∧ Transport.Grants 6 s.transport t') ∧
    (∃ (s : State) (pre post : List Byte) (b : Byte) (t' : Transport), s.Executing 0 true ∧ s.abort = false ∧ s.power = true ∧
      resolve s.params 1 0 = some 0x00#7 ∧ s.initialized = true ∧
      byteWrites s.params.pinMap (0x80#8 ||| (0x00#7).zeroExtend 8) false s.backlight = pre ++ b :: post ∧ pre.length = 4 ∧
      Transport.FailsAfter pre.length s.transport t') :=
  ⟨⟨executing true false false false true .reliable, witness_executing .., rfl, rfl⟩,
    ⟨executing false true false false true .reliable, witness_executing .., rfl, rfl, rfl⟩,
    ⟨executing false true false false true .reliable, witness_executing .., rfl, rfl, rfl, rfl⟩,
    ⟨executing true true false false true .reliable, _, witness_executing .., rfl, rfl, rfl, rfl, witness_grants 6⟩,
    ⟨executing true true false false true (failing 4), [0x80#8, 0x84#8, 0x80#8, 0x00#8], [0x00#8], 0x04#8, _,
      witness_executing .., rfl, rfl, rfl, rfl, rfl, rfl, witness_failsAfter 4⟩⟩

/-- Also for the byte transaction and the ENABLE latches: distinct positions, one of them unmapped. -/
theorem witness_PackPutsEverySignalAtItsPin : (pinPositions .standard).Nodup ∧ (1 : Fin 8) ∉ pinPositions .standard := by decide

/-! The commands: every clause of `SendsByte` (CLEAR, HOME, SEND) and `SwitchesBacklight`, POWER_ON, POWER_OFF, ENABLE. -/

theorem witness_SendsByte :
    (∃ s : State, s.Executing 0 false ∧ s.abort = true) ∧
    (∃ s : State, s.Executing 0 true ∧ s.abort = false ∧ s.power = false) ∧
    (∃ s : State, s.Executing 0 true ∧ s.abort = false ∧ s.power = true ∧ s.initialized = false) ∧
    (∃ (s : State) (t' : Transport), s.Executing 0 true ∧ s.abort = false ∧ s.power = true ∧ s.initialized = true ∧
      Transport.Grants 6 s.transport t') ∧
    (∃ (s : State) (pre : List Byte) (b : Byte) (t' : Transport), s.Executing 0 true ∧ s.abort = false ∧ s.power = true ∧
      s.initialized = true ∧ byteWrites s.params.pinMap 0x01#8 false s.backlight = pre ++ b :: [] ∧
      Transport.FailsAfter pre.length s.transport t') :=
  ⟨⟨executing true true false true false .reliable, witness_executing .., rfl⟩,
    ⟨executing true false false false true .reliable, witness_executing .., rfl, rfl⟩,
    ⟨executing false true false false true .reliable, witness_executing .., rfl, rfl, rfl⟩,
    ⟨executing true true false false true .reliable, _, witness_executing .., rfl, rfl, rfl, witness_grants 6⟩,
    ⟨executing true true false false true (failing 5), [0x00#8, 0x04#8, 0x00#8, 0x10#8, 0x14#8], 0x10#8, _,
      witness_executing .., rfl, rfl, rfl, rfl, witness_failsAfter 5⟩⟩

/-- A state without `BL_IMMEDIATE_WRITE`, beside the ones with it. -/
theorem witness_SwitchesBacklight :
    (∃ (s : State) (t' : Transport), s.Executing 0 true ∧ s.abort = false ∧ s.power = true ∧ s.params.blImmediateWrite = true ∧
      s.initialized = true ∧ s.transport.answer = some (.ok, t')) ∧
    (∃ (s : State) (t' : Transport), s.Executing 0 true ∧ s.abort = false ∧ s.power = true ∧ s.params.blImmediateWrite = true ∧
      s.initialized = true ∧ s.transport.answer = some (.err, t')) ∧
    (∃ s : State, s.Executing 0 true ∧ s.abort = false ∧ s.power = true ∧ s.params.blImmediateWrite = true ∧
      s.initialized = false) ∧
    (∃ s : State, s.Executing 0 true ∧ s.abort = false ∧ s.power = true ∧ s.params.blImmediateWrite = false) :=
  ⟨⟨executing true true false false true .reliable, _, witness_executing .., rfl, rfl, rfl, rfl, rfl⟩,
    ⟨executing true true false false true (failing 0), _, witness_executing .., rfl, rfl, rfl, rfl, rfl⟩,
    ⟨executing false true false false true .reliable, witness_executing .., rfl, rfl, rfl, rfl⟩,
    ⟨{ executing false true false false true .reliable with params := { Params.standard with blImmediateWrite := false } },
      ⟨rfl, ⟨_, _, rfl⟩, rfl, rfl, rfl⟩, rfl, rfl, rfl⟩⟩

/-- Also for POWER_ON and POWER_OFF. ENABLE: all granted, the bind failing, write 10 failing (V7.4). -/
theorem witness_EnableRunsTheInitialisation :
    (∃ (s : State) (t' : Transport), s.Executing 0 true ∧ s.abort = false ∧ Transport.Grants 37 s.transport t') ∧
    (∃ (s : State) (t' : Transport), s.Executing 0 true ∧ s.abort = false ∧ s.transport.answer = some (.err, t')) ∧
    (∃ (s : State) (pre post : List Event) (b : Byte) (t' : Transport), s.Executing 0 true ∧ s.abort = false ∧
      initEvents s.params.pinMap s.backlight = pre ++ .write b :: post ∧ (busWrites pre).length = 9 ∧
      Transport.FailsAfter (1 + (busWrites pre).length) s.transport t') :=
  ⟨⟨executing false false false false true .reliable, _, witness_executing .., rfl, witness_grants 37⟩,
    ⟨executing false false false false true (failing 0), _, witness_executing .., rfl, rfl⟩,
    ⟨executing false false false false true (failing 10), (initEvents .standard false).take 12, (initEvents .standard false).drop 13,
      0x20#8, _, witness_executing .., rfl, rfl, rfl, witness_failsAfter 10⟩⟩

/-! Statuses, gates, frames. -/

theorem witness_PoweredOffCommandsDoNothing :
    (executing true false false false true .reliable).Executing 0 true ∧
    (executing true false false false true .reliable).abort = false ∧
    (executing true false false false true .reliable).power = false ∧ gated .home = true ∧ gated .powerOn = false ∧
    exec .powerOn (executing true false false false true .reliable) =
      .next (nextOf (exec .powerOn (executing true false false false true .reliable))) :=
  ⟨witness_executing .., rfl, rfl, rfl, rfl, rfl⟩

/-- SETPOS while powered on, RESOLVE while powered off; line 0, the line and the column one above the last. -/
theorem witness_InvalidPositionsAreRejectedFirst :
    (executing false true false false true .reliable).Executing 0 true ∧
    (gated (.setpos 3 0) = true → (executing false true false false true .reliable).power = true) ∧
    position (.setpos 3 0) = some (3, 0) ∧ (executing false true false false true .reliable).params.rows < 3 ∧
    (executing false false false false true .reliable).Executing 0 true ∧
    (gated (.resolve 0 0) = true → (executing false false false false true .reliable).power = true) ∧
    position (.resolve 0 0) = some (0, 0) ∧ (executing false false false false true .reliable).params.columns < 17 :=
  ⟨witness_executing .., fun _ => rfl, rfl, by decide, witness_executing .., by decide, rfl, by decide⟩

theorem witness_BusCommandsNeedEnable :
    (executing false true false false true .reliable).Executing 0 true ∧
    (executing false true false false true .reliable).initialized = false ∧
    needsEnable (executing false true false false true .reliable).params .blOn = true ∧ position .blOn = none ∧
    needsEnable (executing false true false false true .reliable).params (.setpos 2 16) = true ∧
    position (.setpos 2 16) = some (2, 16) ∧ 2 ≤ (executing false true false false true .reliable).params.rows ∧
    16 ≤ (executing false true false false true .reliable).params.columns :=
  ⟨witness_executing .., rfl, rfl, rfl, rfl, rfl, by decide, by decide⟩

/-- Also for the frames and the write counts: a command that passes its checks and answers `OK`, and one that fails. -/
theorem witness_CheckedCommandsSucceedOrFailOnTheBus :
    (executing true true true false true .reliable).Executing 0 true ∧
    (exec .clear (executing true true true false true .reliable) =
      .next (nextOf (exec .clear (executing true true true false true .reliable)))) ∧
    (nextOf (exec .clear (executing true true true false true .reliable))).seq = .idle ∧
    (nextOf (exec .clear (executing true true true false true .reliable))).trace =
      [0x08#8, 0x0C#8, 0x08#8, 0x18#8, 0x1C#8, 0x18#8].map .write ++ [.response 0 .ok 0#7] ∧
    (nextOf (exec .clear (executing true true true false true (failing 2)))).seq = .idle :=
  ⟨witness_executing .., rfl, rfl, rfl, rfl⟩

theorem witness_FlagsAreWrittenByTheirCommandsOnly :
    exec .enable (executing true false false false true .reliable) =
      .next (nextOf (exec .enable (executing true false false false true .reliable))) ∧
    (executing true false false false true .reliable).initialized = true := ⟨rfl, rfl⟩

theorem witness_PureCommandsLeaveTheBus :
    exec (.resolve 2 16) (executing false false false false true .reliable) =
      .next (nextOf (exec (.resolve 2 16) (executing false false false false true .reliable))) := rfl

theorem witness_NoBusWriteBeforeEnableOrWhileOff :
    (executing false false true false true .reliable).Executing 0 true ∧
    exec .home (executing false false true false true .reliable) =
      .next (nextOf (exec .home (executing false false true false true .reliable))) ∧
    (executing false false true false true .reliable).initialized = false ∧ gated .home = true ∧
    (executing false false true false true .reliable).power = false := ⟨witness_executing .., rfl, rfl, rfl, rfl⟩

theorem witness_WriteCountOfEveryCommand :
    (executing true true false false true .reliable).Executing 0 true ∧
    exec .blOn (executing true true false false true .reliable) =
      .next (nextOf (exec .blOn (executing true true false false true .reliable))) ∧
    (nextOf (exec .blOn (executing true true false false true .reliable))).trace =
      (executing true true false false true .reliable).trace ++ [.write 0x08#8] ++ [.response 0 .ok 0#7] :=
  ⟨witness_executing .., rfl, rfl⟩

/-! Steps, transactions, the lock. -/

/-- Requesters that present these words, one list a port. -/
def presenting (words : List (List Request)) (s : State) : State :=
  { s with ports := words.map (fun ws => { pending := ws, rsp := none }) }

theorem witness_StepRunsTheDecodedInstruction :
    (State.reset.legal = true ∧ State.reset.seq = .idle ∧ State.reset.arbitrate = none) ∧
    ((State.reset.withFetchWord 24 0x200000).legal = true ∧ (State.reset.withFetchWord 24 0x200000).seq = .idle ∧
      (State.reset.withFetchWord 24 0x200000).arbitrate = some 0 ∧
      (State.reset.withFetchWord 24 0x200000).presented 0 = some { word := 0x200000#24, last := true } ∧
      decode 0x200000#24 = .ok .powerOn) ∧
    (({ State.reset with seq := .busy 0 0x200000#24 true [] } : State).legal = true ∧
      ({ State.reset with seq := .busy 0 0x600000#24 true [.write 0x10#8, .respond .ok 0#7] } : State).legal = true) :=
  ⟨⟨rfl, rfl, rfl⟩, ⟨rfl, rfl, rfl, rfl, rfl⟩, rfl, rfl⟩

/-- V9 at reset, and inside an aborted transaction (V10.7). -/
theorem witness_IllegalWordAnswersErrIllegal :
    (State.reset.withFetchWord 24 0x0FFFFF).arbitrate = some 0 ∧ State.reset.abort = false ∧
    (State.reset.withFetchWord 24 0x0FFFFF).presented 0 = some { word := 0x0FFFFF#24, last := true } ∧
    decode 0x0FFFFF#24 = .error .reservedOpcode := ⟨rfl, rfl, rfl, rfl⟩

theorem witness_AbortedTransactionSkipsEveryWord :
    (({ State.reset with owner := some 0, abort := true } : State).withFetchWord 24 0xFFFFFF).legal = true ∧
    (({ State.reset with owner := some 0, abort := true } : State).withFetchWord 24 0xFFFFFF).arbitrate = some 0 ∧
    (({ State.reset with owner := some 0, abort := true } : State).withFetchWord 24 0xFFFFFF).presented 0 =
      some { word := 0xFFFFFF#24, last := true } := ⟨rfl, rfl, rfl⟩

theorem witness_EveryWordGetsOneResponse :
    step (State.reset.withFetchWord 24 0x900300) = .next (nextOf (step (State.reset.withFetchWord 24 0x900300))) ∧
    (nextOf (step (State.reset.withFetchWord 24 0x900300))).seq = .idle := ⟨rfl, rfl⟩

/-- P4: two requesters, port 0 the owner, and none. -/
theorem witness_OpenTransactionExcludesOtherRequesters :
    let s := presenting [[{ word := 0xA00141#24, last := true }], [{ word := 0x400000#24, last := true }]]
      { State.reset with owner := some 0 }
    s.owner = some 0 ∧ (s.presented 0).isSome = true ∧ (s.presented 1).isSome = true ∧ s.arbitrate = some 0 ∧
    step s = .next (nextOf (step s)) := ⟨rfl, rfl, rfl, rfl, rfl⟩

theorem witness_ArbiterTakesAWaitingRequester :
    let s := presenting [[], [{ word := 0x400000#24, last := true }]] State.reset
    s.owner = none ∧ (s.presented 1).isSome = true ∧ s.arbitrate = some 1 := ⟨rfl, rfl, rfl⟩

/-- A silent transport, before the bind is presented and after; an ENABLE. -/
theorem witness_SilentTransportHoldsTheCommand_bind :
    let s : State := { State.reset with
      seq := .busy 0 0x100000#24 true [.bind, .respond .ok 0#7], transport := { Transport.reliable with after := .silent } }
    s.legal = true ∧ s.transport.answer = none ∧ s.bindReq = false ∧ ({ s with bindReq := true } : State).bindReq = true ∧
    (executing false false false false true { Transport.reliable with after := .silent }).Executing 0 true ∧
    (executing false false false false true { Transport.reliable with after := .silent }).abort = false :=
  ⟨rfl, rfl, rfl, rfl, witness_executing .., rfl⟩

/-- A silent transport, before the write is presented and after. -/
theorem witness_SilentTransportHoldsTheCommand :
    let s : State := { State.reset with
      seq := .busy 0 0x400000#24 true [.write 0x08#8, .respond .ok 0#7], transport := { Transport.reliable with after := .silent } }
    s.legal = true ∧ s.transport.answer = none ∧ s.bwValid = false ∧ ({ s with bwValid := true } : State).bwValid = true :=
  ⟨rfl, rfl, rfl, rfl⟩

/-- Five rows, no requester. -/
theorem witness_IllegalConfigurationIsRefused :
    ¬ ((1 ≤ 5 ∧ 5 ≤ 4) ∧ (1 ≤ 16 ∧ 16 ≤ 40) ∧ (pinPositions .standard).Nodup ∧ 1000 ≤ 1000 ∧ State.reset.ports ≠ []) ∧
    step { State.reset with params := { Params.standard with rows := 5 } } = .refused .illegalConfiguration ∧
    step { State.reset with ports := [] } = .refused .illegalConfiguration := ⟨by decide, rfl, rfl⟩

/-! Reset, the invariant, the clock. -/

/-- The pins of a cycle in which the transport has answered, or not. -/
def pins (rst done err : Bool) : Pins := { rst := rst, bwDone := done, bwErr := err, bindDone := done, bindErr := err }

theorem witness_ResetSetsEveryField : (pins true false false).rst = true := rfl

/-- A block in the middle of BL_ON, its write outstanding: consistent, and neither idle nor at reset. -/
def midWrite : State :=
  { flags true true true with
    seq := .busy 0 0x400000#24 true [.write 0x08#8, .respond .ok 0#7], bwData := 0x08#8, bwValid := true }

/-- Also for the step, the clock edge and their outcome: the edge is not a reset. -/
theorem witness_StepKeepsTheStateConsistent :
    midWrite.Consistent ∧ step midWrite = .next (nextOf (step midWrite)) ∧ midWrite.seq ≠ .idle ∧
    (pins false true false).rst = false := by
  refine ⟨⟨rfl, by decide, by decide, fun h => absurd h (by decide), ?_⟩, rfl, by decide, rfl⟩
  intro k w last steps h
  cases h
  refine ⟨⟨fun _ => ⟨_, rfl⟩, fun h => absurd h (by decide), fun h => absurd rfl h, by decide, by simp⟩,
    ⟨by decide, by decide, by decide, by decide, by decide, rfl⟩⟩

/-- POWER_ON in two cycles, from a consistent state: accepted, then checked and answered. -/
theorem witness_ClockEdgesComputeTheStep :
    let s := State.reset.withFetchWord 24 0x200000
    s.Consistent ∧ s.seq = .idle ∧ (∀ p ∈ [pins false false false, pins false false false], p.rst = false) ∧ (runEdges [pins false false false] s).seq ≠ .idle ∧
    (runEdges [pins false false false, pins false false false] s).seq = .idle := by
  refine ⟨⟨rfl, by decide, by decide, fun _ =>
    ⟨fun h => absurd h (by decide), fun h => absurd h (by decide), fun h => absurd rfl h, by decide, by simp⟩, ?_⟩, rfl,
    by decide, by decide, rfl⟩
  intro k w last steps h
  cases h

theorem witness_CommandEndsIfTheTransportAnswers :
    (pins false true false).rst = false ∧ (pins false true false).bwDone = true ∧ (pins false true false).bindDone = true ∧
    (runEdges [pins false true false] midWrite).seq = .idle := ⟨rfl, rfl, rfl, rfl⟩

theorem witness_ReadyWordIsAccepted :
    (State.reset.withFetchWord 24 0x200000).reqReady 0 = true ∧
    (State.reset.withFetchWord 24 0x200000).presented 0 = some { word := 0x200000#24, last := true } := ⟨rfl, rfl⟩

/-- The write not yet presented, and outstanding. -/
theorem witness_OutstandingWriteIsHeld :
    ({ midWrite with bwValid := false } : State).seq = .busy 0 0x400000#24 true [.write 0x08#8, .respond .ok 0#7] ∧
    ({ midWrite with bwValid := false } : State).bwValid = false ∧
    midWrite.seq = .busy 0 0x400000#24 true [.write 0x08#8, .respond .ok 0#7] ∧ midWrite.bwValid = true ∧
    (pins false false false).bwDone = false ∧ (pins false true true).bwDone = true ∧ (pins false true true).bwErr = true :=
  ⟨rfl, rfl, rfl, rfl, rfl, rfl, rfl⟩

/-- The bind not yet presented, and outstanding; not done, done, and failing. -/
theorem witness_OutstandingBindIsHeld :
    let s : State := { State.reset with seq := .busy 0 0x100000#24 true [.bind, .write 0x30#8] }
    (pins false true false).rst = false ∧ s.seq = .busy 0 0x100000#24 true [.bind, .write 0x30#8] ∧ s.bindReq = false ∧
    ({ s with bindReq := true } : State).bindReq = true ∧ (pins false false false).bindDone = false ∧
    (pins false true false).bindDone = true ∧ (pins false true false).bindErr = false ∧ (pins false true true).bindErr = true :=
  ⟨rfl, rfl, rfl, rfl, rfl, rfl, rfl, rfl⟩

/-- R331: `bind_req` rises, and falls with `initialized` set. -/
theorem test_clock_bind :
    let s : State := { State.reset with seq := .busy 0 0x100000#24 true [.bind, .write 0x30#8] }
    ((edge (pins false false false) s).bindReq, (edge (pins false false false) s).initialized) = (true, false) ∧
    ((runEdges [pins false false false, pins false true false] s).bindReq,
      (runEdges [pins false false false, pins false true false] s).initialized) = (false, true) := by decide

theorem witness_CommandsLoadTheirGaps :
    (executing true true false false true .reliable).seq = .busy 0 0x000000#24 true [] ∧
    (executing true true false false true .reliable).abort = false ∧
    (executing true true false false true .reliable).power = true ∧
    (executing true true false false true .reliable).initialized = true ∧
    resolve (executing true true false false true .reliable).params 2 16 = some 0x50#7 := ⟨rfl, rfl, rfl, rfl, rfl⟩

/-- R141, R143 with a gap of 3 and a wait of 5 cycles: CLEAR at the default pins. -/
theorem test_gaps :
    (startClear { executing true true false false true .reliable with
      params := { Params.standard with pulseGapCycles := 3, cmdWaitCycles := 5 } }).seq =
    .busy 0 0x000000#24 true [.write 0x00#8, .gap 3, .write 0x04#8, .gap 3, .write 0x00#8,
      .write 0x10#8, .gap 3, .write 0x14#8, .gap 3, .write 0x10#8, .gap 5, .respond .ok 0#7] := by decide

/-- The 10 ms wait at 1 kHz: ten cycles, and the write after it. -/
theorem witness_WaitKeepsTheBusQuiet :
    let s : State := { midWrite with seq := .busy 0 0x100000#24 true [.write 0x20#8, .wait 10, .write 0x20#8] }
    s.bwValid = true ∧ (List.replicate 10 (pins false true false)).length ≤ (10 * s.params.clkHz + 999) / 1000 ∧
    (∀ q ∈ List.replicate 10 (pins false true false), q.rst = false) := by
  refine ⟨rfl, by decide, ?_⟩
  intro q hq
  rw [List.eq_of_mem_replicate hq]
  rfl

theorem witness_GapKeepsTheBusQuiet :
    let s : State := { midWrite with seq := .busy 0 0x600000#24 true [.write 0x00#8, .gap 2, .write 0x04#8] }
    s.bwValid = true ∧ ([pins false true false, pins false true false] : List Pins).length ≤ 2 := ⟨rfl, by decide⟩

/-! Text. -/

theorem witness_ExpansionIsOneTransaction : 255 ≤ 255 ∧ [0x41#8] ≠ [] := by decide

/-- What leaves the controller open, after a whole ENABLE and another command: a failing write with a later command behind it, a
write cut off, one outstanding, and a bind that fails; and a write that fails inside the ENABLE (V7.4). -/
theorem witness_UnappliedWriteLeavesTheControllerOpen :
    let xs := .bind :: initEvents .standard false ++ [.response 0 .ok 0#7, .response 1 .okOff 0#7, .write 0x00#8]
    (spans (xs ++ [.response 0 .ok 0#7])).getLast? = some (.known (busWrites xs)) ∧
    (spans ((.bind :: (initEvents .standard false).take 12) ++ [.response 0 .ok 0#7])).getLast? =
      some (.known (busWrites ((initEvents .standard false).take 12))) ∧
    LeavesControllerOpen (.write 0x04#8) [.response 0 .errTransport 0#7, .write 0x00#8, .response 0 .ok 0#7] ∧
    (.bind : Event) ∉ ([.response 0 .errTransport 0#7, .write 0x00#8, .response 0 .ok 0#7] : List Event) ∧
    LeavesControllerOpen (.write 0x04#8) [.reset] ∧ LeavesControllerOpen (.write 0x04#8) [] ∧
    LeavesControllerOpen .bind [.response 0 .errTransport 0#7] ∧ ([.reset] : List Event) ≠ [] ∧
    (pinPositions .standard).Nodup :=
  ⟨by decide, by decide, .inl ⟨_, rfl, .inr (.inr ⟨_, _, _, rfl⟩)⟩, by decide, .inl ⟨_, rfl, .inr (.inl ⟨_, rfl⟩)⟩,
    .inl ⟨_, rfl, .inl rfl⟩, .inr ⟨rfl, _, _, _, rfl⟩, by decide, by decide⟩

/-- R144, U1, R365: six writes give the byte; a write or a bind that fails ends what is known; ENABLE's bind begins anew; a bind that
a reset cuts off gives the controller nothing. -/
theorem test_received :
    received .standard ([0x41#8, 0x45#8, 0x41#8, 0x81#8, 0x85#8, 0x81#8].map .write ++ [.response 0 .ok 0#7]) = [(true, 0x48#8)] ∧
    spans [.write 0x41#8, .write 0x45#8, .response 0 .errTransport 0#7, .write 0x08#8, .response 0 .ok 0#7] =
      [.known [0x41#8], .uncertain [0x41#8, 0x45#8, 0x08#8] 5] ∧
    spans [.write 0x41#8, .reset, .bind, .write 0x30#8, .response 0 .ok 0#7] =
      [.known [], .uncertain [0x41#8] 2, .known [0x30#8]] ∧
    spans [.write 0x41#8, .response 0 .ok 0#7, .bind, .response 0 .errTransport 0#7, .bind, .write 0x30#8, .response 0 .ok 0#7] =
      [.known [0x41#8], .uncertain [0x41#8] 4, .known [0x30#8]] ∧
    spans [.write 0x41#8, .response 0 .ok 0#7, .bind, .reset] = [.known [0x41#8], .known []] := by decide

/-- The reset state's trace is one after which the controller is known. -/
theorem witness_TextOperationWritesTheText : betweenBytes .standard State.reset.trace = true := by decide

/-- Not enabled; write 8 failing, in the first data byte. -/
theorem witness_TextOperationsFailing :
    let s := presenting [expand 2 [0x41#8]] (flags false true false)
    s.power = true ∧ s.initialized = false ∧ resolve s.params 2 0 = some 0x40#7 ∧
    (s.ports[0]?).map Port.pending = some (expand 2 [0x41#8]) ∧ 7 < 6 * ([0x41#8].length + 1) ∧
    Transport.FailsAfter 7 (failing 7) { script := [], after := .succeeds, draws := 0 } :=
  ⟨rfl, rfl, rfl, rfl, by decide, witness_failsAfter 7⟩

/-- `SETPOS line, 0` and one data byte on port 0, from a consistent idle block, powered on or off, enabled or not. -/
theorem witness_TextOperations (initialized power : Bool) (line : Nat) :
    let s := presenting [expand line [0x41#8]] (flags initialized power false)
    s.Consistent ∧ s.seq = .idle ∧ s.owner = none ∧ s.power = power ∧ s.initialized = initialized ∧
    (s.ports[0]?).map Port.pending = some (expand line [0x41#8]) ∧ (∀ j, j ≠ 0 → s.presented j = none) ∧
    resolve s.params 2 0 = some 0x40#7 ∧ s.params.rows < 3 ∧ Transport.Grants (6 * ([0x41#8].length + 1)) s.transport .reliable := by
  refine ⟨⟨rfl, by simp [presenting, flags, State.reset], by simp [presenting, flags, State.reset], fun _ => ?_, ?_⟩,
    rfl, rfl, rfl, rfl, rfl, ?_, rfl, by simp [presenting, flags, State.reset, Params.standard], witness_grants 12⟩
  · exact ⟨by simp [presenting, flags, State.reset], by simp [presenting, flags, State.reset],
      by simp [presenting, flags, State.reset], by simp [presenting, flags, State.reset], by simp⟩
  · intro k w last steps h
    cases h
  · intro j hj
    simp [State.presented, presenting, hj]

end Sys2Proof.Tests
end

section
/-! PROOFS, family 00_scope.md: the legal configurations (R8), and a gap at the clock edge (R38, R141, R143). -/

namespace Sys2Proof.Machine

/-! ### The legal configurations -/

/-- The model's check is R8's ranges, `NREQ ≥ 1` included. -/
theorem legal_iff (s : State) :
    s.legal = true ↔
      (1 ≤ s.params.rows ∧ s.params.rows ≤ 4) ∧ (1 ≤ s.params.columns ∧ s.params.columns ≤ 40) ∧
      (pinPositions s.params.pinMap).Nodup ∧ 1000 ≤ s.params.clkHz ∧ s.ports ≠ [] := by
  simp [State.legal, legalParams, and_assoc]

theorem step_of_illegal {s : State} (h : ¬ s.legal = true) : step s = .refused .illegalConfiguration := if_neg h

theorem clockEdge_of_illegal {s : State} (h : ¬ s.legal = true) (p : Pins) :
    clockEdge p s = .refused .illegalConfiguration := if_neg h

theorem runCommand_of_illegal {s : State} (h : ¬ s.legal = true) (f : State → State) :
    runCommand f s = .refused .illegalConfiguration := if_neg h

/-- Settles O37: the step, the clock edge and every meaning begin with the check of R8. -/
theorem illegalConfigurationIsRefused : Obligations.IllegalConfigurationIsRefused := by
  intro s h
  have hl : ¬ s.legal = true := mt (legal_iff s).mp h
  exact ⟨step_of_illegal hl, clockEdge_of_illegal hl, fun i => by rw [exec_eq, runCommand_of_illegal hl]⟩

/-! ### Edges of a busy sequencer -/

section
variable {p : Pins} {s : State} {k n : Nat} {w : CommandWord} {last : Bool} {b : Byte} {steps rest : List MicroStep}

/-- Outside reset, an edge of a busy block is an edge of its sequencer. -/
theorem edge_busy (hr : p.rst = false) (hs : s.seq = .busy k w last steps) :
    edge p s = edgeBusy p k w last steps s.dropResponses := by
  simp [edge, hr, hs]

/-- R330: the edge that samples `ok` drops the write and goes on. -/
theorem edge_write_ok (hr : p.rst = false) (hs : s.seq = .busy k w last (.write b :: rest)) (hv : s.bwValid = true)
    (hd : p.bwDone = true) (he : p.bwErr = false) :
    edge p s = (s.dropResponses.dropWrite.goTo rest).respondIfDue := by
  simp [edge_busy hr hs, edgeBusy, hv, hd, he]

/-- The last cycle of a gap: the sequencer goes on. -/
theorem edge_gap_last (hr : p.rst = false) (hs : s.seq = .busy k w last (.gap n :: rest)) (hn : n ≤ 1) :
    edge p s = (s.dropResponses.goTo rest).respondIfDue := by
  simp [edge_busy hr hs, edgeBusy, hn]

/-- Any other cycle of a gap: one cycle less is left. -/
theorem edge_gap_more (hr : p.rst = false) (hs : s.seq = .busy k w last (.gap n :: rest)) (hn : 1 < n) :
    edge p s = s.dropResponses.setSteps (.gap (n - 1) :: rest) := by
  simp [edge_busy hr hs, edgeBusy, Nat.not_le.mpr hn]

end

/-! ### A gap keeps the bus quiet -/

/-- From a gap of `n` cycles with no write outstanding, up to `n` edges present no write: every edge but the `n`-th leaves a
shorter gap, and the `n`-th only goes on to the next micro-step. -/
theorem runEdges_gap_quiet {ps : List Pins} {s : State} {k n : Nat} {w : CommandWord} {last : Bool} {rest : List MicroStep}
    (hr : ∀ q ∈ ps, q.rst = false) (hs : s.seq = .busy k w last (.gap n :: rest)) (hv : s.bwValid = false)
    (hn : ps.length ≤ n) :
    (runEdges ps s).bwValid = false ∧ busWrites (runEdges ps s).trace = busWrites s.trace := by
  induction ps generalizing s n with
  | nil => exact ⟨hv, rfl⟩
  | cons q qs ih =>
    obtain ⟨hq, hqs⟩ := List.forall_mem_cons.mp hr
    rw [List.length_cons] at hn
    rw [runEdges]
    by_cases h1 : n ≤ 1
    · obtain rfl : qs = [] := List.length_eq_zero_iff.mp (by omega)
      rw [runEdges, edge_gap_last hq hs h1]
      simp [hv]
    · rw [edge_gap_more hq hs (by omega)]
      exact ih (n := n - 1) hqs (by simp [hs]) hv (by omega)

/-- Settles O49: the edge that completes the write reaches the gap with the bus released, and the gap keeps it so. -/
theorem gapKeepsTheBusQuiet : Obligations.GapKeepsTheBusQuiet := by
  intro p ps s k w last b n rest hs hv hp hd he hps hn
  have reached : edge p s = s.dropResponses.dropWrite.goTo (.gap n :: rest) := by
    rw [edge_write_ok hp hs hv hd he]
    exact respondIfDue_of_busy (by simp [State.respondIfDue, hs])
  rw [runEdges, reached]
  have hseq : (s.dropResponses.dropWrite.goTo (.gap n :: rest)).seq = .busy k w last (.gap n :: rest) := by simp [hs]
  simpa using runEdges_gap_quiet hps hseq rfl hn

end Sys2Proof.Machine
end

section
/-! PROOFS, family 10_state.md: the invariant of R32 to R39, kept by every step and by every clock edge. -/

namespace Sys2Proof.Machine

variable {s t : State} {p : Pins} {k : Nat} {w : CommandWord} {last : Bool} {m : MicroStep} {l rest : List MicroStep}

/-! ### A micro-step that is over -/

/-- The transport port and the counter when the micro-step `m` is over: its request dropped (R330, R331), its wait run out (R236). -/
def State.released (m : MicroStep) (s : State) : State :=
  match m with
  | .write _ => s.dropWrite
  | .bind => s.dropBind
  | .wait _ => s.setDelay 0
  | .gap _ | .respond _ _ => s

@[simp] theorem released_initialized (m : MicroStep) (s : State) : (s.released m).initialized = s.initialized := by cases m <;> rfl
@[simp] theorem released_backlight (m : MicroStep) (s : State) : (s.released m).backlight = s.backlight := by cases m <;> rfl
@[simp] theorem released_owner (m : MicroStep) (s : State) : (s.released m).owner = s.owner := by cases m <;> rfl
@[simp] theorem released_abort (m : MicroStep) (s : State) : (s.released m).abort = s.abort := by cases m <;> rfl
@[simp] theorem released_seq (m : MicroStep) (s : State) : (s.released m).seq = s.seq := by cases m <;> rfl
@[simp] theorem released_ports (m : MicroStep) (s : State) : (s.released m).ports = s.ports := by cases m <;> rfl
@[simp] theorem released_params (m : MicroStep) (s : State) : (s.released m).params = s.params := by cases m <;> rfl

/-- Whatever stood on the transport port and in the counter was the micro-step's own. -/
theorem State.PortsMatch.released (h : s.PortsMatch (m :: rest)) :
    (s.released m).bwValid = false ∧ (s.released m).bindReq = false ∧ (s.released m).delay = 0 := by
  cases m with
  | write b => exact ⟨rfl, h.noBind (by simp), h.noDelay (by simp)⟩
  | bind => exact ⟨h.noWrite (by simp), rfl, h.noDelay (by simp)⟩
  | wait ms => exact ⟨h.noWrite (by simp), h.noBind (by simp), rfl⟩
  | gap n => exact ⟨h.noWrite (by simp), h.noBind (by simp), h.noDelay (by simp)⟩
  | respond st a => exact ⟨h.noWrite (by simp), h.noBind (by simp), h.noDelay (by simp)⟩

theorem State.Grounded.released (h : s.Grounded) : (s.released m).Grounded :=
  h.congr (by simp) (by simp) (by simp) (by simp)

/-- Going on from a micro-step that neither binds nor responds. -/
theorem consistent_goOn (h : s.Consistent) (hs : s.seq = .busy k w last (m :: rest)) (hr : ∀ st a, m ≠ .respond st a)
    (hb : m ≠ .bind) : ((s.released m).goTo rest).Consistent := by
  obtain ⟨hp, hc⟩ := h.busy _ _ _ _ hs
  obtain ⟨hw, hq, hd⟩ := hp.released
  exact consistent_goTo h.grounded.released (by simpa using hs) hw hq hd
    ((hc.tail hr hb).congr (by simp) (by simp) (by simp) (by simp) (by simp))
    (fun ms hm => hp.waitBound ms (List.mem_cons_of_mem _ hm))

/-- Going on from a bind that succeeded (R34). -/
theorem consistent_bound (h : s.Consistent) (hs : s.seq = .busy k w last (.bind :: rest)) :
    (s.dropBind.setInitialized.goTo rest).Consistent := by
  obtain ⟨hp, hc⟩ := h.busy _ _ _ _ hs
  obtain ⟨hw, hq, hd⟩ := hp.released
  exact consistent_goTo (h.grounded.congr rfl rfl rfl rfl) hs hw hq hd (hc.bound.congr rfl rfl rfl rfl rfl)
    (fun ms hm => hp.waitBound ms (List.mem_cons_of_mem _ hm))

/-- Responding when a micro-step is over: at the command's own response, or at a request that failed. -/
theorem consistent_conclude (h : s.Consistent) (hs : s.seq = .busy k w last (m :: rest)) (st : Status) (a : DdramAddr) :
    ((s.released m).respond k last st a).Consistent := by
  obtain ⟨hp, hc⟩ := h.busy _ _ _ _ hs
  obtain ⟨hw, hq, hd⟩ := hp.released
  exact consistent_respond h.grounded.released hw hq hd (by simpa using hc.open_) st a

/-! ### A step -/

/-- The transport is no part of consistency. -/
theorem consistent_setTransport (h : s.Consistent) (t : Transport) : (s.setTransport t).Consistent := by
  refine ⟨by simpa using h.legal, h.owner, h.abort, fun hi => ?_, fun k w last l hs => ?_⟩
  · have hp := h.idle hi
    exact ⟨hp.write, hp.bind, hp.delay, hp.delayBound, hp.waitBound⟩
  · obtain ⟨hp, hc⟩ := h.busy _ _ _ _ hs
    exact ⟨⟨hp.write, hp.bind, hp.delay, hp.delayBound, hp.waitBound⟩, hc.congr rfl rfl rfl rfl rfl⟩

/-- The micro-steps of a command, run to its response or to silence. -/
theorem consistent_runSteps (h : s.Consistent) (hs : s.seq = .busy k w last l) : (runSteps k last l s).Consistent := by
  induction l generalizing s with
  | nil => exact h
  | cons m rest ih =>
    cases m with
    | respond st a => exact consistent_conclude h hs st a
    | gap n => exact ih (consistent_goOn h hs (by simp) (by simp)) (by simp [hs])
    | wait ms => exact ih (consistent_goOn h hs (by simp) (by simp)) (by simp [hs])
    | write b =>
      have hp := consistent_presentWrite h hs
      rw [runSteps]
      split
      · exact hp
      next t _ => exact ih (consistent_goOn (consistent_setTransport hp t) hs (by simp) (by simp)) (by simp [hs])
      next t _ => exact consistent_conclude (consistent_setTransport hp t) hs _ _
    | bind =>
      have hp := consistent_presentBind h hs
      rw [runSteps]
      split
      · exact hp
      next t _ => exact ih (consistent_bound (consistent_setTransport hp t) hs) (by simp [hs])
      next t _ => exact consistent_conclude (consistent_setTransport hp t) hs _ _

theorem consistent_finish (h : s.Consistent) : s.finish.Consistent := by
  cases hs : s.seq with
  | idle => rwa [finish_idle hs]
  | busy k w last l => rw [finish_busy hs]; exact consistent_runSteps h hs

/-- A command completed, from wherever it stands. -/
theorem consistent_completeCommand (h : s.Consistent) (hc : completeCommand s = .next t) : t.Consistent := by
  cases hs : s.seq with
  | idle =>
    rw [completeCommand_idle hs] at hc
    cases hc
    exact h
  | busy k w last l =>
    cases l with
    | nil =>
      simp only [completeCommand, hs, execWord_eq] at hc
      obtain ⟨-, -, rfl⟩ := runCommand_next hc
      exact consistent_finish (consistent_startWord h hs w).1
    | cons m rest =>
      rw [completeCommand_busy hs] at hc
      cases hc
      exact consistent_runSteps h hs

/-- A step completes the command that stands in the sequencer once a word may have been accepted (R77). -/
theorem step_of_legal (h : s.legal = true) : step s = completeCommand s.dropResponses.acceptIfIdle := if_pos h

/-- Settles O41: dropping the responses, accepting a word and completing its command each keep the invariant. -/
theorem stepKeepsTheStateConsistent : Obligations.StepKeepsTheStateConsistent := by
  intro s t h hstep
  rw [step_of_legal h.legal] at hstep
  exact consistent_completeCommand (consistent_acceptIfIdle (consistent_dropResponses h)) hstep

/-! ### A clock edge -/

theorem setDelay_of_delay {n : Nat} (h : s.delay = n) : s.setDelay n = s := by
  subst h
  rfl

/-- Reset leaves nothing outstanding and no transaction open. -/
theorem consistent_applyReset (h : s.Consistent) : s.applyReset.Consistent :=
  ⟨by simpa using h.legal, by simp, by simp, fun _ => ⟨by simp, by simp, by simp, by simp, by simp⟩, by simp⟩

theorem consistent_respondIfDue (h : s.Consistent) : s.respondIfDue.Consistent := by
  rcases respondIfDue_cases s with e | ⟨k, w, last, st, a, rest, hs, e⟩ <;> rw [e]
  · exact h
  · exact consistent_conclude h hs st a

/-- A cycle of a gap that is not its last. -/
theorem consistent_gap_more (h : s.Consistent) {n : Nat} (hs : s.seq = .busy k w last (.gap n :: rest)) (n' : Nat) :
    (s.setSteps (.gap n' :: rest)).Consistent := by
  obtain ⟨hp, hc⟩ := h.busy _ _ _ _ hs
  have hresp : oneResponse (.gap n' :: rest) = true := by cases rest <;> exact hc.response
  exact consistent_of_busy (l := .gap n' :: rest) (h.grounded.congr rfl rfl rfl rfl) (by rw [setSteps_seq, hs]; rfl)
    ⟨by simp [hp.noWrite], by simp [hp.noBind], by simp [hp.noDelay], hp.delayBound, by simpa using hp.waitBound⟩
    ⟨hc.port, hc.open_, hc.owner, hc.enabled, hc.carry, hresp⟩

/-- A cycle of a wait that is not its last. -/
theorem consistent_wait_more (h : s.Consistent) {ms : Nat} (hs : s.seq = .busy k w last (.wait ms :: rest)) :
    (s.setDelay (s.delay - 1)).Consistent := by
  obtain ⟨hp, hc⟩ := h.busy _ _ _ _ hs
  exact consistent_of_busy (h.grounded.congr rfl rfl rfl rfl) hs
    ⟨hp.write, hp.bind, fun _ => ⟨ms, rest, rfl⟩, le_trans (Nat.sub_le _ _) hp.delayBound, hp.waitBound⟩
    (hc.congr rfl rfl rfl rfl rfl)

/-- An edge of a busy sequencer, micro-step by micro-step. -/
theorem consistent_edgeBusy (h : s.Consistent) (hs : s.seq = .busy k w last l) : (edgeBusy p k w last l s).Consistent := by
  rcases l with _ | ⟨b | _ | ms | n | ⟨st, a⟩, rest⟩ <;> simp only [edgeBusy]
  case nil => exact consistent_respondIfDue (consistent_startWord h hs w).1
  case respond => exact consistent_conclude h hs st a
  case gap =>
    split
    · exact consistent_respondIfDue (consistent_goOn h hs (by simp) (by simp))
    · exact consistent_gap_more h hs _
  case wait =>
    split
    next hd =>
      have := consistent_goOn h hs (by simp) (by simp)
      rw [State.released, setDelay_of_delay hd] at this
      exact consistent_respondIfDue this
    · exact consistent_wait_more h hs
  case write =>
    split
    · exact consistent_presentWrite h hs
    split
    · exact h
    split
    · exact consistent_conclude h hs _ _
    · exact consistent_respondIfDue (consistent_goOn h hs (by simp) (by simp))
  case bind =>
    split
    · exact consistent_presentBind h hs
    split
    · exact h
    split
    · exact consistent_conclude h hs _ _
    · exact consistent_respondIfDue (consistent_bound h hs)

/-- Settles O42: reset, the acceptance of a word, and every edge of a busy sequencer keep the invariant. -/
theorem clockEdgeKeepsTheStateConsistent : Obligations.ClockEdgeKeepsTheStateConsistent := by
  intro p s h
  unfold edge
  split
  · exact consistent_applyReset h
  split
  · exact consistent_acceptIfIdle (consistent_dropResponses h)
  next hs => exact consistent_edgeBusy (consistent_dropResponses h) hs

end Sys2Proof.Machine
end

section
/-! PROOFS, family 10_state.md: what a command changes and what it leaves (R33 to R45), and whose words a step takes (R36). -/

namespace Sys2Proof.Machine

variable {s t : State} {i : Instr} {k : Nat} {w : CommandWord} {last : Bool} {l : List MicroStep}

/-! ### Flags -/

/-- A meaning that answers has run the micro-steps its start has loaded. -/
theorem exec_next (h : exec i s = .next t) :
    ∃ k last l, (i ≠ .enable → .bind ∉ l) ∧ t = runSteps k last l (start i s) := by
  rw [exec_eq] at h
  obtain ⟨-, ⟨k, w, last, l', hb⟩, rfl⟩ := runCommand_next h
  obtain ⟨-, -, -, -, -, -, -, l, hl, hbind⟩ := start_keeps i s
  exact ⟨k, last, l, hbind, finish_busy (w := w) (by rw [hl, hb, withSteps_busy])⟩

/-- Settles O25: the start of a command writes its own flags only, and its micro-steps write none but `initialized`, by a bind. -/
theorem flagsAreWrittenByTheirCommandsOnly : Obligations.FlagsAreWrittenByTheirCommandsOnly := by
  intro i s t h
  obtain ⟨k, last, l, hbind, rfl⟩ := exec_next h
  obtain ⟨hpower, hbl, hinit, hparams, hdraws, hports, htrace, -⟩ := start_keeps i s
  refine ⟨fun h₁ h₂ => ?_, fun h₁ h₂ => ?_, fun hi => ?_, fun _ hi => ?_, ?_, ?_, ?_, ?_⟩
  · rw [runSteps_power, hpower h₁ h₂]
  · rw [runSteps_backlight, hbl h₁ h₂]
  · rw [runSteps_initialized _ _ _ _ (hbind hi), hinit]
  · exact runSteps_stays_initialized _ _ _ _ (hinit.trans hi)
  · rw [runSteps_params, hparams]
  · rw [runSteps_arbDraws, hdraws]
  · rw [runSteps_pending, hports]
  · rw [← htrace]
    exact runSteps_trace ..

/-! ### Commands that need no bus -/

/-- A command that needs no bus loads its response alone. -/
theorem loads_of_no_bus (hi : i ≠ .enable) (hn : needsEnable s.params i = false) :
    ∃ st a, (loads i s).2 = [.respond st a] := by
  cases i with
  | enable => exact absurd rfl hi
  | powerOn => exact ⟨_, _, rfl⟩
  | powerOff => exact ⟨_, _, rfl⟩
  | blOn => exact ⟨_, _, if_neg (by simpa [needsEnable] using hn)⟩
  | blOff => exact ⟨_, _, if_neg (by simpa [needsEnable] using hn)⟩
  | resolve line col =>
    simp only [loads]
    split <;> exact ⟨_, _, rfl⟩
  | clear => cases hn
  | home => cases hn
  | setpos line col => cases hn
  | send d v => cases hn

/-- The flag a pure command writes at once, if any, is the power-on flag. -/
theorem loads_of_pure (hi : i = .powerOn ∨ i = .powerOff ∨ ∃ line col, i = .resolve line col) :
    ∃ v, (loads i s).1 = s.setPower v := by
  rcases hi with rfl | rfl | ⟨line, col, rfl⟩
  · exact ⟨true, rfl⟩
  · exact ⟨false, rfl⟩
  · exact ⟨s.power, rfl⟩

/-- A pure command writes at most the power-on flag, and answers, whether or not it passes its checks. -/
theorem start_of_pure (hi : i = .powerOn ∨ i = .powerOff ∨ ∃ line col, i = .resolve line col) :
    ∃ v st a, start i s = (s.setPower v).goTo [.respond st a] := by
  by_cases hp : passes i s
  · obtain ⟨v, hv⟩ := loads_of_pure hi (s := s)
    obtain ⟨st, a, hl⟩ : ∃ st a, (loads i s).2 = [.respond st a] := by
      apply loads_of_no_bus <;> rcases hi with rfl | rfl | ⟨line, col, rfl⟩ <;> simp [needsEnable]
    exact ⟨v, st, a, by rw [start_of_passes hp, hv, hl]⟩
  · obtain ⟨st, -, h⟩ := start_of_not_passes hp
    exact ⟨s.power, st, 0#7, h⟩

/-- Settles O26: a pure command concludes, with no event but its response, a state that differs in the power-on flag only. -/
theorem pureCommandsLeaveTheBus : Obligations.PureCommandsLeaveTheBus := by
  intro i s t hi h
  rw [exec_eq] at h
  obtain ⟨-, ⟨k, w, last, l, hb⟩, rfl⟩ := runCommand_next h
  obtain ⟨v, st, a, hs⟩ := start_of_pure hi (s := s)
  rw [hs, finish_goTo_respond (s := s.setPower v) hb]
  simp [busWrites, waits]

/-- A command that passes its checks and needs no bus makes no bus write. -/
theorem busWrites_of_no_bus (h : s.Executing k last) (hp : passes i s) (hi : i ≠ .enable)
    (hn : needsEnable s.params i = false) (hex : exec i s = .next t) : busWrites t.trace = busWrites s.trace := by
  obtain ⟨st, a, hl⟩ := loads_of_no_bus hi hn
  rw [exec_of_passes h hp, hl, runSteps] at hex
  cases hex
  simp [eventOnArrival, busWrites]

/-- A command that does not pass its checks makes none either. -/
theorem busWrites_of_not_passes (h : s.Executing k last) (hp : ¬ passes i s) (hex : exec i s = .next t) :
    busWrites t.trace = busWrites s.trace := by
  obtain ⟨st, -, rfl⟩ := exec_of_not_passes h hp hex
  simp [busWrites]

/-- Settles O27: before ENABLE a command that passes its checks needs no bus, and while off no gated one passes them. -/
theorem noBusWriteBeforeEnableOrWhileOff : Obligations.NoBusWriteBeforeEnableOrWhileOff := by
  intro i s t k last h hex
  refine ⟨fun hi hinit => ?_, fun hg hpow => ?_⟩
  · by_cases hp : passes i s
    · have hn : needsEnable s.params i = false := by
        obtain ⟨-, -, hen⟩ := hp
        simpa [hinit] using hen
      exact busWrites_of_no_bus h hp hi hn hex
    · exact busWrites_of_not_passes h hp hex
  · have hp : ¬ passes i s := fun ⟨_, hgate, _⟩ => by simp [hgate hg] at hpow
    exact busWrites_of_not_passes h hp hex

/-! ### Whose words are taken -/

/-- Reading a word's checks and its decoding take nothing from the ports. -/
@[simp] theorem startWord_ports (w : CommandWord) (s : State) : (startWord w s).ports = s.ports := by
  unfold startWord
  split
  · rfl
  split
  next i _ =>
    obtain ⟨-, -, -, -, -, hports, -⟩ := start_keeps i s
    exact hports
  · rfl

theorem finish_pending (s : State) : s.finish.ports.map Port.pending = s.ports.map Port.pending := by
  unfold State.finish
  split
  · rfl
  · exact runSteps_pending ..

/-- Completing a command takes no further word. -/
theorem completeCommand_pending (h : completeCommand s = .next t) : t.ports.map Port.pending = s.ports.map Port.pending := by
  unfold completeCommand at h
  split at h
  · cases h
    rfl
  · rw [execWord_eq] at h
    obtain ⟨-, -, rfl⟩ := runCommand_next h
    rw [finish_pending, startWord_ports]
  · cases h
    exact finish_pending s

/-- Nor does an edge of a busy sequencer. -/
theorem edgeBusy_pending (p : Pins) (k : Nat) (w : CommandWord) (last : Bool) (l : List MicroStep) (s : State) :
    (edgeBusy p k w last l s).ports.map Port.pending = s.ports.map Port.pending := by
  rcases l with _ | ⟨b | _ | ms | n | ⟨st, a⟩, rest⟩ <;> simp only [edgeBusy]
  case nil => simp
  case respond => simp
  all_goals split_ifs <;> simp

theorem dropResponses_pending (s : State) : s.dropResponses.ports.map Port.pending = s.ports.map Port.pending := by
  simp

/-- While a transaction is open, the words of every requester but its owner stay as they are. -/
theorem acceptIfIdle_pending_other {j : Nat} (ho : s.owner = some k) (hj : j ≠ k) :
    (s.acceptIfIdle.ports[j]?).map Port.pending = (s.ports[j]?).map Port.pending := by
  rcases acceptIfIdle_cases s with e | ⟨k', r, -, ha, -, e⟩ <;> rw [e]
  obtain rfl : k = k' := by simpa [ho] using arbitrate_owner ha
  simp [Ne.symm hj]

/-- Settles O35: the owner alone is accepted from, and nothing else of a step or an edge takes a word. -/
theorem openTransactionExcludesOtherRequesters : Obligations.OpenTransactionExcludesOtherRequesters := by
  intro s k j ho hj
  -- what is the same for all ports together is the same for port `j`
  have at_port : ∀ {ps qs : List Port}, ps.map Port.pending = qs.map Port.pending →
      (ps[j]?).map Port.pending = (qs[j]?).map Port.pending := fun h => by
    rw [← List.getElem?_map, ← List.getElem?_map, h]
  have accepted : (s.dropResponses.acceptIfIdle.ports[j]?).map Port.pending = (s.ports[j]?).map Port.pending := by
    rw [acceptIfIdle_pending_other (s := s.dropResponses) ho hj, at_port (dropResponses_pending s)]
  refine ⟨fun t h => ?_, fun p => ?_⟩
  · by_cases hl : s.legal = true
    · rw [step_of_legal hl] at h
      rw [at_port (completeCommand_pending h), accepted]
    · rw [step_of_illegal hl] at h
      cases h
  · unfold edge
    split
    · exact at_port (dropResponses_pending s)
    split
    · exact accepted
    · exact at_port ((edgeBusy_pending ..).trans (dropResponses_pending s))

/-! ### The step and the instruction -/

/-- A word that decodes to `i` starts as `i` does, the abort check being the same. -/
theorem startWord_of_decode (hd : decode w = .ok i) (s : State) : startWord w s = start i s := by
  unfold startWord
  split
  next ha => rw [start_of_abort i ha, answerWith_eq]
  · rw [hd]

theorem execWord_of_decode (hd : decode w = .ok i) (s : State) : execWord w s = exec i s := by
  rw [execWord_eq, exec_eq, runCommand, runCommand, startWord_of_decode hd]

theorem completeCommand_accepted (hs : s.seq = .busy k w last []) : completeCommand s = execWord w s := by
  simp [completeCommand, hs]

/-- Settles O30: a step accepts where the block is IDLE, and then completes the command that stands in the sequencer. -/
theorem stepRunsTheDecodedInstruction : Obligations.StepRunsTheDecodedInstruction := by
  intro s hl
  rw [step_of_legal hl]
  refine ⟨fun hi ha => ?_, fun k r i hi ha hp hd => ?_, fun k w last i hs hd => ?_, fun k w last m steps hs => ?_⟩
  · rw [acceptIfIdle_of_none (s := s.dropResponses) hi (by simpa using ha), completeCommand_idle (s := s.dropResponses) hi]
  · rw [acceptIfIdle_of_arbitrate (s := s.dropResponses) hi (by simpa using ha) (by simpa using hp),
      completeCommand_accepted rfl, execWord_of_decode hd]
  · rw [acceptIfIdle_of_busy (s := s.dropResponses) hs, completeCommand_accepted (s := s.dropResponses) hs,
      execWord_of_decode hd]
  · rw [acceptIfIdle_of_busy (s := s.dropResponses) hs, completeCommand_busy (s := s.dropResponses) hs]

/-! ### The reset state -/

/-- Settles O39: the table of R350, and the one port of the reset state is quiet. -/
theorem resetStateHasTheResetValues : Obligations.ResetStateHasTheResetValues := by
  refine ⟨rfl, rfl, rfl, rfl, rfl, rfl, rfl, rfl, rfl, rfl, fun k => ?_⟩
  cases k <;> rfl

end Sys2Proof.Machine
end

section
/-! PROOFS, family 10_state.md: the cycle level computes the command level (R38, R77). -/

namespace Sys2Proof.Machine

variable {s : State} {p : Pins} {k : Nat} {w : CommandWord} {last : Bool} {m : MicroStep} {l rest : List MicroStep}

/-! ### One edge -/

/-- A busy sequencer with micro-steps left is completed by running them. -/
theorem completeCommand_of_steps (hs : s.seq = .busy k w last l) (hl : l ≠ []) :
    completeCommand s = .next (runSteps k last l s) := by
  obtain ⟨m, rest, rfl⟩ := List.exists_cons_of_ne_nil hl
  exact completeCommand_busy hs

/-- Going on to the micro-steps `rest`, the response given at once if it is due, leaves `rest` to be run. -/
theorem completeCommand_goTo (hs : s.seq = .busy k w last l) (hr : rest ≠ []) (t : Transport) :
    completeCommand ((s.goTo rest).respondIfDue.setTransport t) = .next (runSteps k last rest ((s.setTransport t).goTo rest)) := by
  rw [respondIfDue_setTransport, completeCommand_respondIfDue]
  exact completeCommand_of_steps (w := w) (by simp [hs]) hr

/-- A consistent accepted word: to decode it and to run what it loads is to complete it. -/
theorem completeCommand_startWord (h : s.Consistent) (hs : s.seq = .busy k w last []) :
    completeCommand (startWord w s) = completeCommand s := by
  obtain ⟨-, l, hl, hl'⟩ := consistent_startWord h hs w
  rw [completeCommand_of_steps hl' hl, completeCommand_accepted hs, execWord_eq, runCommand_busy _ h.legal hs, finish_busy hl']

theorem setSteps_setTransport (l : List MicroStep) (s : State) (t : Transport) :
    (s.setSteps l).setTransport t = (s.setTransport t).setSteps l := rfl

/-- Where the sequencer goes on to does not depend on where it stands. -/
theorem goTo_setSteps (l l' : List MicroStep) (s : State) : (s.setSteps l).goTo l' = s.goTo l' := by
  simp [State.goTo, State.setSteps]

/-- A request is presented once. -/
theorem presentWrite_of_valid (hv : s.bwValid = true) (b : Byte) : s.presentWrite b = s := by
  cases s
  simp_all [State.presentWrite]

theorem presentBind_of_req (hv : s.bindReq = true) : s.presentBind = s := by
  cases s
  simp_all [State.presentBind]

/-- Presenting a write that is then run changes nothing of the run. -/
theorem runSteps_presentWrite (b : Byte) (s : State) :
    runSteps k last (.write b :: rest) (s.presentWrite b) = runSteps k last (.write b :: rest) s := by
  simp only [runSteps, presentWrite_of_valid (s := s.presentWrite b) rfl, presentWrite_transport]

theorem runSteps_presentBind (s : State) :
    runSteps k last (.bind :: rest) s.presentBind = runSteps k last (.bind :: rest) s := by
  simp only [runSteps, presentBind_of_req (s := s.presentBind) rfl, presentBind_transport]

/-- More micro-steps follow one that does not respond. -/
theorem oneResponse_tail_ne_nil (h : oneResponse (m :: rest) = true) (hm : ∀ st a, m ≠ .respond st a) : rest ≠ [] := by
  rintro rfl
  cases m <;> simp [oneResponse] at h hm

/-- What an edge at a write does: the write is presented, held, done, or failed, and the last two sample an answer (R330). -/
theorem edgeBusy_write_cases {b : Byte} (p : Pins) (hs : s.seq = .busy k w last (.write b :: rest)) :
    (sampledAnswer p s = [] ∧ edgeBusy p k w last (.write b :: rest) s = s.presentWrite b) ∨
    (sampledAnswer p s = [] ∧ edgeBusy p k w last (.write b :: rest) s = s) ∨
    (s.bwValid = true ∧ sampledAnswer p s = [.ok] ∧
      edgeBusy p k w last (.write b :: rest) s = (s.dropWrite.goTo rest).respondIfDue) ∨
    (s.bwValid = true ∧ sampledAnswer p s = [.err] ∧
      edgeBusy p k w last (.write b :: rest) s = s.dropWrite.respond k last .errTransport 0#7) := by
  cases hv : s.bwValid with
  | false => exact .inl (by simp [sampledAnswer, edgeBusy, hs, hv])
  | true =>
    cases hd : p.bwDone with
    | false => exact .inr (.inl (by simp [sampledAnswer, edgeBusy, hs, hv, hd]))
    | true =>
      cases he : p.bwErr with
      | false => exact .inr (.inr (.inl (by simp [sampledAnswer, edgeBusy, hs, hv, hd, he])))
      | true => exact .inr (.inr (.inr (by simp [sampledAnswer, edgeBusy, hs, hv, hd, he])))

/-- What an edge at a bind does, in the same way (R331). -/
theorem edgeBusy_bind_cases (p : Pins) (hs : s.seq = .busy k w last (.bind :: rest)) :
    (sampledAnswer p s = [] ∧ edgeBusy p k w last (.bind :: rest) s = s.presentBind) ∨
    (sampledAnswer p s = [] ∧ edgeBusy p k w last (.bind :: rest) s = s) ∨
    (s.bindReq = true ∧ sampledAnswer p s = [.ok] ∧
      edgeBusy p k w last (.bind :: rest) s = (s.dropBind.setInitialized.goTo rest).respondIfDue) ∨
    (s.bindReq = true ∧ sampledAnswer p s = [.err] ∧
      edgeBusy p k w last (.bind :: rest) s = s.dropBind.respond k last .errTransport 0#7) := by
  cases hv : s.bindReq with
  | false => exact .inl (by simp [sampledAnswer, edgeBusy, hs, hv])
  | true =>
    cases hd : p.bindDone with
    | false => exact .inr (.inl (by simp [sampledAnswer, edgeBusy, hs, hv, hd]))
    | true =>
      cases he : p.bindErr with
      | false => exact .inr (.inr (.inl (by simp [sampledAnswer, edgeBusy, hs, hv, hd, he])))
      | true => exact .inr (.inr (.inr (by simp [sampledAnswer, edgeBusy, hs, hv, hd, he])))

/-- Each of these leaves the command's outcome, given the answer that the edge samples. -/
theorem completeCommand_edge_write {b : Byte} (hs : s.seq = .busy k w last (.write b :: rest)) (hr : rest ≠ [])
    (t : Transport) :
    completeCommand ((edgeBusy p k w last (.write b :: rest) s).setTransport t) =
      .next (runSteps k last (.write b :: rest) (s.setTransport (t.push (sampledAnswer p s)))) := by
  rcases edgeBusy_write_cases p hs with ⟨ha, e⟩ | ⟨ha, e⟩ | ⟨hv, ha, e⟩ | ⟨hv, ha, e⟩ <;> rw [ha, e]
  · rw [push_nil, ← runSteps_presentWrite]
    exact completeCommand_busy (s := (s.presentWrite b).setTransport t) hs
  · exact completeCommand_busy (s := s.setTransport t) hs
  · rw [completeCommand_goTo (s := s.dropWrite) hs hr, runSteps, presentWrite_of_valid (s := s.setTransport (t.push [.ok])) hv]
    rfl
  · rw [completeCommand_idle rfl, runSteps, presentWrite_of_valid (s := s.setTransport (t.push [.err])) hv]
    rfl

/-- And so for a bind. -/
theorem completeCommand_edge_bind (hs : s.seq = .busy k w last (.bind :: rest)) (hr : rest ≠ []) (t : Transport) :
    completeCommand ((edgeBusy p k w last (.bind :: rest) s).setTransport t) =
      .next (runSteps k last (.bind :: rest) (s.setTransport (t.push (sampledAnswer p s)))) := by
  rcases edgeBusy_bind_cases p hs with ⟨ha, e⟩ | ⟨ha, e⟩ | ⟨hv, ha, e⟩ | ⟨hv, ha, e⟩ <;> rw [ha, e]
  · rw [push_nil, ← runSteps_presentBind]
    exact completeCommand_busy (s := s.presentBind.setTransport t) hs
  · exact completeCommand_busy (s := s.setTransport t) hs
  · rw [completeCommand_goTo (s := s.dropBind.setInitialized) hs hr, runSteps, presentBind_of_req (s := s.setTransport (t.push [.ok])) hv]
    rfl
  · rw [completeCommand_idle rfl, runSteps, presentBind_of_req (s := s.setTransport (t.push [.err])) hv]
    rfl

/-- An edge of a busy sequencer leaves the command's outcome what it was, given the answer that the edge samples. -/
theorem completeCommand_edgeBusy (h : s.Consistent) (hs : s.seq = .busy k w last l) (t : Transport) :
    completeCommand ((edgeBusy p k w last l s).setTransport t) =
      completeCommand (s.setTransport (t.push (sampledAnswer p s))) := by
  cases l with
  | nil =>
    have hsam : sampledAnswer p s = [] := by simp [sampledAnswer, hs]
    rw [hsam, push_nil, edgeBusy, respondIfDue_setTransport, completeCommand_respondIfDue, ← startWord_setTransport,
      completeCommand_startWord (consistent_setTransport h t) hs]
  | cons m rest =>
    obtain ⟨hp, hc⟩ := h.busy _ _ _ _ hs
    rw [completeCommand_busy (s := s.setTransport (t.push _)) hs]
    cases m with
    | write b => exact completeCommand_edge_write hs (oneResponse_tail_ne_nil hc.response (by simp)) t
    | bind => exact completeCommand_edge_bind hs (oneResponse_tail_ne_nil hc.response (by simp)) t
    | respond st a =>
      have hsam : sampledAnswer p s = [] := by simp [sampledAnswer, hs]
      rw [hsam, edgeBusy, completeCommand_idle rfl]
      rfl
    | gap n =>
      have hsam : sampledAnswer p s = [] := by simp [sampledAnswer, hs]
      rw [hsam, push_nil, runSteps, edgeBusy]
      split
      · exact completeCommand_goTo hs (oneResponse_tail_ne_nil hc.response (by simp)) t
      · rw [setSteps_setTransport,
          completeCommand_busy (k := k) (w := w) (last := last) (by rw [setSteps_seq, setTransport_seq, hs, withSteps_busy]),
          runSteps, goTo_setSteps]
    | wait ms =>
      have hsam : sampledAnswer p s = [] := by simp [sampledAnswer, hs]
      rw [hsam, push_nil, runSteps, edgeBusy]
      split
      next hd =>
        rw [completeCommand_goTo hs (oneResponse_tail_ne_nil hc.response (by simp)) t,
          setDelay_of_delay (s := s.setTransport t) hd]
      · rw [completeCommand_busy (s := (s.setDelay (s.delay - 1)).setTransport t) hs, runSteps]
        rfl

/-- The answer sampled at an edge does not depend on the responses standing. -/
@[simp] theorem sampledAnswer_dropResponses (p : Pins) (s : State) : sampledAnswer p s.dropResponses = sampledAnswer p s := rfl

/-- Settles O43: the responses dropped, the edge is one of a busy sequencer. -/
theorem clockEdgeLeavesTheOutcome : Obligations.ClockEdgeLeavesTheOutcome := by
  intro p s t h hb hr
  cases hs : s.seq with
  | idle => exact absurd hs hb
  | busy k w last l => rw [edge_busy hr hs, completeCommand_edgeBusy (consistent_dropResponses h) hs, sampledAnswer_dropResponses]

/-! ### A run of edges -/

/-- The transport has no part in the acceptance of a word. -/
theorem acceptIfIdle_setTransport (s : State) (t : Transport) :
    (s.setTransport t).acceptIfIdle = s.acceptIfIdle.setTransport t := by
  cases hq : s.seq with
  | busy k w last l => rw [acceptIfIdle_of_busy hq, acceptIfIdle_of_busy (s := s.setTransport t) hq]
  | idle =>
    cases ha : s.arbitrate with
    | none => rw [acceptIfIdle_of_none hq ha, acceptIfIdle_of_none (s := s.setTransport t) hq ha]
    | some k =>
      obtain ⟨r, hp⟩ := arbitrate_presented ha
      rw [acceptIfIdle_of_arbitrate hq ha hp, acceptIfIdle_of_arbitrate (s := s.setTransport t) hq ha hp]
      rfl

/-- A state with the ports of one whose responses have dropped has none standing. -/
theorem dropResponses_of_ports {u : State} (h : u.ports = s.dropResponses.ports) : u.dropResponses = u := by
  rw [dropResponses_eq_self, h]
  exact dropResponses_eq_self.mp (dropResponses_dropResponses s)

theorem dropResponses_accept (k : Nat) (r : Request) (s : State) :
    (s.accept k r).dropResponses = s.dropResponses.accept k r := by
  have hports : (s.accept k r).dropResponses.ports = (s.dropResponses.accept k r).ports := by
    apply List.ext_getElem?
    intro j
    simp only [dropResponses_ports, accept_ports, List.getElem?_map, List.getElem?_modify]
    by_cases hj : k = j <;> simp [hj, Function.comp_def]
  simpa [State.accept, State.dropResponses] using hports

/-- Accepting a word makes no response. -/
theorem dropResponses_acceptIfIdle (s : State) : s.dropResponses.acceptIfIdle.dropResponses = s.dropResponses.acceptIfIdle := by
  rcases acceptIfIdle_cases s.dropResponses with e | ⟨k, r, -, -, -, e⟩ <;> rw [e]
  · exact dropResponses_dropResponses s
  · rw [dropResponses_accept, dropResponses_dropResponses]

/-- An edge of a busy sequencer that leaves it busy has left the ports as they were. -/
theorem edgeBusy_ports (hb : (edgeBusy p k w last l s).seq ≠ .idle) : (edgeBusy p k w last l s).ports = s.ports := by
  have not_due : ∀ {u : State}, u.respondIfDue.seq ≠ .idle → u.respondIfDue.ports = u.ports := fun h => by
    rw [respondIfDue_of_busy h]
  rcases l with _ | ⟨b | _ | ms | n | ⟨st, a⟩, rest⟩ <;> simp only [edgeBusy] at hb ⊢
  case nil => rw [not_due hb, startWord_ports]
  case respond => exact absurd rfl hb
  case gap | wait =>
    split_ifs at hb ⊢
    · exact not_due hb
    · rfl
  case write | bind =>
    split_ifs at hb ⊢
    · rfl
    · rfl
    · exact absurd rfl hb
    · exact not_due hb

/-- An edge that leaves the block busy has made no response. -/
theorem dropResponses_edge (hb : (edge p s).seq ≠ .idle) : (edge p s).dropResponses = edge p s := by
  unfold edge at hb ⊢
  split_ifs at hb ⊢
  · exact absurd rfl hb
  cases hs : s.seq with
  | idle => exact dropResponses_acceptIfIdle s
  | busy k w last l =>
    rw [hs] at hb
    exact dropResponses_of_ports (edgeBusy_ports hb)

/-- From a consistent state in which no response stands, the edges up to the first at which the block is IDLE complete the
command: induction over the edges, one `completeCommand_edgeBusy` each. -/
theorem completeCommand_runEdges {ps : List Pins} {s : State} (h : s.Consistent) (hn : s.seq ≠ .idle → s.dropResponses = s)
    (hr : ∀ p ∈ ps, p.rst = false) (hb : ∀ n, n < ps.length → (runEdges (ps.take n) s).seq ≠ .idle)
    (hi : (runEdges ps s).seq = .idle) (t : Transport) :
    completeCommand (s.setTransport (t.push (sampledAnswers ps s))) = .next ((runEdges ps s).setTransport t) := by
  induction ps generalizing s with
  | nil => exact completeCommand_idle hi
  | cons p ps ih =>
    obtain ⟨hp, hps⟩ := List.forall_mem_cons.mp hr
    have hs : s.seq ≠ .idle := hb 0 (by simp)
    have hedge := clockEdgeLeavesTheOutcome p s (t.push (sampledAnswers ps (edge p s))) h hs hp
    rw [hn hs, ← push_append] at hedge
    exact hedge.symm.trans (ih (clockEdgeKeepsTheStateConsistent p s h) dropResponses_edge hps
      (fun n hlt => hb (n + 1) (by simpa using hlt)) hi)

/-- Settles O44: the first edge accepts the word, as the step does, and the others complete it. -/
theorem clockEdgesComputeTheStep : Obligations.ClockEdgesComputeTheStep := by
  intro s ps t h hs hne hr hb hi
  obtain ⟨p, ps, rfl⟩ := List.exists_cons_of_ne_nil hne
  obtain ⟨hp, hps⟩ := List.forall_mem_cons.mp hr
  have hedge : edge p s = s.dropResponses.acceptIfIdle := by simp [edge, hp, hs]
  have hsam : sampledAnswers (p :: ps) s = sampledAnswers ps (edge p s) := by simp [sampledAnswers, sampledAnswer, hs]
  have haccept : ∀ u, (s.setTransport u).dropResponses.acceptIfIdle = (edge p s).setTransport u := fun u => by
    rw [hedge, ← acceptIfIdle_setTransport]
    rfl
  rw [step_of_legal (by simpa using h.legal), hsam, haccept]
  exact completeCommand_runEdges (clockEdgeKeepsTheStateConsistent p s h) dropResponses_edge hps
    (fun n hlt => hb (n + 1) (by omega) (by simpa using hlt)) hi t

end Sys2Proof.Machine
end

section
/-! PROOFS, family 20_memory.md: the backlight bit on the expander port (R79). -/

namespace Sys2Proof.Machine

variable {s t : State} {i : Instr} {k : Nat} {last : Bool} {l : List MicroStep}

/-- The bus writes a run emits are writes of its micro-steps, so they carry what those carry. -/
theorem pinLevel_of_mem_emitted {p : PinMap} {bl : Bool} (h : writesCarry p bl l = true) :
    ∀ b ∈ busWrites (emitted l), pinLevel p.bl b = bl := by
  induction l with
  | nil => simp [emitted, busWrites]
  | cons m rest ih =>
    cases m with
    | write b =>
      obtain ⟨hb, hrest⟩ : pinLevel p.bl b = bl ∧ writesCarry p bl rest = true := by simpa [writesCarry] using h
      simpa [emitted, ownEvent, busWrites, hb] using ih hrest
    | respond st a => simp [emitted, busWrites]
    | bind | wait _ | gap _ => simpa [emitted, ownEvent, busWrites] using ih h

/-- The writes up to an event, with those of that event, come first among the writes of all. -/
theorem busWrites_upTo_prefix (pre : List Event) (e : Event) (post : List Event) :
    busWrites (pre ++ [e]) <+: busWrites (pre ++ e :: post) :=
  ⟨busWrites post, by rw [← busWrites_append, List.append_assoc, List.singleton_append]⟩

/-- A command that passes its checks leaves the backlight flag as it stood when the micro-steps were loaded, and makes the first of
their bus writes: all of them, or those up to the request that fails or is not answered. -/
theorem exec_busWrites_prefix (h : s.Executing k last) (hp : passes i s) (hex : exec i s = .next t) :
    t.backlight = (loads i s).1.backlight ∧
      ∃ es, t.trace = s.trace ++ es ∧ busWrites es <+: busWrites (emitted (loads i s).2) := by
  have response : ∀ es st a, busWrites (es ++ [.response k st a]) = busWrites es := by simp [busWrites]
  rcases exec_cases h hp hex with ⟨t', st, a, -, rfl⟩ | ⟨pre, e, post, t', -, hl, rfl⟩ | ⟨pre, e, post, t', _, _, -, hl, -, rfl⟩
  · exact ⟨rfl, emitted (loads i s).2 ++ [.response k st a], by simp [State.ranThrough], by rw [response]⟩
  · refine ⟨rfl, pre ++ [e] ++ [.response k .errTransport 0#7], by simp [State.ranThrough], ?_⟩
    rw [response, hl]
    exact busWrites_upTo_prefix pre e post
  · refine ⟨rfl, pre ++ [e], by simp [State.heldAt], ?_⟩
    rw [hl]
    exact busWrites_upTo_prefix pre e post

/-- Settles O28: the micro-steps a command loads carry the flag it has written, and its bus writes are the first of theirs; a
command that does not pass its checks makes none. -/
theorem everyWriteCarriesTheBacklight : Obligations.EveryWriteCarriesTheBacklight := by
  intro i s t k last h hex
  by_cases hp : passes i s
  · obtain ⟨hbl, es, htrace, hprefix⟩ := exec_busWrites_prefix h hp hex
    have hcarry := (loadable_loads h.legal hp).carry
    rw [loads_params, ← hbl] at hcarry
    exact ⟨es, htrace, fun b hb => pinLevel_of_mem_emitted hcarry b (hprefix.subset hb)⟩
  · obtain ⟨st, -, rfl⟩ := exec_of_not_passes h hp hex
    exact ⟨[.response k st 0#7], by simp, by simp [busWrites]⟩

end Sys2Proof.Machine
end

section
/-! PROOFS, family 30_encoding.md: the decoder and the encoder are inverse to each other (R101 to R107), the illegal words (R108), the
acceptance of a ready word (R100, R321), and the worked vectors (R106, R110, R111). -/

namespace Sys2Proof

/-! ### The must-be-zero checks of the three formats -/

section
variable {w : CommandWord} {e : DecodeError} {j : Instr}

theorem ite_ok_error_eq_ok {c : Prop} [Decidable c] {i : Instr} {e : DecodeError} :
    (if c then .ok i else .error e : Except DecodeError Instr) = .ok j ↔ c ∧ i = j := by
  split <;> simp [*]

theorem ite_ok_error_eq_error {c : Prop} [Decidable c] {i : Instr} {e' : DecodeError} :
    (if c then .ok i else .error e' : Except DecodeError Instr) = .error e ↔ ¬ c ∧ e' = e := by
  split <;> simp [*]

@[simp] theorem decodeZ_eq_ok {i : Instr} : decodeZ w i = .ok j ↔ w.extractLsb' 0 20 = 0 ∧ i = j := ite_ok_error_eq_ok

@[simp] theorem decodeP_eq_ok {i : Nat → Nat → Instr} :
    decodeP w i = .ok j ↔ w.extractLsb' 16 4 = 0 ∧ i (lineField w) (colField w) = j := ite_ok_error_eq_ok

@[simp] theorem decodeS_eq_ok {i : Bool → Byte → Instr} :
    decodeS w i = .ok j ↔ w.extractLsb' 9 11 = 0 ∧ i (dField w) (valueField w) = j := ite_ok_error_eq_ok

@[simp] theorem decodeZ_eq_error {i : Instr} : decodeZ w i = .error e ↔ w.extractLsb' 0 20 ≠ 0 ∧ .mustBeZero = e :=
  ite_ok_error_eq_error

@[simp] theorem decodeP_eq_error {i : Nat → Nat → Instr} :
    decodeP w i = .error e ↔ w.extractLsb' 16 4 ≠ 0 ∧ .mustBeZero = e := ite_ok_error_eq_error

@[simp] theorem decodeS_eq_error {i : Bool → Byte → Instr} :
    decodeS w i = .error e ↔ w.extractLsb' 9 11 ≠ 0 ∧ .mustBeZero = e := ite_ok_error_eq_error

end

/-- R106, R107: which format a word is read in, by its opcode. The instruction of a word of format Z has its opcode's word. -/
theorem decode_cases (w : CommandWord) :
    (∃ i, 0x1 ≤ opcodeField w ∧ opcodeField w ≤ 0x7 ∧ decode w = decodeZ w i ∧ i.wellFormed = true ∧
      (encode i).toNat = opcodeField w * 2 ^ 20) ∨
    (opcodeField w = 0x8 ∧ decode w = decodeP w .setpos) ∨
    (opcodeField w = 0x9 ∧ decode w = decodeP w .resolve) ∨
    (opcodeField w = 0xA ∧ decode w = decodeS w .send) ∨
    ((opcodeField w = 0x0 ∨ 0xB ≤ opcodeField w) ∧ decode w = .error .reservedOpcode) := by
  unfold decode
  split
  case h_8 ho => exact .inr (.inl ⟨ho, rfl⟩)
  case h_9 ho => exact .inr (.inr (.inl ⟨ho, rfl⟩))
  case h_10 ho => exact .inr (.inr (.inr (.inl ⟨ho, rfl⟩)))
  case h_11 =>
    refine .inr (.inr (.inr (.inr ⟨?_, rfl⟩)))
    simp only [imp_false] at *
    omega
  all_goals next ho => exact .inl ⟨_, by omega, by omega, rfl, rfl, by rw [ho]; rfl⟩

/-! ### Operands that fit -/

@[simp] theorem wellFormed_setpos {line col : Nat} : (Instr.setpos line col).wellFormed = true ↔ line ≤ 255 ∧ col ≤ 255 := by
  simp [Instr.wellFormed, fitsField]

@[simp] theorem wellFormed_resolve {line col : Nat} : (Instr.resolve line col).wellFormed = true ↔ line ≤ 255 ∧ col ≤ 255 := by
  simp [Instr.wellFormed, fitsField]

/-! ### Decoding what the encoder makes -/

/-- The fields of a word of format P are those it was made of. -/
theorem fields_encodeP {op line col : Nat} (ho : op < 16) (hl : line ≤ 255) (hc : col ≤ 255) :
    opcodeField (encodeP (BitVec.ofNat 24 op) line col) = op ∧
    (encodeP (BitVec.ofNat 24 op) line col).extractLsb' 16 4 = 0 ∧
    lineField (encodeP (BitVec.ofNat 24 op) line col) = line ∧
    colField (encodeP (BitVec.ofNat 24 op) line col) = col := by
  rw [opcodeField, lineField, colField, field_eq_zero, toNat_field, toNat_field, toNat_field, toNat_encodeP op line col ho hl hc]
  omega

/-- Settles O1: a word of format Z is a fixed one, and the others have the fields they were made of. -/
theorem decodeOfEncodeIsTheInstruction : Obligations.DecodeOfEncodeIsTheInstruction := by
  intro i hwf
  cases i with
  | enable | powerOn | powerOff | blOn | blOff | clear | home => decide
  | setpos line col =>
    obtain ⟨hl, hc⟩ := wellFormed_setpos.mp hwf
    obtain ⟨hop, hzero, hline, hcol⟩ := fields_encodeP (op := 0x8) (by decide) hl hc
    simp [encode, decode, hop, hzero, hline, hcol]
  | resolve line col =>
    obtain ⟨hl, hc⟩ := wellFormed_resolve.mp hwf
    obtain ⟨hop, hzero, hline, hcol⟩ := fields_encodeP (op := 0x9) (by decide) hl hc
    simp [encode, decode, hop, hzero, hline, hcol]
  | send d v => exact Machine.decode_encode_send d v

/-! ### Encoding what the decoder reads -/

section
variable {w : CommandWord}

/-- A word of format Z is its opcode. -/
theorem toNat_of_formatZ (hz : w.extractLsb' 0 20 = 0) : w.toNat = opcodeField w * 2 ^ 20 := by
  rw [field_eq_zero] at hz
  rw [opcodeField, toNat_field]
  omega

theorem opcodeField_lt (w : CommandWord) : opcodeField w < 16 := (w.extractLsb' 20 4).isLt

theorem lineField_le (w : CommandWord) : lineField w ≤ 255 := Nat.le_of_lt_succ (w.extractLsb' 8 8).isLt

theorem colField_le (w : CommandWord) : colField w ≤ 255 := Nat.le_of_lt_succ (w.extractLsb' 0 8).isLt

/-- A word of format P is its opcode and its two operands. -/
theorem encodeP_fields {op : Nat} (ho : opcodeField w = op) (hz : w.extractLsb' 16 4 = 0) :
    encodeP (BitVec.ofNat 24 op) (lineField w) (colField w) = w := by
  subst ho
  rw [field_eq_zero] at hz
  apply BitVec.eq_of_toNat_eq
  rw [toNat_encodeP _ _ _ (opcodeField_lt w) (lineField_le w) (colField_le w), opcodeField, lineField, colField,
    toNat_field, toNat_field, toNat_field]
  omega

/-- A word of format S is its opcode, its D bit and its value. -/
theorem encode_send_fields (ho : opcodeField w = 0xA) (hz : w.extractLsb' 9 11 = 0) :
    encode (.send (dField w) (valueField w)) = w := by
  rw [opcodeField, toNat_field] at ho
  rw [field_eq_zero] at hz
  have hd : (dField w).toNat = w.toNat / 2 ^ 8 % 2 := by
    rw [dField, BitVec.getLsbD, Nat.toNat_testBit]
  apply BitVec.eq_of_toNat_eq
  rw [toNat_encodeSend, hd, valueField, toNat_field]
  omega

end

/-- Settles O2: in each format the fields of the word, put together again, are the word. -/
theorem encodeOfDecodedWordIsTheWord : Obligations.EncodeOfDecodedWordIsTheWord := by
  intro w i h
  rcases decode_cases w with ⟨j, -, -, hd, hwf, henc⟩ | ⟨ho, hd⟩ | ⟨ho, hd⟩ | ⟨ho, hd⟩ | ⟨-, hd⟩ <;> rw [hd] at h
  · obtain ⟨hz, rfl⟩ := decodeZ_eq_ok.mp h
    exact ⟨BitVec.eq_of_toNat_eq (henc.trans (toNat_of_formatZ hz).symm), hwf⟩
  · obtain ⟨hz, rfl⟩ := decodeP_eq_ok.mp h
    exact ⟨encodeP_fields ho hz, wellFormed_setpos.mpr ⟨lineField_le w, colField_le w⟩⟩
  · obtain ⟨hz, rfl⟩ := decodeP_eq_ok.mp h
    exact ⟨encodeP_fields ho hz, wellFormed_resolve.mpr ⟨lineField_le w, colField_le w⟩⟩
  · obtain ⟨hz, rfl⟩ := decodeS_eq_ok.mp h
    exact ⟨encode_send_fields ho hz, rfl⟩
  · cases h

/-! ### Illegal words, and words written out -/

/-- Settles O3: in each format one of the two reasons is open, under the opcodes of that format only. -/
theorem illegalWordsAreThoseOfR108 : Obligations.IllegalWordsAreThoseOfR108 := by
  intro w
  rw [← opcodeField]
  rcases decode_cases w with ⟨j, hlo, hhi, hd, -, -⟩ | ⟨ho, hd⟩ | ⟨ho, hd⟩ | ⟨ho, hd⟩ | ⟨ho, hd⟩ <;> rw [hd]
  · have hR : ¬ (opcodeField w = 0x0 ∨ 0xB ≤ opcodeField w) := by omega
    have hP : ¬ (opcodeField w = 0x8 ∨ opcodeField w = 0x9) := by omega
    have hS : opcodeField w ≠ 0xA := by omega
    simp [hlo, hhi, hR, hP, hS]
  · simp [ho]
  · simp [ho]
  · simp [ho]
  · exact ⟨iff_of_true rfl ho, iff_of_false (by simp) (by omega)⟩

/-- Settles O4: the decoder, evaluated. -/
theorem vectorWordsDecode : Obligations.VectorWordsDecode := by
  unfold Obligations.VectorWordsDecode
  decide

end Sys2Proof

namespace Sys2Proof.Machine

/-! ### The acceptance of a ready word -/

variable {p : Pins} {s : State} {k : Nat}

/-- R100, R321: who is ready: the owner of the open transaction, or, with none open, the arbiter's choice. -/
theorem reqReady_iff :
    s.reqReady k = true ↔ s.seq = .idle ∧ (s.owner = some k ∨ s.owner = none ∧ s.arbitrate = some k) := by
  unfold State.reqReady
  split <;> simp [*]

/-- Outside reset, an edge of an IDLE block accepts a word if it can. -/
theorem edge_idle (hr : p.rst = false) (hi : s.seq = .idle) : edge p s = s.dropResponses.acceptIfIdle := by
  simp [edge, hr, hi]

/-- The owner's word is the one to take. -/
theorem arbitrate_of_owner {r : Request} (ho : s.owner = some k) (hp : s.presented k = some r) : s.arbitrate = some k := by
  simp [State.arbitrate, ho, hp]

/-- Settles O46: a ready requester that presents a word is the one the arbiter takes. -/
theorem readyWordIsAccepted : Obligations.ReadyWordIsAccepted := by
  intro s k h
  obtain ⟨hi, hturn⟩ := reqReady_iff.mp h
  refine ⟨hi, hturn.symm.imp And.left id, fun p r hr hp => ?_⟩
  have ha : s.arbitrate = some k := hturn.elim (arbitrate_of_owner · hp) And.right
  rw [edge_idle hr hi]
  exact acceptIfIdle_of_arbitrate hi (by simpa using ha) (by simpa using hp)

/-! ### Assembled lines -/

/-- Settles O55: the assembler, evaluated. -/
theorem vectorLinesAssemble : Obligations.VectorLinesAssemble := by
  unfold Obligations.VectorLinesAssemble
  decide

end Sys2Proof.Machine
end

section
/-! PROOFS, family 40_bit_packer.md: the pins of a packed byte (R140), what its writes give the controller (R144, R325, R365). -/

namespace Sys2Proof.Machine

/-! ### The pins of a packed byte -/

/-- Each bit of the nibble on D4 to D7 is the level of its data line (R72). -/
theorem getLsbD_dataNibble (p : PinMap) (b : Byte) :
    (dataNibble p b).getLsbD 0 = pinLevel p.d4 b ∧ (dataNibble p b).getLsbD 1 = pinLevel p.d5 b ∧
    (dataNibble p b).getLsbD 2 = pinLevel p.d6 b ∧ (dataNibble p b).getLsbD 3 = pinLevel p.d7 b := by
  unfold dataNibble
  generalize pinLevel p.d4 b = b0, pinLevel p.d5 b = b1, pinLevel p.d6 b = b2, pinLevel p.d7 b = b3
  revert b0 b1 b2 b3
  decide

/-- D10: a position of no signal is 0. -/
theorem pinLevel_pack_unmapped {p : PinMap} {j : Fin 8} (hj : j ∉ pinPositions p) (n : Nibble) (rs bl e : Bool) :
    pinLevel j (pack p n rs bl e) = false := by
  simp only [pinPositions, List.mem_cons, List.not_mem_nil, or_false, not_or] at hj
  simp [pinLevel_pack, hj]

/-- Settles O8: the levels a latch reads are those packed, and the data lines are the bits of the nibble they hold. -/
theorem packPutsEverySignalAtItsPin : Obligations.PackPutsEverySignalAtItsPin := by
  intro p n rs bl e h
  obtain ⟨he, hrs, hn⟩ := latch_levels h n rs bl e
  obtain ⟨h4, h5, h6, h7⟩ := getLsbD_dataNibble p (pack p n rs bl e)
  rw [hn] at h4 h5 h6 h7
  exact ⟨hrs, pinLevel_bl_pack h n rs bl e, he, h4.symm, h5.symm, h6.symm, h7.symm,
    fun j hj => pinLevel_pack_unmapped hj n rs bl e⟩

/-! ### What whole nibbles give the controller -/

/-- Whole nibbles to one register, written while E is low, are latched one by one. -/
theorem latchedAfter_nibbles {p : PinMap} (h : (pinPositions p).Nodup) (rs bl : Bool) (ns : List Nibble) {prev : Byte}
    (hp : pinLevel p.e prev = false) :
    latchedAfter p prev (ns.flatMap (nibbleWrites p · rs bl)) = ns.map (fun n => { rs := rs, nibble := n }) := by
  induction ns generalizing prev with
  | nil => rfl
  | cons n ns ih =>
    have hlow := (latch_levels h n rs bl false).1
    rw [List.map_cons, ← ih hlow]
    exact latchedAfter_nibble h n rs bl hp _

/-- The same from the beginning of a run. -/
theorem latchedBy_nibbles {p : PinMap} (h : (pinPositions p).Nodup) (rs bl : Bool) (ns : List Nibble) :
    latchedBy p (ns.flatMap (nibbleWrites p · rs bl)) = ns.map (fun n => { rs := rs, nibble := n }) := by
  cases ns with
  | nil => rfl
  | cons n ns =>
    have hlow := (latch_levels h n rs bl false).1
    rw [List.map_cons, ← latchedAfter_nibbles h rs bl ns hlow]
    exact latchedBy_nibble h n rs bl _

/-- R143: a byte transaction is its two nibbles, high before low. -/
theorem byteWrites_eq_nibbles (p : PinMap) (v : Byte) (rs bl : Bool) :
    byteWrites p v rs bl = [highNibble v, lowNibble v].flatMap (nibbleWrites p · rs bl) := rfl

/-- Events of commands that succeed, answered with `ok` at their end, only add their writes to the known span. -/
theorem spansFrom_response_ok {es : List Event} (h : ∀ e ∈ es, answeredOk [e] = true ∧ e ≠ .bind) (ws : List Byte) (n : Nat)
    (kws : List Byte) (k : Nat) (a : DdramAddr) :
    spansFrom ws n (some kws) (es ++ [.response k .ok a]) = [.known (kws ++ busWrites es)] := by
  rw [spansFrom_answered h rfl, spansFrom, spansFrom]

/-- Settles O9: the trace is one known span, and its nibbles pair up to the byte. -/
theorem byteTransactionDeliversTheByte : Obligations.ByteTransactionDeliversTheByte := by
  intro p v rs bl k a h
  refine ⟨length_byteWrites p v rs bl, ?_⟩
  have hspans : spans ((byteWrites p v rs bl).map .write ++ [.response k .ok a]) = [.known (byteWrites p v rs bl)] := by
    rw [spans, spansFrom_response_ok (by simp [answeredOk]), busWrites_writes, List.nil_append]
  have hlatch : latchedBy p (byteWrites p v rs bl) =
      [{ rs := rs, nibble := highNibble v }, { rs := rs, nibble := lowNibble v }] := by
    rw [byteWrites_eq_nibbles, latchedBy_nibbles h, List.map_cons, List.map_cons, List.map_nil]
  simp [received, hspans, Span.latches, hlatch, receivedBytes, highNibble_append_lowNibble]

/-! ### The controller after a request that leaves it open -/

/-- The nibbles of the initialisation (R230, R231). -/
def initNibbles : List Nibble := [0x3, 0x3, 0x3, 0x2, 0x2, 0x8, 0x0, 0xE, 0x0, 0x1, 0x0, 0x7]

theorem busWrites_initEvents (p : PinMap) (bl : Bool) :
    busWrites (initEvents p bl) = initNibbles.flatMap (nibbleWrites p · false bl) := rfl

/-- The initialisation leaves E low. -/
theorem getLast?_busWrites_initEvents (p : PinMap) (bl : Bool) :
    (busWrites (initEvents p bl)).getLast? = some (pack p 0x7#4 false bl false) := rfl

/-- An ENABLE, from its bind on, whose requests are all answered with `ok` is one known span. -/
theorem spansFrom_initEvents (p : PinMap) (bl : Bool) (ws : List Byte) (n k : Nat) (a : DdramAddr) :
    spansFrom ws n (some []) (initEvents p bl ++ [.response k .ok a]) = [.known (busWrites (initEvents p bl))] :=
  spansFrom_response_ok (by simp [initEvents, pulseEvents, nibbleWrites, byteWrites, answeredOk]) ws n [] k a

/-- The spans of a trace that is left open by `e`: those before it, then an uncertain one. -/
theorem spans_open {xs es : List Event} {e : Event} {j : Nat} {c : DdramAddr} {kws : List Byte}
    (hx : (spans (xs ++ [.response j .ok c])).getLast? = some (.known kws)) (ho : LeavesControllerOpen e es)
    (hb : .bind ∉ es) :
    spans (xs ++ e :: es) =
      spans (xs ++ [.response j .ok c]) ++ [.uncertain (busWrites (xs ++ e :: es)) (xs ++ e :: es).length] := by
  obtain ⟨pre, hpre, hgo⟩ := spansFrom_settled hx (ho.answeredOk es)
  rw [spans, spans, hgo, hpre, ho.spans hb]
  simp

/-- The same with an ENABLE after it that succeeds: a known span with the initialisation's writes begins. -/
theorem spans_open_enable {xs es : List Event} {e : Event} {j : Nat} {c : DdramAddr} {kws : List Byte}
    (hx : (spans (xs ++ [.response j .ok c])).getLast? = some (.known kws)) (ho : LeavesControllerOpen e es)
    (hb : .bind ∉ es) (hne : es ≠ []) (p : PinMap) (bl : Bool) (k : Nat) (a : DdramAddr) :
    spans (xs ++ e :: (es ++ .bind :: initEvents p bl ++ [.response k .ok a])) =
      spans (xs ++ [.response j .ok c]) ++ [.uncertain (busWrites (xs ++ e :: es)) (xs ++ e :: es).length,
        .known (busWrites (initEvents p bl))] := by
  obtain ⟨pre, hpre, hgo⟩ := spansFrom_settled hx
    (ho.answeredOk (es ++ .bind :: (initEvents p bl ++ [.response k .ok a])))
  rw [spans, spans, List.append_assoc, List.cons_append, hgo, hpre, ho.spans_bind hb hne rfl, spansFrom_initEvents]
  simp

/-- Settles O60: an uncertain span follows the known ones, and only an ENABLE that succeeds puts a known one behind it. -/
theorem unappliedWriteLeavesTheControllerOpen : Obligations.UnappliedWriteLeavesTheControllerOpen := by
  intro p xs j c kws e es hx ho hb
  have hspans := spans_open hx ho hb
  refine ⟨by simp [received, hspans, Span.latches], by simp [betweenBytes, hspans], fun bl k a hne hp => ?_⟩
  have hspans' := spans_open_enable hx ho hb hne p bl k a
  have hlatch := latchedBy_nibbles hp false bl initNibbles
  rw [← busWrites_initEvents] at hlatch
  have hlow := (latch_levels hp 0x7#4 false bl false).1
  constructor
  · rw [latched, hspans']
    simp [latched, Span.latches, hlatch, initNibbles]
  · rw [betweenBytes, hspans']
    simpa [hlatch, getLast?_busWrites_initEvents, initNibbles] using hlow

end Sys2Proof.Machine
end

section
/-! PROOFS, family 40_bit_packer.md: SEND (R145), and the gaps that the commands which send bytes load (R141, R143). -/

namespace Sys2Proof.Machine

variable {s : State} {i : Instr} {k : Nat} {w : CommandWord} {last rs : Bool} {v : Byte} {l : List MicroStep}

/-! ### A command that sends one byte -/

/-- After writes only, what a run leaves of an executing command is the byte on the port and the transport. -/
theorem concluded_ranThrough_writes (h : s.Executing k last) (hl : eventOnArrival l = []) (bs : List Byte) (d : Byte)
    (t' : Transport) (st : Status) (a : DdramAddr) (es : List Event) :
    ({ (s.goTo l).ranThrough (bs.map .write) t' with bwData := d } : State).concluded k last st a es =
      ({ s with bwData := d, transport := t' } : State).concluded k last st a es := by
  simp [State.ranThrough, State.concluded, hl, h.noWrite, h.noBind, h.noDelay]

/-- R143: one byte and its response, the six writes granted. -/
theorem finish_sendAndRespond_granted (h : s.Executing k last) (v : Byte) (rs : Bool) (a : DdramAddr) {t' : Transport}
    (hg : Transport.Grants 6 s.transport t') :
    (s.sendAndRespond v rs a).finish =
      ({ s with bwData := lastByte s.params.pinMap v rs s.backlight, transport := t' } : State).concluded k last .ok a
        ((byteWrites s.params.pinMap v rs s.backlight).map .write) := by
  obtain ⟨w, l, hb⟩ := h.busy
  rw [State.sendAndRespond, finish_goTo hb,
    runSteps_granted (w := w) (by simp [hb]) (arrived_goTo h.noWrite h.noBind h.noDelay) (answerOf_byte ..)
      (by simpa [emitted_byte] using hg),
    emitted_byte]
  exact concluded_ranThrough_writes h (eventOnArrival_sendByte v rs s _) (byteWrites s.params.pinMap v rs s.backlight)
    (lastByte s.params.pinMap v rs s.backlight) t' .ok a _

/-- R145: one byte and its response, a write failing: it is the last one made. -/
theorem finish_sendAndRespond_failing (h : s.Executing k last) (v : Byte) (rs : Bool) (a : DdramAddr) {pre post : List Byte}
    {b : Byte} {t' : Transport} (hw : byteWrites s.params.pinMap v rs s.backlight = pre ++ b :: post)
    (hf : Transport.FailsAfter pre.length s.transport t') :
    (s.sendAndRespond v rs a).finish =
      ({ s with bwData := b, transport := t' } : State).concluded k last .errTransport 0#7 ((pre ++ [b]).map .write) := by
  obtain ⟨w, l, hb⟩ := h.busy
  have hsplit : emitted (sendByte v rs s ++ [.respond .ok a]) = pre.map .write ++ .write b :: post.map .write := by
    simp [emitted_byte, hw]
  have hdata : dataAfter s.bwData (pre.map .write ++ [.write b]) = b := by simp [dataAfter]
  rw [State.sendAndRespond, finish_goTo hb,
    runSteps_failing (w := w) (.inr ⟨b, rfl⟩) (by simp [hb]) (arrived_goTo h.noWrite h.noBind h.noDelay) hsplit
      (by simpa using hf),
    goTo_bwData, hdata, concluded_ranThrough_writes h (eventOnArrival_sendByte v rs s _), List.map_append, List.map_cons,
    List.map_nil]

/-- What the rules of CLEAR, HOME and SEND say alike holds of every command with their checks and their one byte. -/
theorem sendsByte_of_start (hi : start i =
    State.unlessAborted (State.ifPowered (State.ifInitialized (State.sendAndRespond v rs 0#7)))) : SendsByte i v rs := by
  intro s k last h
  refine ⟨fun ha => exec_of_answer h (start_of_abort i ha), fun ha hp => exec_of_answer h ?_,
    fun ha hp hn => exec_of_answer h ?_, fun ha hp hn => ?_⟩
  · rw [hi, unlessAborted_of_not _ ha, ifPowered_of_off _ hp]
  · rw [hi, unlessAborted_of_not _ ha, ifPowered_of_on _ hp, ifInitialized_of_not _ hn]
  · obtain ⟨w, l, hb⟩ := h.busy
    rw [exec_eq, runCommand_busy _ h.legal hb, hi, unlessAborted_of_not _ ha, ifPowered_of_on _ hp,
      ifInitialized_of_init _ hn]
    exact ⟨fun t' hg => by rw [finish_sendAndRespond_granted h v rs 0#7 hg],
      fun pre b post t' hw hf => by rw [finish_sendAndRespond_failing h v rs 0#7 hw hf]⟩

/-- R103: the word of SEND. -/
theorem encode_send (d : Bool) (v : Byte) :
    encode (.send d v) = 0xA00000#24 ||| (if d then 0x100#24 else 0#24) ||| v.zeroExtend 24 := by
  cases d <;> rfl

/-- Settles O10: SEND makes the checks and loads its byte. -/
theorem sendSendsItsValue : Obligations.SendSendsItsValue :=
  fun d v => ⟨encode_send d v, sendsByte_of_start rfl⟩

/-! ### The gaps -/

theorem sendByte_eq_bytePlan (v : Byte) (rs : Bool) (s : State) : sendByte v rs s = bytePlan s.params v rs s.backlight := rfl

theorem initSteps_eq_initPlan (s : State) : initSteps s = initPlan s.params s.backlight := rfl

/-- A command that passes its checks holds the micro-steps it loads. -/
theorem start_seq_of_passes (hp : passes i s) (hs : s.seq = .busy k w last l) :
    (start i s).seq = .busy k w last (loads i s).2 := by
  rw [start_of_passes hp, goTo_seq, loads_seq, hs, withSteps_busy]

@[simp] theorem idleCycles_append (l l' : List MicroStep) : idleCycles (l ++ l') = idleCycles l + idleCycles l' := by
  induction l with
  | nil => simp [idleCycles]
  | cons m l ih => cases m <;> simp [idleCycles, ih, Nat.add_assoc]

@[simp] theorem idleCycles_idle (n : Nat) : idleCycles (idle n) = n := by
  by_cases h : n = 0 <;> simp [idle, h, idleCycles]

/-- R141: a nibble has a gap on either side of its E-high write. -/
@[simp] theorem idleCycles_nibblePlan (p : Params) (n : Nibble) (rs bl : Bool) :
    idleCycles (nibblePlan p n rs bl) = 2 * p.pulseGapCycles := by
  simp [nibblePlan, idleCycles, Nat.two_mul]

/-- R370: a byte has the gaps of its two nibbles and the one behind it. -/
@[simp] theorem idleCycles_bytePlan (p : Params) (v : Byte) (rs bl : Bool) :
    idleCycles (bytePlan p v rs bl) = p.cmdWaitCycles + 4 * p.pulseGapCycles := by
  simp only [bytePlan, idleCycles_append, idleCycles_nibblePlan, idleCycles_idle]
  omega

/-- R370: ENABLE has the gaps of four nibbles and four bytes; its waits are no gaps. -/
theorem idleCycles_initPlan (p : Params) (bl : Bool) :
    idleCycles (initPlan p bl) = 4 * p.cmdWaitCycles + 24 * p.pulseGapCycles := by
  simp only [initPlan, idleCycles_append, idleCycles_nibblePlan, idleCycles_bytePlan, idleCycles]
  omega

/-- Settles O57: the micro-steps a command loads are those of the plan, and a plan's idle cycles add up. -/
theorem commandsLoadTheirGaps : Obligations.CommandsLoadTheirGaps := by
  refine ⟨fun s k w last steps hs ha => ⟨?_, fun hp hi => ?_⟩, fun p v rs bl =>
    ⟨idleCycles_bytePlan p v rs bl, idleCycles_initPlan p bl⟩⟩
  · have pass : passes .enable s := ⟨ha, by simp [gated], by simp [needsEnable]⟩
    rw [start_seq_of_passes pass hs, loads, initSteps_eq_initPlan, List.singleton_append]
  · have pass : ∀ i, passes i s := fun i => ⟨ha, fun _ => hp, fun _ => hi⟩
    refine ⟨fun d v => ?_, ?_, ?_, fun line col a hr => ?_⟩
    · rw [start_seq_of_passes (pass _) hs, loads, sendByte_eq_bytePlan]
    · rw [start_seq_of_passes (pass _) hs, loads, sendByte_eq_bytePlan, clearCmd]
    · rw [start_seq_of_passes (pass _) hs, loads, sendByte_eq_bytePlan, homeCmd]
    · rw [start_seq_of_passes (pass _) hs]
      simp only [loads, hr, sendByte_eq_bytePlan, setAddrCmd]

end Sys2Proof.Machine
end

section
/-! PROOFS, family 41_address_resolver.md: the address of a position (R170), RESOLVE (R172) and SETPOS (R173, R174). -/

namespace Sys2Proof.Machine

variable {s : State} {i : Instr} {k line col : Nat} {last rs : Bool} {v : Byte} {a : DdramAddr} {p : Params}

/-! ### The address of a position -/

/-- R8: the largest geometry. -/
theorem geometry_le_of_legalParams (h : legalParams p = true) : p.rows ≤ 4 ∧ p.columns ≤ 40 := by
  simp only [legalParams, Bool.and_eq_true, decide_eq_true_eq] at h
  omega

/-- R41: each of the four lines has its base, the largest of them 0x54. -/
theorem lineBase_of_le_four (h1 : 1 ≤ line) (h4 : line ≤ 4) :
    ∃ base, (line, base) ∈ [(1, 0x00), (2, 0x40), (3, 0x14), (4, 0x54)] ∧ lineBase line = some base ∧ base ≤ 0x54 := by
  interval_cases line <;> simp [lineBase]

/-- R170: a position within both bounds is looked up in the line-base table, whatever the geometry. -/
theorem resolve_of_within (h1 : 1 ≤ line) (hr : line ≤ p.rows) (hc : col ≤ p.columns) :
    resolve p line col = (lineBase line).map (fun base => BitVec.ofNat 7 (base + col)) := by
  rw [resolve, if_neg (by omega), if_neg (by omega)]

/-- Settles O5: a line of a legal geometry has a base, and no sum of a base and a column of one exceeds 0x54 + 40, which is less
than 2 ^ 7. -/
theorem resolveIsBasePlusColumn : Obligations.ResolveIsBasePlusColumn := by
  intro p line col hp
  refine ⟨fun ⟨h1, hr, hc⟩ => ?_, resolve_of_invalid⟩
  obtain ⟨hrows, hcolumns⟩ := geometry_le_of_legalParams hp
  obtain ⟨base, hmem, hbase, hle⟩ := lineBase_of_le_four h1 (by omega)
  refine ⟨base, BitVec.ofNat 7 (base + col), hmem, ?_, ?_⟩
  · rw [resolve_of_within h1 hr hc, hbase, Option.map_some]
  · rw [BitVec.toNat_ofNat, Nat.mod_eq_of_lt (by omega)]

/-! ### RESOLVE -/

/-- R172: outside an aborted transaction RESOLVE has only the check of its position. -/
theorem start_resolve (ha : s.abort = false) :
    start (.resolve line col) s = State.ifValid line col (fun a => State.answerWith .ok a) s :=
  unlessAborted_of_not _ ha

/-- Settles O6: RESOLVE loads nothing but its response. -/
theorem resolveAnswersTheAddress : Obligations.ResolveAnswersTheAddress := by
  refine ⟨fun line col _ _ => rfl, fun s k last line col h => ⟨?_, ?_, ?_⟩⟩
  · exact fun ha => exec_of_answer h (start_of_abort _ ha)
  · exact fun ha hn => exec_of_answer h (by rw [start_resolve ha, ifValid_of_none _ hn])
  · exact fun a ha hv => exec_of_answer h (by rw [start_resolve ha, ifValid_of_some _ hv, State.answerWith])

/-! ### SETPOS -/

/-- R143, R145: a command whose start loads one byte and its response, the transport granting the six writes, or failing one of
them. -/
theorem exec_of_sendAndRespond (h : s.Executing k last) (hs : start i s = s.sendAndRespond v rs a) :
    (∀ t', Transport.Grants 6 s.transport t' →
      exec i s = .next (({ s with bwData := lastByte s.params.pinMap v rs s.backlight, transport := t' } : State).concluded
        k last .ok a ((byteWrites s.params.pinMap v rs s.backlight).map .write))) ∧
    (∀ pre b post t', byteWrites s.params.pinMap v rs s.backlight = pre ++ b :: post →
      Transport.FailsAfter pre.length s.transport t' →
      exec i s = .next (({ s with bwData := b, transport := t' } : State).concluded
        k last .errTransport 0#7 ((pre ++ [b]).map .write))) := by
  obtain ⟨w, l, hb⟩ := h.busy
  rw [exec_eq, runCommand_busy _ h.legal hb, hs]
  exact ⟨fun t' hg => by rw [finish_sendAndRespond_granted h v rs a hg],
    fun pre b post t' hw hf => by rw [finish_sendAndRespond_failing h v rs a hw hf]⟩

/-- R174: the first gate of SETPOS behind the abort check, the power-on flag. -/
theorem start_setpos_of_off (ha : s.abort = false) (hp : s.power = false) :
    start (.setpos line col) s = s.goTo [.respond .okOff 0#7] := by
  rw [start, startSetpos, unlessAborted_of_not _ ha, ifPowered_of_off _ hp]

/-- R174: the second gate, the position. -/
theorem start_setpos_of_invalid (ha : s.abort = false) (hp : s.power = true) (hn : resolve s.params line col = none) :
    start (.setpos line col) s = s.goTo [.respond .errValidation 0#7] := by
  rw [start, startSetpos, unlessAborted_of_not _ ha, ifPowered_of_on _ hp, ifValid_of_none _ hn]

/-- R174: behind them the enable, then the byte of R173 and the address. -/
theorem start_setpos_of_valid (ha : s.abort = false) (hp : s.power = true) (hv : resolve s.params line col = some a) :
    start (.setpos line col) s = State.ifInitialized (State.sendAndRespond (setAddrCmd a) false a) s := by
  rw [start, startSetpos, unlessAborted_of_not _ ha, ifPowered_of_on _ hp, ifValid_of_some _ hv]

/-- Settles O7: the gates one by one, and behind them the byte transaction of `setAddrCmd a`. -/
theorem setposSendsTheAddress : Obligations.SetposSendsTheAddress := by
  refine ⟨fun line col _ _ => rfl, fun s k last line col h => ⟨?_, ?_, ?_, ?_, ?_⟩⟩
  · exact fun ha => exec_of_answer h (start_of_abort _ ha)
  · exact fun ha hp => exec_of_answer h (start_setpos_of_off ha hp)
  · exact fun ha hp hn => exec_of_answer h (start_setpos_of_invalid ha hp hn)
  · exact fun a ha hp hv hi => exec_of_answer h (by rw [start_setpos_of_valid ha hp hv, ifInitialized_of_not _ hi])
  · exact fun a ha hp hv hi =>
      exec_of_sendAndRespond h (by rw [start_setpos_of_valid ha hp hv, ifInitialized_of_init _ hi, setAddrCmd])

end Sys2Proof.Machine
end

section
/-! PROOFS, family 42_state_control.md: POWER_ON (R200), POWER_OFF (R202), BL_ON and BL_OFF (R203 to R206). -/

namespace Sys2Proof.Machine

variable {s u : State} {i : Instr} {k : Nat} {last v : Bool} {st : Status} {a : DdramAddr} {t' : Transport}

/-! ### A flag and a response -/

/-- R77: a command whose start writes flags and loads a response only; the response follows the flags at once. -/
theorem exec_of_flag_answer (h : s.Executing k last) (hu : u.seq = s.seq) (hs : start i s = u.goTo [.respond st a]) :
    exec i s = .next (u.concluded k last st a []) := by
  obtain ⟨w, l, hb⟩ := h.busy
  rw [exec_eq, runCommand_busy _ h.legal hb, hs, finish_goTo_respond (hu.trans hb)]

/-! ### POWER_ON and POWER_OFF -/

/-- R200, R202: outside an aborted transaction a command that only writes the power-on flag answers `OK`, whatever the flags. -/
theorem exec_of_setPower (h : s.Executing k last) (ha : s.abort = false)
    (hi : start i = State.unlessAborted (fun s => (s.setPower v).answerWith .ok 0#7)) :
    exec i s = .next (({ s with power := v } : State).concluded k last .ok 0#7 []) := by
  refine exec_of_flag_answer (u := s.setPower v) h rfl ?_
  rw [hi, unlessAborted_of_not _ ha, answerWith_eq]

/-- Settles O11: POWER_ON checks for an abort only, and sets the flag. -/
theorem powerOnSetsThePowerFlag : Obligations.PowerOnSetsThePowerFlag :=
  ⟨rfl, fun _ _ _ h => ⟨fun ha => exec_of_answer h (start_of_abort _ ha), fun ha => exec_of_setPower h ha rfl⟩⟩

/-- Settles O12: POWER_OFF checks for an abort only, and clears the flag. -/
theorem powerOffClearsThePowerFlag : Obligations.PowerOffClearsThePowerFlag :=
  ⟨rfl, fun _ _ _ h => ⟨fun ha => exec_of_answer h (start_of_abort _ ha), fun ha => exec_of_setPower h ha rfl⟩⟩

/-! ### The backlight byte and its write -/

@[simp] theorem pinBit_false (pos : Fin 8) : pinBit pos false = 0#8 := rfl

/-- R203: of the packed signals only BL can be 1. -/
theorem blByte_eq_pinBit (p : PinMap) (v : Bool) : blByte p v = pinBit p.bl v := by
  simp [blByte, pack]

/-- R205: with `BL_IMMEDIATE_WRITE` the enable check and the write. -/
theorem switchBacklight_of_immediate (v : Bool) (hw : s.params.blImmediateWrite = true) :
    State.switchBacklight v s = State.ifInitialized (State.writeBacklight v) s := by
  rw [State.switchBacklight, if_pos hw]

/-- R205: without it the flag alone. -/
theorem switchBacklight_of_deferred (v : Bool) (hw : s.params.blImmediateWrite = false) :
    State.switchBacklight v s = (s.setBacklight v).goTo [.respond .ok 0#7] := by
  rw [State.switchBacklight, hw, if_neg Bool.false_ne_true, answerWith_eq]

/-- R330: a single write and its response, the write granted. -/
theorem finish_write_granted (h : s.Executing k last) (b : Byte) (a : DdramAddr) (hg : s.transport.answer = some (.ok, t')) :
    (s.goTo [.write b, .respond .ok a]).finish =
      ({ s with bwData := b, transport := t' } : State).concluded k last .ok a [.write b] := by
  obtain ⟨w, l, hb⟩ := h.busy
  have hgrants : Transport.Grants (requests (emitted [.write b, .respond .ok a])) s.transport t' := grants_one.mpr hg
  rw [finish_goTo hb, runSteps_granted (w := w) (by simp [hb]) (arrived_goTo h.noWrite h.noBind h.noDelay) rfl hgrants]
  exact concluded_ranThrough_writes h rfl [b] b t' .ok a [.write b]

/-- R300, R330: the same, the write failing. -/
theorem finish_write_failing (h : s.Executing k last) (b : Byte) (a : DdramAddr) (hf : s.transport.answer = some (.err, t')) :
    (s.goTo [.write b, .respond .ok a]).finish =
      ({ s with bwData := b, transport := t' } : State).concluded k last .errTransport 0#7 [.write b] := by
  obtain ⟨w, l, hb⟩ := h.busy
  rw [finish_goTo hb, runSteps_failing (w := w) (t' := t') (pre := []) (post := []) (.inr ⟨b, rfl⟩) (by simp [hb])
    (arrived_goTo h.noWrite h.noBind h.noDelay) rfl (failsAfter_zero.mpr hf)]
  exact concluded_ranThrough_writes h rfl [] b t' .errTransport 0#7 [.write b]

/-- The new backlight flag leaves the command executing. -/
theorem executing_setBacklight (h : s.Executing k last) (v : Bool) : (s.setBacklight v).Executing k last :=
  ⟨h.legal, h.busy, h.noWrite, h.noBind, h.noDelay⟩

/-! ### BL_ON and BL_OFF -/

/-- R204 to R206: what the rules of BL_ON and BL_OFF say alike holds of a command with their checks and the write of the flag. -/
theorem switchesBacklight_of_start (hi : start i = State.unlessAborted (State.ifPowered (State.switchBacklight v))) :
    SwitchesBacklight i v := by
  intro s k last h b
  have hbyte : b = blByte s.params.pinMap v := (blByte_eq_pinBit _ v).symm
  have hon : s.abort = false → s.power = true → start i s = State.switchBacklight v s := fun ha hp => by
    rw [hi, unlessAborted_of_not _ ha, ifPowered_of_on _ hp]
  refine ⟨fun ha => exec_of_answer h (start_of_abort i ha), fun ha hp => exec_of_answer h ?_,
    fun ha hp hw hn => exec_of_answer h ?_, fun ha hp hw hn => ?_,
    fun ha hp hw => exec_of_flag_answer (u := s.setBacklight v) h rfl ?_⟩
  · rw [hi, unlessAborted_of_not _ ha, ifPowered_of_off _ hp]
  · rw [hon ha hp, switchBacklight_of_immediate v hw, ifInitialized_of_not _ hn]
  · obtain ⟨w, l, hb⟩ := h.busy
    rw [exec_eq, runCommand_busy _ h.legal hb, hon ha hp, switchBacklight_of_immediate v hw, ifInitialized_of_init _ hn, hbyte]
    have hset := executing_setBacklight h v
    exact ⟨fun t' hg => congrArg _ (finish_write_granted hset _ 0#7 hg),
      fun t' hf => congrArg _ (finish_write_failing hset _ 0#7 hf)⟩
  · rw [hon ha hp, switchBacklight_of_deferred v hw]

/-- Settles O13: BL_ON makes the checks and sets the flag. -/
theorem blOnTurnsTheBacklightOn : Obligations.BlOnTurnsTheBacklightOn :=
  ⟨rfl, switchesBacklight_of_start rfl⟩

/-- Settles O14: BL_OFF makes the checks and clears the flag. -/
theorem blOffTurnsTheBacklightOff : Obligations.BlOffTurnsTheBacklightOff :=
  ⟨rfl, switchesBacklight_of_start rfl⟩

end Sys2Proof.Machine
end

section
/-! PROOFS, family 43_display_commands.md: CLEAR (R238), HOME (R240), and ENABLE with its initialisation (R230 to R233). -/

namespace Sys2Proof.Machine

variable {s : State} {k : Nat} {last : Bool} {t' : Transport}

/-! ### CLEAR and HOME -/

/-- Settles O15: CLEAR makes the checks and loads `CLEARCMD`. -/
theorem clearSendsTheClearCommand : Obligations.ClearSendsTheClearCommand := ⟨rfl, sendsByte_of_start rfl⟩

/-- Settles O16: HOME makes the checks and loads `HOMECMD`. -/
theorem homeSendsTheHomeCommand : Obligations.HomeSendsTheHomeCommand := ⟨rfl, sendsByte_of_start rfl⟩

/-! ### Traces that go through a bind -/

@[simp] theorem enabledAfter_true (es : List Event) : enabledAfter true es = true := by
  induction es with
  | nil => rfl
  | cons e es ih => cases e <;> exact ih

/-- Behind the bind the requests to the transport are the bus writes. -/
theorem requests_eq_length_busWrites {es : List Event} (h : .bind ∉ es) : requests es = (busWrites es).length := by
  induction es with
  | nil => rfl
  | cons e es ih =>
    obtain ⟨he, hes⟩ := List.ne_and_not_mem_of_not_mem_cons h
    cases e with
    | bind => exact absurd rfl he
    | write b => rw [requests, ih hes, busWrites, List.length_cons]
    | _ => exact ih hes

theorem bind_not_mem_initEvents (p : PinMap) (bl : Bool) : .bind ∉ initEvents p bl := by
  simp [initEvents, pulseEvents]

/-- R370: the initialisation makes 36 requests. -/
theorem requests_initEvents (p : PinMap) (bl : Bool) : requests (initEvents p bl) = 36 := rfl

/-- The byte on the port after ENABLE is the last of `ENTRYMODE`. -/
theorem dataAfter_initEvents (d : Byte) (p : PinMap) (bl : Bool) :
    dataAfter d (initEvents p bl) = lastByte p 0x07#8 false bl := rfl

/-- After a bind and more, what a run leaves of an executing command is the enable, the byte on the port and the transport. -/
theorem concluded_ranThrough_bind (h : s.Executing k last) {l : List MicroStep} (hl : eventOnArrival l = []) (es : List Event)
    (d : Byte) (t' : Transport) (st : Status) (a : DdramAddr) (fs : List Event) :
    ({ (s.goTo l).ranThrough (.bind :: es) t' with bwData := d } : State).concluded k last st a fs =
      ({ s with initialized := true, bwData := d, transport := t' } : State).concluded k last st a fs := by
  simp [State.ranThrough, State.concluded, hl, h.noWrite, h.noBind, h.noDelay, enabledAfter]

/-! ### ENABLE -/

/-- R231: ENABLE has the abort check only. -/
theorem passes_enable (ha : s.abort = false) : passes .enable s := ⟨ha, by simp [gated], by simp [needsEnable]⟩

/-- R231: the bind and the 36 writes granted. -/
theorem exec_enable_granted (h : s.Executing k last) (ha : s.abort = false) (hg : Transport.Grants 37 s.transport t') :
    exec .enable s =
      .next (({ s with initialized := true, bwData := lastByte s.params.pinMap 0x07#8 false s.backlight, transport := t' } :
        State).concluded k last .ok 0#7 (.bind :: initEvents s.params.pinMap s.backlight)) := by
  obtain ⟨w, l, hb⟩ := h.busy
  have hreq : requests (emitted (loads .enable s).2) = 37 := by
    rw [loads, emitted_enable, requests, requests_initEvents]
  rw [exec_of_passes h (passes_enable ha),
    runSteps_granted (w := w) (by simp [hb]) (loads_arrived .enable h) (answerOf_enable s) (by rw [hreq]; exact hg),
    loads, emitted_enable, ← dataAfter_initEvents s.bwData]
  exact congrArg _ (concluded_ranThrough_bind h (loads_arrival .enable s) (initEvents s.params.pinMap s.backlight)
    (dataAfter s.bwData (initEvents s.params.pinMap s.backlight)) t' .ok 0#7 _)

/-- R300: a request of ENABLE fails: it is the last event. -/
theorem exec_enable_failing (h : s.Executing k last) (ha : s.abort = false) {pre post : List Event} {e : Event}
    (he : e = .bind ∨ ∃ b, e = .write b) (hev : .bind :: initEvents s.params.pinMap s.backlight = pre ++ e :: post)
    (hf : Transport.FailsAfter (requests pre) s.transport t') :
    exec .enable s =
      .next (({ (s.goTo (loads .enable s).2).ranThrough pre t' with bwData := dataAfter s.bwData (pre ++ [e]) } :
        State).concluded k last .errTransport 0#7 (pre ++ [e])) := by
  obtain ⟨w, l, hb⟩ := h.busy
  rw [exec_of_passes h (passes_enable ha),
    runSteps_failing (w := w) he (by simp [hb]) (loads_arrived .enable h) ((emitted_enable s).trans hev) hf]
  rfl

/-- Settles O17: the run of ENABLE's micro-steps, all its requests granted, its bind failing, or a write behind the bind failing. -/
theorem enableRunsTheInitialisation : Obligations.EnableRunsTheInitialisation := by
  refine ⟨rfl, fun s k last h => ⟨fun ha => exec_of_answer h (start_of_abort _ ha), fun ha => ⟨?_, ?_, ?_⟩⟩⟩
  · exact fun t' hg => exec_enable_granted h ha hg
  · intro t' hf
    rw [exec_enable_failing h ha (pre := []) (.inl rfl) rfl (failsAfter_zero.mpr hf)]
    exact congrArg _ (concluded_ranThrough_writes h rfl [] s.bwData t' .errTransport 0#7 [.bind])
  · intro pre b post t' hev hf
    have hbind : .bind ∉ pre := fun hm =>
      bind_not_mem_initEvents s.params.pinMap s.backlight (hev ▸ List.mem_append_left _ hm)
    have hreq : requests (.bind :: pre) = 1 + (busWrites pre).length := by
      rw [requests, requests_eq_length_busWrites hbind, Nat.add_comm]
    have hdata : dataAfter s.bwData (.bind :: pre ++ [.write b]) = b := by simp [dataAfter]
    rw [exec_enable_failing h ha (pre := .bind :: pre) (.inr ⟨b, rfl⟩) (by rw [hev, List.cons_append]) (hreq ▸ hf), hdata,
      concluded_ranThrough_bind h rfl, List.cons_append]

/-- Settles O18: a computation, for either backlight value. -/
theorem enableTraceOfTheDefaultPins : Obligations.EnableTraceOfTheDefaultPins := by
  intro bl
  cases bl with
  | false => exact ⟨by decide, rfl⟩
  | true => exact ⟨by decide, rfl⟩

/-! ### What ENABLE gives the controller -/

/-- An ENABLE from a known controller is an empty span and, from the bind on, one with the initialisation's writes. -/
theorem spans_enable (p : PinMap) (bl : Bool) (k : Nat) (a : DdramAddr) :
    spans (.bind :: initEvents p bl ++ [.response k .ok a]) = [.known [], .known (busWrites (initEvents p bl))] :=
  congrArg (_ :: ·) (spansFrom_initEvents p bl [] 1 k a)

/-- Settles O19: all that is latched is in the span behind the bind, whose writes are whole nibbles. -/
theorem enableLatchesTheInitialisation : Obligations.EnableLatchesTheInitialisation := by
  intro p bl k a hp
  have hspan : latched p (.bind :: initEvents p bl ++ [.response k .ok a]) = latchedBy p (busWrites (initEvents p bl)) := by
    rw [latched, spans_enable]
    exact List.append_nil _
  rw [hspan, busWrites_initEvents, latchedBy_nibbles hp, initNibbles]

end Sys2Proof.Machine
end

section
/-! PROOFS, family 43_display_commands.md: a wait at the clock edge (R234, R236). -/

namespace Sys2Proof.Machine

variable {s : State} {k ms : Nat} {w : CommandWord} {last : Bool} {rest : List MicroStep}

/-- A cycle of a wait that is not over: the counter counts down. -/
theorem edge_wait_more {p : Pins} (hr : p.rst = false) (hs : s.seq = .busy k w last (.wait ms :: rest)) (hd : s.delay ≠ 0) :
    edge p s = s.dropResponses.setDelay (s.delay - 1) := by
  simp [edge_busy hr hs, edgeBusy, hd]

/-- From a wait with no write outstanding, up to as many edges as the counter holds present no write and are counted down. -/
theorem runEdges_wait_quiet {ps : List Pins} (hr : ∀ q ∈ ps, q.rst = false) (hs : s.seq = .busy k w last (.wait ms :: rest))
    (hv : s.bwValid = false) (hn : ps.length ≤ s.delay) :
    (runEdges ps s).bwValid = false ∧ busWrites (runEdges ps s).trace = busWrites s.trace ∧
    (runEdges ps s).delay = s.delay - ps.length := by
  induction ps generalizing s with
  | nil => exact ⟨hv, rfl, rfl⟩
  | cons q qs ih =>
    obtain ⟨hq, hqs⟩ := List.forall_mem_cons.mp hr
    rw [List.length_cons] at hn
    rw [runEdges, edge_wait_more hq hs (by omega), List.length_cons, Nat.add_comm, ← Nat.sub_sub]
    exact ih hqs hs hv (Nat.le_sub_one_of_lt hn)

/-- Settles O48: the edge that completes the write loads the counter with the bus released, and the wait keeps it so. -/
theorem waitKeepsTheBusQuiet : Obligations.WaitKeepsTheBusQuiet := by
  intro p ps s k w last b ms rest hs hv hp hd he hps hn
  have reached : edge p s = s.dropResponses.dropWrite.goTo (.wait ms :: rest) := by
    rw [edge_write_ok hp hs hv hd he]
    exact respondIfDue_of_busy (by simp [State.respondIfDue, hs])
  have hseq : (s.dropResponses.dropWrite.goTo (.wait ms :: rest)).seq = .busy k w last (.wait ms :: rest) := by simp [hs]
  rw [runEdges, reached]
  simpa [eventOnArrival, busWrites, delayOnArrival, waitCycles] using runEdges_wait_quiet hps hseq rfl hn

end Sys2Proof.Machine
end

section
/-! PROOFS, family 44_text_pseudo_ops.md: the formatted texts (R271 to R275), and the words of a text operation (R281). -/

namespace Sys2Proof.Machine

variable {columns lead j : Nat} {t : List Byte}

/-! ### The formatted texts -/

/-- A text, cut to the line (R271), behind `lead` spaces and filled up with spaces: what the three formats are alike. -/
def padLine (columns lead : Nat) (t : List Byte) : List Byte :=
  spaces lead ++ truncText columns t ++ spaces (columns - lead - (truncText columns t).length)

@[simp] theorem length_spaces (n : Nat) : (spaces n).length = n := List.length_replicate

@[simp] theorem length_truncText (columns : Nat) (t : List Byte) : (truncText columns t).length = min columns t.length :=
  List.length_take

theorem length_padLine (h : lead ≤ columns - t.length) : (padLine columns lead t).length = columns := by
  simp only [padLine, List.length_append, length_spaces, length_truncText]
  omega

/-- The text stands behind its leading spaces, and every other place holds a space. -/
theorem getElem?_padLine (hj : j < columns) :
    (padLine columns lead t)[j]? = if lead ≤ j ∧ j < lead + t.length then t[j - lead]? else some 0x20#8 := by
  rcases Nat.lt_or_ge j lead with hl | hl
  · rw [if_neg (by omega), padLine, List.append_assoc, List.getElem?_append_left (by simpa using hl), spaces,
      List.getElem?_replicate_of_lt hl]
  rw [padLine, List.append_assoc, List.getElem?_append_right (by simpa using hl), length_spaces]
  rcases Nat.lt_or_ge j (lead + t.length) with ht | ht
  · rw [if_pos ⟨hl, ht⟩, List.getElem?_append_left (by simp; omega), truncText, List.getElem?_take_of_lt (by omega)]
  · rw [if_neg (by omega), List.getElem?_append_right (by simp; omega), spaces,
      List.getElem?_replicate_of_lt (by simp only [length_truncText]; omega)]

/-- R272: no leading space. -/
theorem fmtPrint_eq_padLine (columns : Nat) (t : List Byte) : fmtPrint columns t = padLine columns 0 t := rfl

/-- R273: half of the free places lead. -/
theorem fmtCenter_eq_padLine (columns : Nat) (t : List Byte) :
    fmtCenter columns t = padLine columns ((columns - t.length) / 2) t := by
  have free : columns - (truncText columns t).length = columns - t.length := by rw [length_truncText]; omega
  rw [fmtCenter, padLine, free]

/-- R275: all of the free places lead. -/
theorem fmtRjust_eq_padLine (columns : Nat) (t : List Byte) : fmtRjust columns t = padLine columns (columns - t.length) t := by
  have free : columns - (truncText columns t).length = columns - t.length := by rw [length_truncText]; omega
  have full : columns - (columns - t.length) - (truncText columns t).length = 0 := by rw [length_truncText]; omega
  rw [fmtRjust, padLine, free, full]
  exact (List.append_nil _).symm

/-- Settles O50: each format is the cut text behind its own number of leading spaces. -/
theorem formattedTextFillsTheLine : Obligations.FormattedTextFillsTheLine := by
  intro columns t
  have half : (columns - t.length) / 2 ≤ columns - t.length := Nat.div_le_self _ 2
  rw [fmtPrint_eq_padLine, fmtCenter_eq_padLine, fmtRjust_eq_padLine]
  refine ⟨length_padLine (Nat.zero_le _), length_padLine half, length_padLine (Nat.le_refl _), fun j hj => ⟨?_, ?_, ?_⟩⟩
  · rw [getElem?_padLine hj]
    simp
  · exact getElem?_padLine hj
  · have right : columns - t.length ≤ j ∧ j < columns - t.length + t.length ↔ columns - t.length ≤ j := by omega
    rw [getElem?_padLine hj]
    simp only [right]

/-! ### The words of a text operation -/

/-- A payload word is marked last when no other follows it. -/
theorem sendWords_cons (b : Byte) (bs : List Byte) :
    sendWords (b :: bs) = { word := encode (.send true b), last := bs.isEmpty } :: sendWords bs := by
  cases bs <;> rfl

@[simp] theorem length_sendWords (text : List Byte) : (sendWords text).length = text.length := by
  induction text with
  | nil => rfl
  | cons b bs ih => rw [sendWords_cons, List.length_cons, List.length_cons, ih]

@[simp] theorem length_expand (line : Nat) (text : List Byte) : (expand line text).length = text.length + 1 := by
  rw [expand, List.length_cons, length_sendWords]

theorem decode_sendWords (text : List Byte) :
    (sendWords text).map (fun r => decode r.word) = text.map (fun b => .ok (.send true b)) := by
  induction text with
  | nil => rfl
  | cons b bs ih => rw [sendWords_cons, List.map_cons, List.map_cons, ih, decode_encode_send]

theorem sendWords_last {text : List Byte} (h : text ≠ []) :
    (sendWords text).map Request.last = List.replicate (text.length - 1) false ++ [true] := by
  induction text with
  | nil => exact absurd rfl h
  | cons b bs ih =>
    cases bs with
    | nil => rfl
    | cons b' bs => rw [sendWords_cons, List.map_cons, ih (List.cons_ne_nil _ _)]; rfl

theorem decode_encode_setpos {line col : Nat} (hl : line ≤ 255) (hc : col ≤ 255) :
    decode (encode (.setpos line col)) = .ok (.setpos line col) :=
  decodeOfEncodeIsTheInstruction _ (wellFormed_setpos.mpr ⟨hl, hc⟩)

/-- Settles O51: SETPOS is not marked last, and the payload is marked at its end only. -/
theorem expansionIsOneTransaction : Obligations.ExpansionIsOneTransaction := by
  intro line text hl hne
  constructor
  · rw [expand, List.map_cons, decode_encode_setpos hl (by decide), decode_sendWords]
  · have hpos := List.length_pos_of_ne_nil hne
    rw [expand, List.map_cons, sendWords_last hne, ← List.cons_append, ← List.replicate_succ, Nat.sub_add_cancel hpos]

end Sys2Proof.Machine
end

section
/-! PROOFS, family 44_text_pseudo_ops.md: a text operation's transaction, run word by word (R281, R282, R302, R311, R320). -/

namespace Sys2Proof.Machine

variable {s t u : State} {k n : Nat} {aborted : Bool} {r : Request} {ws rs : List Request} {es fs : List Event}
  {st : Status} {t' : Transport}

/-! ### Runs of steps -/

theorem run_add {m n : Nat} : ∀ {s t : State}, Host.Core.run core m s = .next t →
    Host.Core.run core (m + n) s = Host.Core.run core n t := by
  induction m with
  | zero =>
    intro s t h
    cases h
    rw [Nat.zero_add]
  | succ m ih =>
    intro s t h
    rw [Nat.succ_add]
    simp only [Host.Core.run] at h ⊢
    cases hs : core.step s with
    | next s' =>
      rw [hs] at h
      exact ih h
    | fault f => rw [hs] at h; cases h
    | refused f => rw [hs] at h; cases h

theorem run_one (h : step s = .next t) : Host.Core.run core 1 s = .next t := by
  have hs : core.step s = .next t := h
  simp [Host.Core.run, hs]

/-- `n` steps take `s` to `t`, emit `es`, and leave the parameters and the flags. -/
structure State.Runs (n : Nat) (es : List Event) (s t : State) : Prop where
  run : Host.Core.run core n s = .next t
  trace : t.trace = s.trace ++ es
  params : t.params = s.params
  power : t.power = s.power
  initialized : t.initialized = s.initialized
  backlight : t.backlight = s.backlight

theorem State.Runs.refl (s : State) : s.Runs 0 [] s := ⟨rfl, by simp, rfl, rfl, rfl, rfl⟩

/-- One run after another, the first of one step. -/
theorem State.Runs.cons (h : s.Runs 1 es t) (h' : t.Runs n fs u) : s.Runs (n + 1) (es ++ fs) u where
  run := by rw [Nat.add_comm, run_add h.run, h'.run]
  trace := by rw [h'.trace, h.trace, List.append_assoc]
  params := h'.params.trans h.params
  power := h'.power.trans h.power
  initialized := h'.initialized.trans h.initialized
  backlight := h'.backlight.trans h.backlight

/-! ### A transaction under way -/

/-- Of a requester's words the last one is marked last, and no other (R281). -/
def onlyLastMarked : List Request → Bool
  | [] => true
  | r :: rs => r.last == rs.isEmpty && onlyLastMarked rs

theorem onlyLastMarked_sendWords (text : List Byte) : onlyLastMarked (sendWords text) = true := by
  induction text with
  | nil => rfl
  | cons b bs ih => cases bs with
    | nil => rfl
    | cons b' bs => rw [sendWords_cons, onlyLastMarked, ih, sendWords_cons]; rfl

theorem onlyLastMarked_expand (line : Nat) {text : List Byte} (h : text ≠ []) : onlyLastMarked (expand line text) = true := by
  rw [expand, onlyLastMarked, onlyLastMarked_sendWords]
  cases text with
  | nil => exact absurd rfl h
  | cons b bs => rw [sendWords_cons]; rfl

/-- The words `ws` are left of a transaction of requester `k`, which has failed or not; with none left it is over. -/
structure State.InTransaction (k : Nat) (aborted : Bool) (ws : List Request) (s : State) : Prop where
  marked : onlyLastMarked ws = true
  serves : ws ≠ [] → s.Serves k ws ∧ s.abort = aborted
  ended : ws = [] → s.owner = none ∧ s.abort = false

/-- A consistent idle block is about to run the text operation that its only presenting requester presents. -/
theorem State.Consistent.inTransaction {line : Nat} {text : List Byte} (hc : s.Consistent) (hi : s.seq = .idle)
    (ho : s.owner = none) (hne : text ≠ []) (hp : (s.ports[k]?).map Port.pending = some (expand line text))
    (hj : ∀ j, j ≠ k → s.presented j = none) : s.InTransaction k false (expand line text) :=
  ⟨onlyLastMarked_expand line hne, fun _ => hc.serves hi ho hp hj, fun h => absurd h (List.cons_ne_nil _ _)⟩

/-- The state in which the next word is run. -/
theorem State.InTransaction.executing (h : s.InTransaction k aborted (r :: rs)) :
    (s.dropResponses.accept k r).Executing k r.last :=
  (h.serves (List.cons_ne_nil r rs)).1.step.2.1

theorem State.InTransaction.abort_eq (h : s.InTransaction k aborted (r :: rs)) :
    (s.dropResponses.accept k r).abort = aborted :=
  (h.serves (List.cons_ne_nil r rs)).2

/-- R302, R310, R320: the next word answered, the transaction has the words behind it left, and has failed if it had or if the
answer is an error. -/
theorem State.InTransaction.answer {d : Byte} {a : DdramAddr} {bs : List Byte} (h : s.InTransaction k aborted (r :: rs))
    (hw : execWord r.word (s.dropResponses.accept k r) =
      .next (({ s.dropResponses.accept k r with bwData := d, transport := t' } : State).concluded k r.last st a
        (bs.map .write))) :
    ∃ t, s.Runs 1 (bs.map .write ++ [.response k st a]) t ∧ t.InTransaction k (aborted || st.aborts) rs ∧
      t.transport = t' := by
  obtain ⟨hs, hab⟩ := h.serves (List.cons_ne_nil r rs)
  obtain ⟨hstep, hex, howner, hpending⟩ := hs.step
  obtain ⟨hlast, hmarked⟩ : r.last = rs.isEmpty ∧ onlyLastMarked rs = true := by simpa [onlyLastMarked] using h.marked
  refine ⟨_, ⟨run_one (hstep.trans hw), by simp, rfl, rfl, rfl, rfl⟩, ⟨hmarked, fun hne => ?_, fun hnil => ?_⟩, rfl⟩
  · have hmore : r.last = false := by simpa [hlast] using hne
    rw [hmore] at hex ⊢
    exact ⟨hex.serves d t' (howner hmore) hpending, by simp [hab]⟩
  · have hend : r.last = true := by simp [hlast, hnil]
    simp [hend]

/-- A word that only answers makes no bus write. -/
theorem State.InTransaction.answer_only {a : DdramAddr} (h : s.InTransaction k aborted (r :: rs))
    (hw : execWord r.word (s.dropResponses.accept k r) = .next ((s.dropResponses.accept k r).concluded k r.last st a [])) :
    ∃ t, s.Runs 1 [.response k st a] t ∧ t.InTransaction k (aborted || st.aborts) rs ∧ t.transport = s.transport :=
  h.answer (bs := []) hw

/-! ### Transactions whose words all only answer -/

/-- Words that all answer the same status, no error, run to the end of their transaction. -/
theorem State.InTransaction.run_answers (h : s.InTransaction k aborted ws) (hst : st.aborts = false)
    (hw : ∀ r ∈ ws, ∀ u : State, u.Executing k r.last → u.abort = aborted → u.power = s.power →
      execWord r.word u = .next (u.concluded k r.last st 0#7 [])) :
    ∃ t, s.Runs ws.length (List.replicate ws.length (.response k st 0#7)) t ∧ t.InTransaction k aborted [] ∧
      t.transport = s.transport := by
  induction ws generalizing s with
  | nil => exact ⟨s, .refl s, h, rfl⟩
  | cons r rs ih =>
    obtain ⟨t, hrun, ht, htr⟩ := h.answer_only (hw r (.head _) _ h.executing h.abort_eq rfl)
    rw [hst, Bool.or_false] at ht
    obtain ⟨t₂, hrun₂, ht₂, htr₂⟩ := ih ht fun r hr u hu hab hp => hw r (.tail _ hr) u hu hab (hp.trans hrun.power)
    exact ⟨t₂, hrun.cons hrun₂, ht₂, htr₂.trans htr⟩

/-- R311: a word of an aborted transaction is skipped, whatever it is. -/
theorem execWord_of_abort {last : Bool} (h : u.Executing k last) (ha : u.abort = true) (w : CommandWord) :
    execWord w u = .next (u.concluded k last .skipped 0#7 []) := by
  obtain ⟨w', l, hb⟩ := h.busy
  rw [execWord, if_pos ha, execSkipped, runCommand_busy _ h.legal hb, answerWith_eq, finish_goTo_respond hb]

/-- R311: an aborted transaction is skipped to its end. -/
theorem State.InTransaction.run_skipped (h : s.InTransaction k true ws) :
    ∃ t, s.Runs ws.length (List.replicate ws.length (.response k .skipped 0#7)) t ∧ t.InTransaction k true [] ∧
      t.transport = s.transport :=
  h.run_answers rfl fun r _ _ hu ha _ => execWord_of_abort hu ha r.word

@[simp] theorem statuses_replicate_response (n k : Nat) (st : Status) (a : DdramAddr) :
    statuses (List.replicate n (.response k st a)) = List.replicate n st := by
  induction n with
  | zero => rfl
  | succ n ih => rw [List.replicate_succ, statuses, ih, List.replicate_succ]

@[simp] theorem busWrites_replicate_response (n k : Nat) (st : Status) (a : DdramAddr) :
    busWrites (List.replicate n (.response k st a)) = [] := by
  induction n with
  | zero => rfl
  | succ n ih => simpa [List.replicate_succ, busWrites] using ih

/-- R282: statuses that are no errors give no error. -/
theorem hostResult_replicate (n : Nat) (h : st.aborts = false) : hostResult (List.replicate n st) = none := by
  simp [hostResult, h]

/-- R282: the host is told of the first error, whatever comes behind it. -/
theorem hostResult_of_error (n : Nat) (sts : List Status) (h : st.aborts = true) :
    hostResult (List.replicate n .ok ++ st :: sts) = some st := by
  have ok : Status.ok.aborts = false := rfl
  simp [hostResult, ok, h]

/-- The first word of a text operation fails without a bus write: the others are skipped. -/
theorem textOperation_of_failing_setpos {line : Nat} {text : List Byte}
    (h : s.InTransaction k false (expand line text)) (hl : line ≤ 255) (hst : st.aborts = true)
    (hx : ∀ u : State, u.Executing k false → u.abort = false → u.power = s.power → u.initialized = s.initialized →
      u.params = s.params → exec (.setpos line 0) u = .next (u.concluded k false st 0#7 [])) :
    ∃ t es, Host.Core.run core (text.length + 1) s = .next t ∧ t.trace = s.trace ++ es ∧
      statuses es = st :: List.replicate text.length .skipped ∧ busWrites es = [] ∧
      hostResult (statuses es) = some st ∧ t.owner = none ∧ t.abort = false := by
  have hdec := decode_encode_setpos hl (Nat.zero_le 255)
  obtain ⟨t, hrun, ht, -⟩ := h.answer_only
    ((execWord_of_decode hdec _).trans (hx _ h.executing h.abort_eq rfl rfl rfl))
  rw [hst, Bool.or_true] at ht
  obtain ⟨t₂, hrun₂, ht₂, -⟩ := ht.run_skipped
  rw [length_sendWords] at hrun₂
  have hboth := hrun.cons hrun₂
  obtain ⟨hown, hab⟩ := ht₂.ended rfl
  have hsts : statuses ([.response k st 0#7] ++ List.replicate text.length (.response k .skipped 0#7)) =
      st :: List.replicate text.length .skipped := by simp [statuses]
  exact ⟨t₂, _, hboth.run, hboth.trace, hsts, by simp [busWrites], by rw [hsts]; exact hostResult_of_error 0 _ hst, hown, hab⟩

/-- Settles O53: SETPOS answers the validation error, and the transaction is aborted. -/
theorem textOperationOnAnInvalidLine : Obligations.TextOperationOnAnInvalidLine := by
  intro s k line text hc hi ho hp hl hline hne hpend hj
  refine textOperation_of_failing_setpos (hc.inTransaction hi ho hne hpend hj) hl rfl fun u hu ha hpu _ hparams =>
    exec_of_answer hu (start_setpos_of_invalid ha (hpu.trans hp) (resolve_of_invalid ?_))
  rw [hparams]
  omega

/-- Settles O58: SETPOS answers that the hardware is not enabled, and the transaction is aborted. -/
theorem textOperationBeforeEnable : Obligations.TextOperationBeforeEnable := by
  intro s k line a text hc hi ho hp hn hl hv hne hpend hj
  refine textOperation_of_failing_setpos (hc.inTransaction hi ho hne hpend hj) hl rfl fun u hu ha hpu hinit hparams =>
    exec_of_answer hu ?_
  rw [start_setpos_of_valid ha (hpu.trans hp) (hparams ▸ hv), ifInitialized_of_not _ (hinit.trans hn)]

/-- The words of a text operation are those of SETPOS and SEND. -/
theorem mem_expand {line : Nat} {text : List Byte} (hl : line ≤ 255) (h : r ∈ expand line text) :
    decode r.word = .ok (.setpos line 0) ∨ ∃ b, decode r.word = .ok (.send true b) := by
  rcases List.mem_cons.mp h with rfl | h
  · exact .inl (decode_encode_setpos hl (Nat.zero_le 255))
  · have hm := List.mem_map_of_mem (f := fun r : Request => decode r.word) h
    rw [decode_sendWords] at hm
    obtain ⟨b, -, hb⟩ := List.mem_map.mp hm
    exact .inr ⟨b, hb.symm⟩

/-- Settles O52: the power gate of SETPOS and of SEND answers `OK_OFF`, which aborts nothing. -/
theorem textOperationPoweredOff : Obligations.TextOperationPoweredOff := by
  intro s k line text hc hi ho hp hl hne hpend hj
  have h := hc.inTransaction hi ho hne hpend hj
  obtain ⟨t, hrun, ht, -⟩ := h.run_answers (st := .okOff) rfl fun r hr u hu ha hpu => by
    rcases mem_expand hl hr with hd | ⟨b, hd⟩
    · rw [execWord_of_decode hd]
      exact exec_of_answer hu (start_setpos_of_off ha (hpu.trans hp))
    · rw [execWord_of_decode hd]
      exact ((sendSendsItsValue true b).2 u k r.last hu).2.1 ha (hpu.trans hp)
  rw [length_expand] at hrun
  obtain ⟨hown, hab⟩ := ht.ended rfl
  exact ⟨t, _, hrun.run, hrun.trace, statuses_replicate_response .., busWrites_replicate_response ..,
    by rw [statuses_replicate_response, hostResult_replicate _ rfl], hown, hab⟩

end Sys2Proof.Machine
end

section
/-! PROOFS, family 44_text_pseudo_ops.md: a text operation whose words send their bytes: what is written, granted or up to a failing
write (R145, R174, R281, R325), and what the controller has received of it (R144). -/

namespace Sys2Proof.Machine

variable {s t u : State} {k j : Nat} {r : Request} {ws rs : List Request} {t' : Transport} {p : Params}
  {bl : Bool}

/-! ### What a word sends -/

/-- What a word that sends a byte stands for: the register, the byte, and the address it answers with `OK`. -/
structure Sending where
  rs : Bool
  byte : Byte
  addr : DdramAddr

/-- The six bus writes of the byte. -/
def Sending.writes (p : PinMap) (bl : Bool) (x : Sending) : List Byte := byteWrites p x.byte x.rs bl

/-- What is observed of the word when its writes are granted. -/
def Sending.events (p : PinMap) (bl : Bool) (k : Nat) (x : Sending) : List Event :=
  (x.writes p bl).map .write ++ [.response k .ok x.addr]

@[simp] theorem length_writes (p : PinMap) (bl : Bool) (x : Sending) : (x.writes p bl).length = 6 := rfl

@[simp] theorem busWrites_events (p : PinMap) (bl : Bool) (k : Nat) (x : Sending) :
    busWrites (x.events p bl k) = x.writes p bl := by
  simp [Sending.events, busWrites]

@[simp] theorem statuses_events (p : PinMap) (bl : Bool) (k : Nat) (x : Sending) : statuses (x.events p bl k) = [.ok] := by
  simp [Sending.events, statuses]

theorem length_flatMap_writes (q : PinMap) (bl : Bool) (xs : List Sending) :
    (xs.flatMap (Sending.writes q bl)).length = 6 * xs.length := by
  simp [List.length_flatMap, Nat.mul_comm]

@[simp] theorem busWrites_flatMap_events (q : PinMap) (bl : Bool) (k : Nat) (xs : List Sending) :
    busWrites (xs.flatMap (Sending.events q bl k)) = xs.flatMap (Sending.writes q bl) := by
  induction xs with
  | nil => rfl
  | cons x xs ih => rw [List.flatMap_cons, busWrites_append, busWrites_events, ih, List.flatMap_cons]

@[simp] theorem statuses_flatMap_events (q : PinMap) (bl : Bool) (k : Nat) (xs : List Sending) :
    statuses (xs.flatMap (Sending.events q bl k)) = List.replicate xs.length .ok := by
  induction xs with
  | nil => rfl
  | cons x xs ih => rw [List.flatMap_cons, statuses_append, statuses_events, ih]; rfl

/-- The word decodes to a command that, behind its checks, sends the byte of `x` and answers the address of `x`. -/
def Sends (p : Params) (r : Request) (x : Sending) : Prop :=
  ∃ i, decode r.word = .ok i ∧ ∀ u : State, u.params = p → u.abort = false → u.power = true → u.initialized = true →
    start i u = u.sendAndRespond x.byte x.rs x.addr

/-- R281, R173: what the words of a text operation send: the set-address byte to the command register, the text as data. -/
def textSendings (a : DdramAddr) (text : List Byte) : List Sending :=
  { rs := false, byte := setAddrCmd a, addr := a } :: text.map (fun b => { rs := true, byte := b, addr := 0#7 })

theorem length_textSendings (a : DdramAddr) (text : List Byte) : (textSendings a text).length = text.length + 1 := by
  rw [textSendings, List.length_cons, List.length_map]

theorem bytes_textSendings (a : DdramAddr) (text : List Byte) :
    (textSendings a text).map (fun x => (x.rs, x.byte)) = (false, setAddrCmd a) :: text.map (fun b => (true, b)) := by
  rw [textSendings, List.map_cons, List.map_map]
  rfl

/-- The bytes of a text operation, as bus writes. -/
theorem writes_textSendings (q : PinMap) (bl : Bool) (a : DdramAddr) (text : List Byte) :
    (textSendings a text).flatMap (Sending.writes q bl) =
      byteWrites q (setAddrCmd a) false bl ++ text.flatMap (fun b => byteWrites q b true bl) := by
  rw [textSendings, List.flatMap_cons, List.flatMap_map]
  rfl

theorem sends_send (p : Params) (b : Byte) (last : Bool) :
    Sends p { word := encode (.send true b), last := last } { rs := true, byte := b, addr := 0#7 } :=
  ⟨_, decode_encode_send true b, fun u _ ha hp hi => by
    rw [start, startSend, unlessAborted_of_not _ ha, ifPowered_of_on _ hp, ifInitialized_of_init _ hi]⟩

theorem sends_setpos {p : Params} {line : Nat} {a : DdramAddr} (hl : line ≤ 255) (hv : resolve p line 0 = some a) (last : Bool) :
    Sends p { word := encode (.setpos line 0), last := last } { rs := false, byte := setAddrCmd a, addr := a } :=
  ⟨_, decode_encode_setpos hl (Nat.zero_le 255), fun u hu ha hp hi => by
    rw [start_setpos_of_valid ha hp (hu ▸ hv), ifInitialized_of_init _ hi]⟩

theorem expand_sends {p : Params} {line : Nat} {a : DdramAddr} (hl : line ≤ 255) (hv : resolve p line 0 = some a)
    (text : List Byte) : List.Forall₂ (Sends p) (expand line text) (textSendings a text) := by
  refine .cons (sends_setpos hl hv false) ?_
  induction text with
  | nil => exact .nil
  | cons b bs ih =>
    rw [sendWords_cons, List.map_cons]
    exact .cons (sends_send p b _) ih

/-! ### One word of a transaction -/

/-- Nothing stands in the way of a byte; the parameters and the backlight flag say how it is written. -/
structure State.ReadyToSend (p : Params) (bl : Bool) (s : State) : Prop where
  params : s.params = p
  power : s.power = true
  initialized : s.initialized = true
  backlight : s.backlight = bl

theorem State.Runs.readyToSend {n : Nat} {es : List Event} (h : s.Runs n es t) (hs : s.ReadyToSend p bl) : t.ReadyToSend p bl :=
  ⟨h.params.trans hs.params, h.power.trans hs.power, h.initialized.trans hs.initialized, h.backlight.trans hs.backlight⟩

/-- R145, R174: the next word, its writes granted. -/
theorem State.InTransaction.send_granted {x : Sending} (h : s.InTransaction k false (r :: rs)) (hs : s.ReadyToSend p bl)
    (hx : Sends p r x) (hg : Transport.Grants 6 s.transport t') :
    ∃ t, s.Runs 1 (x.events p.pinMap bl k) t ∧ t.InTransaction k false rs ∧ t.transport = t' := by
  obtain ⟨rfl, hp, hi, rfl⟩ := hs
  obtain ⟨i, hd, hstart⟩ := hx
  exact h.answer ((execWord_of_decode hd _).trans
    ((exec_of_sendAndRespond h.executing (hstart _ rfl h.abort_eq hp hi)).1 t' hg))

/-- R325: the next word, its write number `j + 1` failing. -/
theorem State.InTransaction.send_failing {x : Sending} (h : s.InTransaction k false (r :: rs)) (hs : s.ReadyToSend p bl)
    (hx : Sends p r x) (hj : j < 6) (hf : Transport.FailsAfter j s.transport t') :
    ∃ t, s.Runs 1 (((x.writes p.pinMap bl).take (j + 1)).map .write ++ [.response k .errTransport 0#7]) t ∧
      t.InTransaction k true rs ∧ t.transport = t' := by
  obtain ⟨rfl, hp, hi, rfl⟩ := hs
  obtain ⟨i, hd, hstart⟩ := hx
  have hlt : j < (x.writes s.params.pinMap s.backlight).length := hj
  have hlen : ((x.writes s.params.pinMap s.backlight).take j).length = j := List.length_take_of_le hlt.le
  have hsplit := (List.take_append_drop j (x.writes s.params.pinMap s.backlight)).symm
  rw [List.drop_eq_getElem_cons hlt] at hsplit
  rw [List.take_succ_eq_append_getElem hlt]
  exact h.answer ((execWord_of_decode hd _).trans
    ((exec_of_sendAndRespond h.executing (hstart _ rfl h.abort_eq hp hi)).2 _ _ _ t' hsplit (hlen.symm ▸ hf)))

/-! ### The whole transaction -/

/-- A failure behind `m` requests and more: the first `m` are granted. -/
theorem failsAfter_add {m j : Nat} {t t' : Transport} (h : Transport.FailsAfter (m + j) t t') :
    ∃ t₁, Transport.Grants m t t₁ ∧ Transport.FailsAfter j t₁ t' := by
  obtain ⟨t₂, hg, hf⟩ := h
  obtain ⟨t₁, hg₁, hg₂⟩ := grants_add.mp hg
  exact ⟨t₁, hg₁, t₂, hg₂, hf⟩

/-- All writes granted: every word sends its byte. -/
theorem State.InTransaction.run_granted {xs : List Sending} (h : s.InTransaction k false ws) (hs : s.ReadyToSend p bl)
    (hx : List.Forall₂ (Sends p) ws xs) (hg : Transport.Grants (6 * ws.length) s.transport t') :
    ∃ t, s.Runs ws.length (xs.flatMap (Sending.events p.pinMap bl k)) t ∧ t.InTransaction k false [] := by
  induction hx generalizing s with
  | nil => exact ⟨s, .refl s, h⟩
  | cons hx₁ hxs ih =>
    rw [List.length_cons, Nat.mul_succ, Nat.add_comm, grants_add] at hg
    obtain ⟨t₁, hg₁, hg₂⟩ := hg
    obtain ⟨u, hrun, hu, rfl⟩ := h.send_granted hs hx₁ hg₁
    obtain ⟨t, hrun', ht⟩ := ih hu (hrun.readyToSend hs) hg₂
    exact ⟨t, hrun.cons hrun', ht⟩

/-- Write number `j + 1` of the transaction failing: the words before the one that makes it send their bytes, and those behind
it are skipped. -/
theorem State.InTransaction.run_failing {xs : List Sending} (h : s.InTransaction k false ws) (hs : s.ReadyToSend p bl)
    (hx : List.Forall₂ (Sends p) ws xs) (hj : j < 6 * ws.length) (hf : Transport.FailsAfter j s.transport t') :
    ∃ t es, s.Runs ws.length es t ∧
      statuses es = List.replicate (j / 6) .ok ++ .errTransport :: List.replicate (ws.length - 1 - j / 6) .skipped ∧
      busWrites es = (xs.flatMap (Sending.writes p.pinMap bl)).take (j + 1) ∧ t.transport = t' ∧
      t.owner = none ∧ t.abort = false := by
  induction hx generalizing s j with
  | nil => exact absurd hj (Nat.not_lt_zero j)
  | @cons r x ws xs hx₁ hxs ih =>
    rcases Nat.lt_or_ge j 6 with hlt | hge
    · obtain ⟨u, hrun, hu, rfl⟩ := h.send_failing hs hx₁ hlt hf
      obtain ⟨t, hrun', ht, htr⟩ := hu.run_skipped
      obtain ⟨hown, hab⟩ := ht.ended rfl
      refine ⟨t, _, hrun.cons hrun', ?_, ?_, htr, hown, hab⟩
      · simp [statuses, Nat.div_eq_of_lt hlt, -List.map_take]
      · rw [List.flatMap_cons, List.take_append_of_le_length (Nat.succ_le_of_lt hlt)]
        simp [busWrites, -List.map_take]
    · obtain ⟨i, rfl⟩ := Nat.exists_eq_add_of_le hge
      obtain ⟨t₁, hg, hf'⟩ := failsAfter_add hf
      obtain ⟨u, hrun, hu, rfl⟩ := h.send_granted hs hx₁ hg
      rw [List.length_cons] at hj
      obtain ⟨t, es, hrun', hsts, hbus, hend⟩ := ih hu (hrun.readyToSend hs) (by omega) hf'
      have hdiv : (6 + i) / 6 = i / 6 + 1 := by omega
      refine ⟨t, _, hrun.cons hrun', ?_, ?_, hend⟩
      · have hrest : ws.length + 1 - 1 - (i / 6 + 1) = ws.length - 1 - i / 6 := by omega
        rw [statuses_append, statuses_events, hsts, hdiv, List.length_cons, hrest, List.replicate_succ]
        rfl
      · have hmore : 6 + i + 1 = (x.writes p.pinMap bl).length + (i + 1) := Nat.add_assoc 6 i 1
        rw [busWrites_append, busWrites_events, hbus, List.flatMap_cons, hmore, List.take_length_add_append]

/-- Settles O59: every word of the operation sends a byte, and the transaction fails at its write number `j + 1`. -/
theorem textOperationWithAFailingWrite : Obligations.TextOperationWithAFailingWrite := by
  intro s k line j a text t' hc hi ho hp hn hl hv hne hpend hother hj hf
  obtain ⟨t, es, hrun, hsts, hbus, htr, hown, hab⟩ := (hc.inTransaction hi ho hne hpend hother).run_failing
    ⟨rfl, hp, hn, rfl⟩ (expand_sends hl hv text) (by rwa [length_expand]) hf
  rw [length_expand] at hrun hsts
  rw [writes_textSendings] at hbus
  exact ⟨t, es, hrun.run, hrun.trace, hsts, hbus, by rw [hsts]; exact hostResult_of_error _ _ rfl, htr, hown, hab⟩

/-! ### What the controller has received -/

/-- R71, R144: while E is low, one byte's writes behind others latch its two nibbles. -/
theorem latchedBy_append_byteWrites {q : PinMap} (h : (pinPositions q).Nodup) (v : Byte) (rs bl : Bool) {kws : List Byte}
    (hlow : ∀ b, kws.getLast? = some b → pinLevel q.e b = false) :
    latchedBy q (kws ++ byteWrites q v rs bl) =
      latchedBy q kws ++ [{ rs := rs, nibble := highNibble v }, { rs := rs, nibble := lowNibble v }] := by
  cases kws with
  | nil => exact latchedBy_nibbles h rs bl [highNibble v, lowNibble v]
  | cons b bs =>
    have hl : pinLevel q.e ((b :: bs).getLast (List.cons_ne_nil b bs)) = false :=
      hlow _ (List.getLast?_eq_some_getLast _)
    rw [List.cons_append, latchedBy, latchedAfter_append q _ bs b hl, byteWrites_eq_nibbles, latchedAfter_nibbles h rs bl _ hl]
    rfl

/-- The known span that a trace ends in, where the controller is between two bytes after it. -/
theorem betweenBytes_iff {q : PinMap} {tr : List Event} :
    betweenBytes q tr = true ↔ ∃ kws, (spans tr).getLast? = some (.known kws) ∧ (latchedBy q kws).length % 2 = 0 ∧
      ∀ b, kws.getLast? = some b → pinLevel q.e b = false := by
  unfold betweenBytes
  rcases (spans tr).getLast? with _ | ⟨kws⟩ | ⟨ws, n⟩
  · simp
  · cases hl : kws.getLast? <;> simp [hl]
  · simp

/-- R144: a byte sent to a controller between two bytes is received, and it is between two bytes again. -/
theorem received_events {q : PinMap} (h : (pinPositions q).Nodup) (bl : Bool) (k : Nat) (x : Sending) {tr : List Event}
    (hb : betweenBytes q tr = true) :
    received q (tr ++ x.events q bl k) = received q tr ++ [(x.rs, x.byte)] ∧
    betweenBytes q (tr ++ x.events q bl k) = true := by
  obtain ⟨kws, hlast, heven, hlow⟩ := betweenBytes_iff.mp hb
  obtain ⟨pre, hold⟩ := List.getLast?_eq_some_iff.mp hlast
  have hspans : spans (tr ++ x.events q bl k) = pre ++ [.known (kws ++ x.writes q bl)] := by
    have hnew := spansFrom_response_ok (es := (x.writes q bl).map .write) (by simp [answeredOk])
    rw [spans, spansFrom_append hlast rfl, Sending.events, hnew, busWrites_writes]
    exact congrArg (· ++ _) ((congrArg List.dropLast hold).trans List.dropLast_concat)
  have hlatch := latchedBy_append_byteWrites h x.byte x.rs bl hlow
  constructor
  · have hnibbles : receivedBytes [{ rs := x.rs, nibble := highNibble x.byte }, { rs := x.rs, nibble := lowNibble x.byte }] =
        [(x.rs, x.byte)] := receivedBytes_bytes [(x.rs, x.byte)]
    simp only [received, hspans, hold, List.flatMap_append, List.flatMap_singleton, Span.latches]
    rw [Sending.writes, hlatch, receivedBytes_append _ _ heven, hnibbles, List.append_assoc]
  · refine betweenBytes_iff.mpr ⟨_, by rw [hspans, List.getLast?_concat], ?_, fun b hb => ?_⟩
    · rw [Sending.writes, hlatch, List.length_append]
      exact (Nat.add_mod_right _ 2).trans heven
    · have hend : (kws ++ x.writes q bl).getLast? = some (pack q (lowNibble x.byte) x.rs bl false) :=
        List.getLast?_append_of_ne_nil _ (List.cons_ne_nil _ _)
      rw [hend] at hb
      cases hb
      exact (latch_levels h _ x.rs bl false).1

/-- R144: so with all the bytes of a transaction. -/
theorem received_flatMap_events {q : PinMap} (h : (pinPositions q).Nodup) (bl : Bool) (k : Nat) (xs : List Sending)
    {tr : List Event} (hb : betweenBytes q tr = true) :
    received q (tr ++ xs.flatMap (Sending.events q bl k)) = received q tr ++ xs.map (fun x => (x.rs, x.byte)) ∧
    betweenBytes q (tr ++ xs.flatMap (Sending.events q bl k)) = true := by
  induction xs generalizing tr with
  | nil => simpa using hb
  | cons x xs ih =>
    obtain ⟨hrec, hb'⟩ := received_events h bl k x hb
    rw [List.flatMap_cons, ← List.append_assoc, List.map_cons, ← List.singleton_append, ← List.append_assoc, ← hrec]
    exact ih hb'

/-- Settles O54: every word of the operation sends its byte, and the controller receives the bytes one after another. -/
theorem textOperationWritesTheText : Obligations.TextOperationWritesTheText := by
  intro s k line a text t' hc hi ho hp hn hl hv hne hpend hother hg
  obtain ⟨t, hrun, ht⟩ := (hc.inTransaction hi ho hne hpend hother).run_granted
    ⟨rfl, hp, hn, rfl⟩ (expand_sends hl hv text) (by rwa [length_expand])
  rw [length_expand] at hrun
  obtain ⟨hown, hab⟩ := ht.ended rfl
  obtain ⟨-, -, hpins, -, -⟩ := (legal_iff s).mp hc.legal
  refine ⟨t, _, hrun.run, hrun.trace, ?_, ?_, fun hb => ?_, hown, hab⟩
  · rw [statuses_flatMap_events, length_textSendings]
  · rw [busWrites_flatMap_events, length_flatMap_writes, length_textSendings]
  · rw [hrun.trace]
    have hrec := received_flatMap_events hpins s.backlight k (textSendings a text) hb
    rwa [bytes_textSendings] at hrec

end Sys2Proof.Machine
end

section
/-! PROOFS, family 60_exceptions.md: the status codes (R301), and the checks that answer before any effect (R303, R305, R307,
R315). -/

namespace Sys2Proof.Machine

variable {s : State} {i : Instr} {k line col : Nat} {last rs : Bool} {v : Byte}

/-! ### The status codes -/

/-- Settles O20: one status after the other. -/
theorem statusCodes : Obligations.StatusCodes := by
  refine ⟨by decide, fun st => ?_⟩
  cases st <;> decide

/-! ### Check 3: the power gate -/

/-- R305: behind the abort check a gated command has the power gate. -/
theorem start_of_gated (hg : gated i = true) : ∃ f, start i = State.unlessAborted (State.ifPowered f) := by
  cases i with
  | setpos | send | clear | home | blOn | blOff => exact ⟨_, rfl⟩
  | enable | powerOn | powerOff | resolve => cases hg

/-- R305: powered off, it answers `OK_OFF` and loads nothing else. -/
theorem start_of_gated_off (hg : gated i = true) (ha : s.abort = false) (hp : s.power = false) :
    start i s = s.goTo [.respond .okOff 0#7] := by
  obtain ⟨f, hf⟩ := start_of_gated hg
  rw [hf, unlessAborted_of_not _ ha, ifPowered_of_off _ hp]

/-- R305, R307: a command that needs the hardware enabled is a gated one. -/
theorem gated_of_needsEnable {p : Params} (h : needsEnable p i = true) : gated i = true := by
  cases i with
  | setpos | send | clear | home | blOn | blOff => rfl
  | enable | powerOn | powerOff | resolve => cases h

/-- A command that is not gated has no check but that of the abort flag, validation aside. -/
theorem passes_of_not_gated (ha : s.abort = false) (hg : gated i = false) : passes i s :=
  ⟨ha, fun h => by simp [hg] at h, fun h => by simp [gated_of_needsEnable h] at hg⟩

/-! ### Check 4: the position -/

/-- R303: a position command that has passed the power gate and whose position is invalid answers `ERR_VALIDATION`. -/
theorem start_of_invalid (hi : position i = some (line, col)) (ha : s.abort = false) (hp : gated i = true → s.power = true)
    (hn : resolve s.params line col = none) : start i s = s.goTo [.respond .errValidation 0#7] := by
  cases i with
  | setpos l c =>
    cases hi
    exact start_setpos_of_invalid ha (hp rfl) hn
  | resolve l c =>
    cases hi
    rw [start_resolve ha, ifValid_of_none _ hn]
  | enable | powerOn | powerOff | blOn | blOff | clear | home | send => cases hi

/-- Settles O22: the check of the position stands before that of the enable. -/
theorem invalidPositionsAreRejectedFirst : Obligations.InvalidPositionsAreRejectedFirst :=
  fun _ _ _ _ _ _ h ha hp hi hn => exec_of_answer h (start_of_invalid hi ha hp (resolve_of_invalid hn))

/-! ### Check 5: the enable -/

/-- R307, for the commands that send a byte with no check of a position. -/
theorem SendsByte.exec_of_not_initialized (hi : SendsByte i v rs) (h : s.Executing k last) (ha : s.abort = false)
    (hp : s.power = true) (hn : s.initialized = false) : exec i s = .next (s.concluded k last .errNotInit 0#7 []) := by
  obtain ⟨-, -, hnotInit, -⟩ := hi s k last h
  exact hnotInit ha hp hn

/-- R307, for the backlight commands. -/
theorem SwitchesBacklight.exec_of_not_initialized {bl : Bool} (hi : SwitchesBacklight i bl) (h : s.Executing k last)
    (ha : s.abort = false) (hp : s.power = true) (hw : s.params.blImmediateWrite = true) (hn : s.initialized = false) :
    exec i s = .next (s.concluded k last .errNotInit 0#7 []) := by
  obtain ⟨-, -, hnotInit, -⟩ := hi s k last h
  exact hnotInit ha hp hw hn

/-- Settles O23: each command that needs the bus has the enable as its last check. -/
theorem busCommandsNeedEnable : Obligations.BusCommandsNeedEnable := by
  intro i s k last h ha hp hn hneeds hpos
  cases i with
  | clear => exact clearSendsTheClearCommand.2.exec_of_not_initialized h ha hp hn
  | home => exact homeSendsTheHomeCommand.2.exec_of_not_initialized h ha hp hn
  | send d v => exact (sendSendsItsValue d v).2.exec_of_not_initialized h ha hp hn
  | blOn => exact blOnTurnsTheBacklightOn.2.exec_of_not_initialized h ha hp hneeds hn
  | blOff => exact blOffTurnsTheBacklightOff.2.exec_of_not_initialized h ha hp hneeds hn
  | setpos line col =>
    obtain ⟨a, hv⟩ := resolve_of_valid (legalParams_of_legal h.legal) (hpos line col rfl)
    exact exec_of_answer h (by rw [start_setpos_of_valid ha hp hv, ifInitialized_of_not _ hn])
  | enable | powerOn | powerOff | resolve => cases hneeds

end Sys2Proof.Machine
end

section
/-! PROOFS, family 60_exceptions.md: every word gets one response (R302, R308, R310, R311, R315, R320), and the arbiter (R321). -/

namespace Sys2Proof.Machine

variable {s t u : State} {i : Instr} {k j : Nat} {w : CommandWord} {last : Bool} {st : Status} {a : DdramAddr}
  {r : Request} {l : List MicroStep}

/-! ### From the start of a command up to its response -/

/-- From `s` to `u` no response is given, and the transaction and the ports stay as they are. -/
structure State.Unanswered (s u : State) : Prop where
  owner : u.owner = s.owner
  abort : u.abort = s.abort
  ports : u.ports = s.ports
  trace : ∃ es, u.trace = s.trace ++ es ∧ statuses es = []

theorem State.Unanswered.trans (h : s.Unanswered u) (h' : u.Unanswered t) : s.Unanswered t := by
  obtain ⟨es, htrace, hes⟩ := h.trace
  obtain ⟨fs, htrace', hfs⟩ := h'.trace
  exact ⟨h'.owner.trans h.owner, h'.abort.trans h.abort, h'.ports.trans h.ports, es ++ fs,
    by rw [htrace', htrace, List.append_assoc], by rw [statuses_append, hes, hfs]; rfl⟩

theorem unanswered_refl (s : State) : s.Unanswered s := ⟨rfl, rfl, rfl, [], by simp, rfl⟩

/-- What else an operation writes does not matter. -/
theorem State.Unanswered.congr (h : s.Unanswered u) (ho : t.owner = u.owner) (ha : t.abort = u.abort)
    (hp : t.ports = u.ports) (ht : t.trace = u.trace) : s.Unanswered t :=
  ⟨ho.trans h.owner, ha.trans h.abort, hp.trans h.ports, by rw [ht]; exact h.trace⟩

theorem unanswered_goTo (l : List MicroStep) (s : State) : s.Unanswered (s.goTo l) :=
  ⟨rfl, rfl, rfl, eventOnArrival l, rfl, statuses_arrival l⟩

theorem unanswered_presentWrite (b : Byte) (s : State) : s.Unanswered (s.presentWrite b) := by
  refine ⟨rfl, rfl, rfl, ?_⟩
  rw [presentWrite_trace]
  split
  · exact ⟨[], by simp, rfl⟩
  · exact ⟨[.write b], rfl, rfl⟩

theorem unanswered_presentBind (s : State) : s.Unanswered s.presentBind := by
  refine ⟨rfl, rfl, rfl, ?_⟩
  rw [presentBind_trace]
  split
  · exact ⟨[], by simp, rfl⟩
  · exact ⟨[.bind], rfl, rfl⟩

theorem unanswered_loads (i : Instr) (s : State) : s.Unanswered (loads i s).1 :=
  ⟨loads_owner i s, loads_abort i s, loads_ports i s, [], by simp, rfl⟩

/-- `t` is `s` after the command of requester `k` has answered `st` with `a`, and has given no response before. -/
def State.Answered (k : Nat) (last : Bool) (st : Status) (a : DdramAddr) (s t : State) : Prop :=
  ∃ u, s.Unanswered u ∧ t = u.respond k last st a

/-- `t` is what the command of requester `k` makes of `s` when its own response is `own`: it has given that response, or
`ERR_TRANSPORT`; or it has given none and is not over. -/
def State.Outcome (k : Nat) (last : Bool) (own : Option (Status × DdramAddr)) (s t : State) : Prop :=
  (∃ st a, s.Answered k last st a t ∧ (own = some (st, a) ∨ (st = .errTransport ∧ a = 0#7))) ∨
  (s.Unanswered t ∧ t.seq ≠ .idle)

theorem State.Unanswered.outcome {own : Option (Status × DdramAddr)} (h : s.Unanswered u) (h' : u.Outcome k last own t) :
    s.Outcome k last own t := by
  rcases h' with ⟨st, a, ⟨v, hv, ht⟩, hst⟩ | ⟨hu, hne⟩
  · exact .inl ⟨st, a, ⟨v, h.trans hv, ht⟩, hst⟩
  · exact .inr ⟨h.trans hu, hne⟩

/-- A run of micro-steps: induction over them, each giving no response or the last one. -/
theorem runSteps_outcome (hs : s.seq = .busy k w last l) : s.Outcome k last (answerOf l) (runSteps k last l s) := by
  induction l generalizing s with
  | nil => exact .inr ⟨unanswered_refl s, by simp [runSteps, hs]⟩
  | cons m rest ih =>
    have goOn : ∀ {u : State}, s.Unanswered u → u.seq = s.seq →
        s.Outcome k last (answerOf rest) (runSteps k last rest (u.goTo rest)) := fun hu hseq =>
      (hu.trans (unanswered_goTo rest _)).outcome (ih (by simp [hseq, hs]))
    have fail : ∀ {u : State}, s.Unanswered u → s.Outcome k last (answerOf rest) (u.respond k last .errTransport 0#7) :=
      fun hu => .inl ⟨_, _, ⟨_, hu, rfl⟩, .inr ⟨rfl, rfl⟩⟩
    cases m with
    | respond st a => exact .inl ⟨st, a, ⟨s, unanswered_refl s, rfl⟩, .inl rfl⟩
    | gap n => exact goOn (unanswered_refl s) rfl
    | wait ms => exact goOn ((unanswered_refl s).congr rfl rfl rfl rfl) rfl
    | write b =>
      have hb := unanswered_presentWrite b s
      rw [runSteps]
      split
      · exact .inr ⟨hb, by simp [hs]⟩
      · exact goOn (hb.congr rfl rfl rfl rfl) rfl
      · exact fail (hb.congr rfl rfl rfl rfl)
    | bind =>
      have hb := unanswered_presentBind s
      rw [runSteps]
      split
      · exact .inr ⟨hb, by simp [hs]⟩
      · exact goOn (hb.congr rfl rfl rfl rfl) rfl
      · exact fail (hb.congr rfl rfl rfl rfl)

/-- A meaning whose start loads `l`. -/
theorem runCommand_outcome {f : State → State} {l' : List MicroStep} (hb : s.seq = .busy k w last l') (hf : f s = u.goTo l)
    (hu : s.Unanswered u) (hseq : u.seq = s.seq) (hex : runCommand f s = .next t) : s.Outcome k last (answerOf l) t := by
  obtain ⟨-, -, rfl⟩ := runCommand_next hex
  have hub : u.seq = .busy k w last l' := hseq.trans hb
  rw [hf, finish_goTo hub]
  exact (hu.trans (unanswered_goTo l u)).outcome (runSteps_outcome (w := w) (by simp [hub]))

/-- A command that passes its checks. -/
theorem exec_outcome_of_passes (h : s.Executing k last) (hp : passes i s) (hex : exec i s = .next t) :
    s.Outcome k last (answerOf (loads i s).2) t := by
  obtain ⟨w, l, hb⟩ := h.busy
  rw [exec_eq] at hex
  exact runCommand_outcome hb (start_of_passes hp) (unanswered_loads i s) (loads_seq i s) hex

/-- The status of a response with which the trace ends. -/
theorem State.Outcome.last_status {es : List Event} {st' : Status} {b : DdramAddr} (h : s.Outcome k last (some (st, a)) t)
    (ht : t.trace = s.trace ++ es ++ [.response j st' b]) : st' = st ∨ st' = .errTransport := by
  rcases h with ⟨st₁, a₁, ⟨u, -, rfl⟩, hst⟩ | ⟨hu, -⟩
  · obtain ⟨-, rfl, -⟩ : k = j ∧ st₁ = st' ∧ a₁ = b := by simpa using congrArg List.getLast? ht
    rcases hst with hst | ⟨rfl, -⟩
    · cases hst
      exact .inl rfl
    · exact .inr rfl
  · obtain ⟨fs, htrace, hfs⟩ := hu.trace
    rw [htrace, List.append_assoc, List.append_cancel_left_eq] at ht
    simp [ht, statuses] at hfs

/-! ### Which statuses a command answers -/

/-- A command that is not gated answers one of four statuses, if any. -/
theorem exec_outcome_of_not_gated (h : s.Executing k last) (hg : gated i = false) (hex : exec i s = .next t) :
    ∃ st a, s.Outcome k last (some (st, a)) t ∧ (st = .ok ∨ st = .errValidation ∨ st = .skipped) := by
  cases ha : s.abort with
  | true =>
    obtain ⟨w, l, hb⟩ := h.busy
    rw [exec_eq] at hex
    exact ⟨_, _, runCommand_outcome hb (start_of_abort i ha) (unanswered_refl s) rfl hex, .inr (.inr rfl)⟩
  | false =>
    obtain ⟨st, a, hans, -, hst⟩ := loads_answer i s
    have hout := exec_outcome_of_passes h (passes_of_not_gated ha hg) hex
    rw [hans] at hout
    exact ⟨st, a, hout, hst.imp_right fun ⟨hval, _⟩ => .inl hval⟩

/-- Settles O21: the power gate answers `OK_OFF`, and a command without it has no way to. -/
theorem poweredOffCommandsDoNothing : Obligations.PoweredOffCommandsDoNothing := by
  refine ⟨fun i s k last h ha hp hg => exec_of_answer h (start_of_gated_off hg ha hp),
    fun i s t k last es a h hg hex htrace => ?_⟩
  obtain ⟨st, a', hout, hst⟩ := exec_outcome_of_not_gated h hg hex
  rcases hout.last_status htrace with rfl | herr
  · simp at hst
  · cases herr

/-- Settles O24: a valid position leaves a command that passes its checks no response of its own but `OK`. -/
theorem checkedCommandsSucceedOrFailOnTheBus : Obligations.CheckedCommandsSucceedOrFailOnTheBus := by
  intro i s t k last h ha hp hn hpos hex hidle
  obtain ⟨st, a, hans, -, hst⟩ := loads_answer i s
  have hok : st = .ok := hst.resolve_right fun ⟨_, line, col, hline, hnone⟩ => by
    obtain ⟨addr, hsome⟩ := resolve_of_valid (legalParams_of_legal h.legal) (hpos line col hline)
    simp [hnone] at hsome
  subst hok
  rcases exec_outcome_of_passes h ⟨ha, hp, hn⟩ hex with ⟨st', a', ⟨u, hu, rfl⟩, hown⟩ | ⟨-, hbusy⟩
  · obtain ⟨es, htrace, hes⟩ := hu.trace
    refine ⟨es, st', a', by rw [respond_trace, htrace], hes, hown.imp_left fun hown => ?_⟩
    rw [hans] at hown
    cases hown
    rfl
  · exact absurd hidle hbusy

/-! ### A word, from its acceptance to its response -/

/-- A step that accepts a word runs it. -/
theorem step_of_accept (hl : s.legal = true) (hi : s.seq = .idle) (ha : s.arbitrate = some k) (hp : s.presented k = some r) :
    step s = execWord r.word (s.dropResponses.accept k r) := by
  rw [step_of_legal hl, acceptIfIdle_of_arbitrate (s := s.dropResponses) hi (by simpa using ha) (by simpa using hp),
    completeCommand_accepted rfl]

/-- If the word's own start is a response, that is all it does. -/
theorem step_of_answer (hl : s.legal = true) (hi : s.seq = .idle) (ha : s.arbitrate = some k) (hp : s.presented k = some r)
    (hs : startWord r.word (s.dropResponses.accept k r) = (s.dropResponses.accept k r).goTo [.respond st a]) :
    step s = .next ((s.dropResponses.accept k r).concluded k r.last st a []) := by
  have hb := accept_seq s.dropResponses k r
  rw [step_of_accept hl hi ha hp, execWord_eq, runCommand_busy _ (by simpa using hl) hb, hs, finish_goTo_respond hb]

/-- Check 1: R311. -/
theorem startWord_of_abort (ha : s.abort = true) (w : CommandWord) : startWord w s = s.goTo [.respond .skipped 0#7] := by
  rw [startWord, if_pos ha, answerWith_eq]

/-- Check 2: R308. -/
theorem startWord_of_illegal {e : DecodeError} (ha : s.abort = false) (hd : decode w = .error e) :
    startWord w s = s.goTo [.respond .errIllegal 0#7] := by
  rw [startWord, ha, if_neg Bool.false_ne_true, hd, raise_eq]

/-- Settles O31: the accepted word fails check 2. -/
theorem illegalWordAnswersErrIllegal : Obligations.IllegalWordAnswersErrIllegal :=
  fun _ _ _ _ hl hi hab ha hp hd => step_of_answer hl hi ha hp (startWord_of_illegal hab hd)

/-- Settles O32: the accepted word fails check 1, before its decoding. -/
theorem abortedTransactionSkipsEveryWord : Obligations.AbortedTransactionSkipsEveryWord :=
  fun s k r hl hi hab ha hp =>
    step_of_answer hl hi ha hp (startWord_of_abort (s := s.dropResponses.accept k r) hab r.word)

/-- A word only answers, or it is a command that passes its checks. -/
theorem startWord_cases (w : CommandWord) (s : State) :
    (∃ st, startWord w s = s.goTo [.respond st 0#7]) ∨
    ∃ i, passes i s ∧ startWord w s = (loads i s).1.goTo (loads i s).2 := by
  cases ha : s.abort with
  | true => exact .inl ⟨_, startWord_of_abort ha w⟩
  | false =>
    cases hd : decode w with
    | error e => exact .inl ⟨_, startWord_of_illegal ha hd⟩
    | ok i =>
      rw [startWord_of_decode hd]
      by_cases hp : passes i s
      · exact .inr ⟨i, hp, start_of_passes hp⟩
      · obtain ⟨st, -, hst⟩ := start_of_not_passes hp
        exact .inl ⟨st, hst⟩

/-- Either way it loads micro-steps that end in a response, with an address only when `OK`. -/
theorem startWord_loads (w : CommandWord) (s : State) :
    ∃ u l st a, startWord w s = u.goTo l ∧ s.Unanswered u ∧ u.seq = s.seq ∧ answerOf l = some (st, a) ∧
      (st ≠ .ok → a = 0#7) := by
  rcases startWord_cases w s with ⟨st, hst⟩ | ⟨i, -, hi⟩
  · exact ⟨s, _, st, 0#7, hst, unanswered_refl s, rfl, rfl, fun _ => rfl⟩
  · obtain ⟨st, a, hans, haddr, -⟩ := loads_answer i s
    exact ⟨_, _, st, a, hi, unanswered_loads i s, loads_seq i s, hans, haddr⟩

/-- A word that is answered has one response, with an address only when `OK`. -/
theorem execWord_answered {l' : List MicroStep} (hb : s.seq = .busy k w last l') (hex : execWord w s = .next t)
    (hidle : t.seq = .idle) : ∃ st a, s.Answered k last st a t ∧ (st ≠ .ok → a = 0#7) := by
  obtain ⟨u, l, st, a, hstart, hu, hseq, hans, haddr⟩ := startWord_loads w s
  rw [execWord_eq] at hex
  have hout := runCommand_outcome hb hstart hu hseq hex
  rw [hans] at hout
  rcases hout with ⟨st', a', h, hown | ⟨-, rfl⟩⟩ | ⟨-, hbusy⟩
  · cases hown
    exact ⟨_, _, h, haddr⟩
  · exact ⟨_, _, h, fun _ => rfl⟩
  · exact absurd hidle hbusy

/-- The ports after the word of requester `k` has been accepted and answered: the response stands on port `k` only, whose word is
consumed. -/
theorem ports_of_answered (hp : s.presented k = some r) (h : (s.dropResponses.accept k r).Answered k last st a t) :
    (t.ports[k]?).bind Port.rsp = some { status := st, addr := a } ∧
    (∀ j, j ≠ k → (t.ports[j]?).bind Port.rsp = none) ∧
    (t.ports[k]?).map Port.pending = (s.ports[k]?).map (fun p => p.pending.tail) ∧
    (∀ j, j ≠ k → (t.ports[j]?).map Port.pending = (s.ports[j]?).map Port.pending) := by
  obtain ⟨u, hu, rfl⟩ := h
  obtain ⟨p, hk⟩ : ∃ p, s.ports[k]? = some p := ⟨_, List.getElem?_eq_getElem (presented_lt hp)⟩
  have hports : u.ports = (s.ports.map (fun p => { p with rsp := none })).modify k
      (fun p => { p with pending := p.pending.tail }) := hu.ports
  rw [respond_ports, hports, postResponse]
  refine ⟨by simp [hk], fun j hj => ?_, by simp [hk], fun j hj => ?_⟩
  · cases hsj : s.ports[j]? <;> simp [Ne.symm hj, hsj]
  · cases hsj : s.ports[j]? <;> simp [Ne.symm hj, hsj]

/-- R36, R320: accepted from the arbiter's choice, a word that is not the last has its requester own the transaction. -/
theorem ownerAfterResponse_ownerAfterAccept {o : Option Nat} (h : o = none ∨ o = some k) (last : Bool) :
    ownerAfterResponse (ownerAfterAccept o k last) last = if last then none else some k := by
  rcases h with rfl | rfl <;> cases last <;> rfl

/-- Settles O33: the word is accepted, and answered once. -/
theorem everyWordGetsOneResponse : Obligations.EveryWordGetsOneResponse := by
  intro s t k r hl hi ha hp hstep hidle
  rw [step_of_accept hl hi ha hp] at hstep
  obtain ⟨st, a, hans, haddr⟩ := execWord_answered (accept_seq s.dropResponses k r) hstep hidle
  obtain ⟨hrsp, hrsp', hpend, hpend'⟩ := ports_of_answered hp hans
  obtain ⟨u, hu, rfl⟩ := hans
  obtain ⟨es, htrace, hes⟩ := hu.trace
  refine ⟨⟨es, st, a, by rw [respond_trace, htrace]; rfl, hes, haddr, hrsp, ?_⟩, hrsp', ?_, hpend, hpend'⟩
  · rw [respond_abort, hu.abort, accept_abort, dropResponses_abort, abortAfterResponse]
    cases r.last <;> rfl
  · rw [respond_owner, hu.owner, accept_owner, dropResponses_owner]
    exact ownerAfterResponse_ownerAfterAccept (arbitrate_owner ha) r.last

/-! ### The arbiter -/

/-- R321: with no transaction open and a requester waiting, the arbiter takes one. -/
theorem arbitrate_of_waiting (ho : s.owner = none) (hw : s.waiting ≠ []) : s.arbitrate.isSome = true := by
  unfold State.arbitrate
  rw [ho]
  simp only []
  split
  · contradiction
  · rfl
  · rw [List.getElem?_eq_getElem (Nat.mod_lt _ (List.length_pos_of_ne_nil hw))]
    rfl

/-- Settles O34: the choice presents a word, and is the owner's where there is one. -/
theorem arbiterTakesAWaitingRequester : Obligations.ArbiterTakesAWaitingRequester := by
  refine fun s => ⟨fun k h => ⟨Option.isSome_iff_exists.mpr (arbitrate_presented h), arbitrate_owner h⟩, ?_, ?_⟩
  · rintro ho ⟨k, hk⟩
    exact arbitrate_of_waiting ho (List.ne_nil_of_mem (mem_waiting.mpr hk))
  · intro k ho hk
    obtain ⟨r, hr⟩ := Option.isSome_iff_exists.mp hk
    exact arbitrate_of_owner ho hr

end Sys2Proof.Machine
end

section
/-! PROOFS, family 60_exceptions.md: the handshakes of a bus write and of a bind (R330, R331), the transport that never answers
(R332), and the end of a command whose transport answers (R332, R362). -/

namespace Sys2Proof.Machine

variable {s : State} {p : Pins} {k n ms : Nat} {w : CommandWord} {last : Bool} {b : Byte}
  {m : MicroStep} {l rest : List MicroStep}

/-! ### A bus write at the clock edge -/

/-- R330: not yet presented, the write is presented. -/
theorem edge_write_present (hr : p.rst = false) (hs : s.seq = .busy k w last (.write b :: rest)) (hv : s.bwValid = false) :
    edge p s = s.dropResponses.presentWrite b := by
  simp [edge_busy hr hs, edgeBusy, hv]

/-- R330: presented, it is held while `bw_done` = 0. -/
theorem edge_write_held (hr : p.rst = false) (hs : s.seq = .busy k w last (.write b :: rest)) (hv : s.bwValid = true)
    (hd : p.bwDone = false) : edge p s = s.dropResponses := by
  simp [edge_busy hr hs, edgeBusy, hv, hd]

/-- R325, R330: the edge that samples `err` drops the write and ends the command. -/
theorem edge_write_err (hr : p.rst = false) (hs : s.seq = .busy k w last (.write b :: rest)) (hv : s.bwValid = true)
    (hd : p.bwDone = true) (he : p.bwErr = true) :
    edge p s = s.dropResponses.dropWrite.respond k last .errTransport 0#7 := by
  simp [edge_busy hr hs, edgeBusy, hv, hd, he]

/-- A first presentation, as the statements write it. -/
theorem presentWrite_of_not_valid (hv : s.bwValid = false) (b : Byte) :
    s.presentWrite b = { s with bwData := b, bwValid := true, trace := s.trace ++ [.write b] } := by
  simp [State.presentWrite, hv]

/-- Settles O47: the write is presented, held, or done; done, it goes on or fails, and neither makes a write. -/
theorem outstandingWriteIsHeld : Obligations.OutstandingWriteIsHeld := by
  intro p s k w last b rest hr hs
  refine ⟨fun hv => ?_, fun hv hd => edge_write_held hr hs hv hd, fun hv hd => ?_, fun hv hd he => ?_⟩
  · rw [edge_write_present hr hs hv]
    exact presentWrite_of_not_valid (s := s.dropResponses) hv b
  · cases he : p.bwErr with
    | false =>
      rw [edge_write_ok hr hs hv hd he]
      simp
    | true =>
      rw [edge_write_err hr hs hv hd he]
      simp [busWrites]
  · rw [edge_write_err hr hs hv hd he, respond_eq_concluded]
    rfl

/-! ### A bind at the clock edge -/

/-- R331: not yet presented, the bind is presented. -/
theorem edge_bind_present (hr : p.rst = false) (hs : s.seq = .busy k w last (.bind :: rest)) (hv : s.bindReq = false) :
    edge p s = s.dropResponses.presentBind := by
  simp [edge_busy hr hs, edgeBusy, hv]

/-- R331: presented, it is held while `bind_done` = 0. -/
theorem edge_bind_held (hr : p.rst = false) (hs : s.seq = .busy k w last (.bind :: rest)) (hv : s.bindReq = true)
    (hd : p.bindDone = false) : edge p s = s.dropResponses := by
  simp [edge_busy hr hs, edgeBusy, hv, hd]

/-- R34, R331: the edge that samples `ok` drops the bind, enables the hardware and goes on. -/
theorem edge_bind_ok (hr : p.rst = false) (hs : s.seq = .busy k w last (.bind :: rest)) (hv : s.bindReq = true)
    (hd : p.bindDone = true) (he : p.bindErr = false) :
    edge p s = (s.dropResponses.dropBind.setInitialized.goTo rest).respondIfDue := by
  simp [edge_busy hr hs, edgeBusy, hv, hd, he]

/-- R304, R331: the edge that samples `err` drops the bind and ends the command. -/
theorem edge_bind_err (hr : p.rst = false) (hs : s.seq = .busy k w last (.bind :: rest)) (hv : s.bindReq = true)
    (hd : p.bindDone = true) (he : p.bindErr = true) :
    edge p s = s.dropResponses.dropBind.respond k last .errTransport 0#7 := by
  simp [edge_busy hr hs, edgeBusy, hv, hd, he]

/-- A first presentation, as the statements write it. -/
theorem presentBind_of_not_req (hv : s.bindReq = false) :
    s.presentBind = { s with bindReq := true, trace := s.trace ++ [.bind] } := by
  simp [State.presentBind, hv]

/-- A due response changes no bind signal and no flag of the hardware. -/
@[simp] theorem respondIfDue_bindReq (s : State) : s.respondIfDue.bindReq = s.bindReq := by
  rcases respondIfDue_cases s with e | ⟨_, _, _, _, _, _, _, e⟩ <;> rw [e]
  rfl

@[simp] theorem respondIfDue_initialized (s : State) : s.respondIfDue.initialized = s.initialized := by
  rcases respondIfDue_cases s with e | ⟨_, _, _, _, _, _, _, e⟩ <;> rw [e]
  rfl

/-- A sequencer that has gone on to a bus write has no response due. -/
theorem respondIfDue_goTo_write (s : State) (b : Byte) (l : List MicroStep) :
    (s.goTo (.write b :: l)).respondIfDue = s.goTo (.write b :: l) := by
  cases hs : s.seq <;> simp [State.respondIfDue, hs]

/-- Settles O56: the bind is presented, held, or done; done, it enables the hardware and goes on, or fails. -/
theorem outstandingBindIsHeld : Obligations.OutstandingBindIsHeld := by
  intro p s k w last rest hr hs
  refine ⟨fun hv => ?_, fun hv hd => edge_bind_held hr hs hv hd, fun hv hd he => ?_, fun hv hd he => ?_⟩
  · rw [edge_bind_present hr hs hv]
    exact presentBind_of_not_req (s := s.dropResponses) hv
  · rw [edge_bind_ok hr hs hv hd he]
    refine ⟨by simp, by simp, by simp, ?_⟩
    rintro b steps rfl
    rw [respondIfDue_goTo_write]
    simp [State.goTo, delayOnArrival, eventOnArrival, hs, State.dropBind, State.setInitialized]
  · rw [edge_bind_err hr hs hv hd he, respond_eq_concluded]
    rfl

/-! ### A transport that never answers -/

/-- A step of a command that is under way runs its micro-steps. -/
theorem step_of_steps (hl : s.legal = true) (hs : s.seq = .busy k w last (m :: rest)) :
    step s = .next (runSteps k last (m :: rest) s.dropResponses) := by
  obtain ⟨-, -, -, hsteps⟩ := stepRunsTheDecodedInstruction s hl
  exact hsteps k w last m rest hs

/-- R332: a run stops at a bus write that is not answered, which stands on the port. -/
theorem runSteps_write_unanswered (ht : s.transport.answer = none) :
    runSteps k last (.write b :: rest) s = s.presentWrite b := by
  rw [runSteps, ht]

/-- R332: and so at a bind. -/
theorem runSteps_bind_unanswered (ht : s.transport.answer = none) : runSteps k last (.bind :: rest) s = s.presentBind := by
  rw [runSteps, ht]

/-- Settles O36: the request is presented once, and the command stands where it is; ENABLE stands at its bind. -/
theorem silentTransportHoldsTheCommand : Obligations.SilentTransportHoldsTheCommand := by
  refine ⟨fun s k w last b rest hl hs ht => ?_, fun s k w last rest hl hs ht => ?_, fun s k w last rest h ha hs ht => ?_⟩
  · rw [step_of_steps hl hs, runSteps_write_unanswered (s := s.dropResponses) ht]
    exact ⟨fun hv => congrArg _ (presentWrite_of_valid (s := s.dropResponses) hv b),
      fun hv => congrArg _ (presentWrite_of_not_valid (s := s.dropResponses) hv b)⟩
  · rw [step_of_steps hl hs, runSteps_bind_unanswered (s := s.dropResponses) ht]
    exact ⟨fun hv => congrArg _ (presentBind_of_req (s := s.dropResponses) hv),
      fun hv => congrArg _ (presentBind_of_not_req (s := s.dropResponses) hv)⟩
  · refine ⟨initSteps s ++ [.respond .ok 0#7], ?_⟩
    rw [exec_of_passes h (passes_enable ha), loads, List.append_assoc, List.singleton_append,
      runSteps_bind_unanswered (s := s.goTo _) ht, presentBind_of_not_req (s := s.goTo _) h.noBind]
    simp [State.goTo, delayOnArrival, eventOnArrival, hs]

/-! ### A transport that answers -/

/-- Cycles with the same pins lead to IDLE. -/
def Ends (p : Pins) (s : State) : Prop := ∃ n, (runEdges (List.replicate n p) s).seq = .idle

theorem ends_of_idle (hi : s.seq = .idle) : Ends p s := ⟨0, hi⟩

theorem ends_of_edge (h : Ends p (edge p s)) : Ends p s := by
  obtain ⟨n, hn⟩ := h
  exact ⟨n + 1, hn⟩

/-- A due response is the end. -/
theorem ends_respondIfDue (h : Ends p s) : Ends p s.respondIfDue := by
  by_cases hi : s.respondIfDue.seq = .idle
  · exact ends_of_idle hi
  · rwa [respondIfDue_of_busy hi]

/-- R330: a bus write is presented in one cycle and done in the next. -/
theorem ends_write (hr : p.rst = false) (hd : p.bwDone = true) (hs : s.seq = .busy k w last (.write b :: rest))
    (hgo : ∀ u : State, u.seq = .busy k w last rest → Ends p u) : Ends p s := by
  have done : ∀ u : State, u.seq = .busy k w last (.write b :: rest) → u.bwValid = true → Ends p u := by
    intro u hu hv
    apply ends_of_edge
    cases he : p.bwErr with
    | false =>
      rw [edge_write_ok hr hu hv hd he]
      exact ends_respondIfDue (hgo _ (by simp [hu]))
    | true =>
      rw [edge_write_err hr hu hv hd he]
      exact ends_of_idle rfl
  cases hv : s.bwValid with
  | true => exact done s hs hv
  | false =>
    apply ends_of_edge
    rw [edge_write_present hr hs hv]
    exact done _ hs rfl

/-- R331: a bind is presented in one cycle and done in the next. -/
theorem ends_bind (hr : p.rst = false) (hd : p.bindDone = true) (hs : s.seq = .busy k w last (.bind :: rest))
    (hgo : ∀ u : State, u.seq = .busy k w last rest → Ends p u) : Ends p s := by
  have done : ∀ u : State, u.seq = .busy k w last (.bind :: rest) → u.bindReq = true → Ends p u := by
    intro u hu hv
    apply ends_of_edge
    cases he : p.bindErr with
    | false =>
      rw [edge_bind_ok hr hu hv hd he]
      exact ends_respondIfDue (hgo _ (by simp [hu]))
    | true =>
      rw [edge_bind_err hr hu hv hd he]
      exact ends_of_idle rfl
  cases hv : s.bindReq with
  | true => exact done s hs hv
  | false =>
    apply ends_of_edge
    rw [edge_bind_present hr hs hv]
    exact done _ hs rfl

/-- R38: the cycles of a gap become fewer. -/
theorem ends_gap (hr : p.rst = false) (hs : s.seq = .busy k w last (.gap n :: rest))
    (hgo : ∀ u : State, u.seq = .busy k w last rest → Ends p u) : Ends p s := by
  induction n using Nat.strong_induction_on generalizing s with
  | _ n ih =>
    apply ends_of_edge
    by_cases h1 : n ≤ 1
    · rw [edge_gap_last hr hs h1]
      exact ends_respondIfDue (hgo _ (by simp [hs]))
    · rw [edge_gap_more hr hs (by omega)]
      exact ih (n - 1) (by omega) (by simp [hs])

/-- The last cycle of a wait: the sequencer goes on. -/
theorem edge_wait_last (hr : p.rst = false) (hs : s.seq = .busy k w last (.wait ms :: rest)) (hd : s.delay = 0) :
    edge p s = (s.dropResponses.goTo rest).respondIfDue := by
  simp [edge_busy hr hs, edgeBusy, hd]

/-- R236: the counter of a wait runs out. -/
theorem ends_wait (hr : p.rst = false) (hs : s.seq = .busy k w last (.wait ms :: rest))
    (hgo : ∀ u : State, u.seq = .busy k w last rest → Ends p u) : Ends p s := by
  induction hn : s.delay generalizing s with
  | zero =>
    apply ends_of_edge
    rw [edge_wait_last hr hs hn]
    exact ends_respondIfDue (hgo _ (by simp [hs]))
  | succ n ih =>
    apply ends_of_edge
    rw [edge_wait_more hr hs (by omega), hn]
    exact ih hs rfl

/-- What follows a micro-step of a command still ends in the one response. -/
theorem oneResponse_tail (h : oneResponse (m :: rest) = true) (hne : rest ≠ []) : oneResponse rest = true := by
  obtain ⟨m', rest, rfl⟩ := List.exists_cons_of_ne_nil hne
  cases m with
  | respond st a => cases h
  | write | bind | wait | gap => exact h

/-- Micro-steps that end in a response: induction over them, each taking finitely many cycles. -/
theorem ends_steps (hr : p.rst = false) (hw : p.bwDone = true) (hb : p.bindDone = true) (hl : l ≠ [])
    (h1 : oneResponse l = true) (hs : s.seq = .busy k w last l) : Ends p s := by
  induction l generalizing s with
  | nil => exact absurd rfl hl
  | cons m rest ih =>
    have goOn : (∀ st a, m ≠ .respond st a) → ∀ u : State, u.seq = .busy k w last rest → Ends p u := fun hm u hu =>
      have hne := oneResponse_tail_ne_nil h1 hm
      ih hne (oneResponse_tail h1 hne) hu
    cases m with
    | respond st a =>
      apply ends_of_edge
      rw [edge_busy hr hs]
      exact ends_of_idle rfl
    | write b => exact ends_write hr hw hs (goOn (by simp))
    | bind => exact ends_bind hr hb hs (goOn (by simp))
    | gap n => exact ends_gap hr hs (goOn (by simp))
    | wait ms => exact ends_wait hr hs (goOn (by simp))

/-- Settles O45: a word just accepted loads such micro-steps, and a consistent command under way has such micro-steps left. -/
theorem commandEndsIfTheTransportAnswers : Obligations.CommandEndsIfTheTransportAnswers := by
  intro s p hc hr hw hb
  cases hs : s.seq with
  | idle => exact ends_of_idle hs
  | busy k w last l =>
    cases l with
    | nil =>
      obtain ⟨hc', l, hl, hs'⟩ := consistent_startWord (consistent_dropResponses hc) hs w
      obtain ⟨-, hm⟩ := hc'.busy _ _ _ _ hs'
      apply ends_of_edge
      rw [edge_busy hr hs]
      exact ends_respondIfDue (ends_steps hr hw hb hl hm.response hs')
    | cons m rest =>
      obtain ⟨-, hm⟩ := hc.busy _ _ _ _ hs
      exact ends_steps hr hw hb (List.cons_ne_nil m rest) hm.response hs

end Sys2Proof.Machine
end

section
/-! PROOFS, family 70_reset_and_hazards.md: the bus writes of a command that succeeds (R370), and reset (R350 to R352). -/

namespace Sys2Proof.Machine

variable {s t : State} {p : Pins} {i : Instr} {k : Nat} {last : Bool} {a : DdramAddr} {es : List Event}

/-! ### The bus writes of a command that answers `OK` -/

/-- ENABLE: four nibbles and four bytes. -/
theorem length_busWrites_initEvents (p : PinMap) (bl : Bool) : (busWrites (initEvents p bl)).length = 36 := rfl

/-- SETPOS, CLEAR, HOME and SEND: the micro-steps of one byte write it in six. -/
theorem length_busWrites_byte (v : Byte) (rs : Bool) (st : Status) (a : DdramAddr) (s : State) :
    (busWrites (emitted (sendByte v rs s ++ [.respond st a]))).length = 6 := by
  rw [emitted_byte, busWrites_writes, length_byteWrites]

/-- BL_ON and BL_OFF: one write, if `BL_IMMEDIATE_WRITE` asks for it. -/
theorem length_busWrites_backlight (p : Params) (b : Byte) :
    (busWrites (emitted (if p.blImmediateWrite then [.write b, .respond .ok 0#7] else [.respond .ok 0#7]))).length =
      if p.blImmediateWrite then 1 else 0 := by
  split <;> rfl

/-- The micro-steps a command loads, if they end in `OK`, make the writes of R370. SETPOS with an invalid position makes none, but
ends in `ERR_VALIDATION`. -/
theorem length_busWrites_loads (h : answerOf (loads i s).2 = some (.ok, a)) :
    (busWrites (emitted (loads i s).2)).length = okWriteCount s.params i := by
  cases i with
  | enable =>
    rw [loads, emitted_enable]
    exact length_busWrites_initEvents s.params.pinMap s.backlight
  | powerOn => rfl
  | powerOff => rfl
  | blOn => exact length_busWrites_backlight ..
  | blOff => exact length_busWrites_backlight ..
  | clear => exact length_busWrites_byte ..
  | home => exact length_busWrites_byte ..
  | send d v => exact length_busWrites_byte ..
  | setpos line col =>
    cases hr : resolve s.params line col with
    | none => simp [loads, hr, answerOf] at h
    | some addr =>
      simp only [loads, hr]
      exact length_busWrites_byte ..
  | resolve line col =>
    simp only [loads]
    split <;> rfl

/-- A command that answers `OK` has passed its checks and run all its micro-steps, the last of which is that response. -/
theorem emitted_of_exec_ok (h : s.Executing k last) (hex : exec i s = .next t)
    (ht : t.trace = s.trace ++ es ++ [.response k .ok a]) :
    answerOf (loads i s).2 = some (.ok, a) ∧ es = emitted (loads i s).2 := by
  by_cases hp : passes i s
  · rcases exec_cases h hp hex with ⟨t', st, a', hans, rfl⟩ | ⟨pre, e, post, t', -, -, rfl⟩ |
      ⟨pre, e, post, t', _, _, he, -, -, rfl⟩
    · obtain ⟨rfl, rfl, rfl⟩ : emitted (loads i s).2 = es ∧ st = .ok ∧ a' = a := by
        simpa [State.ranThrough] using ht
      exact ⟨hans, rfl⟩
    · simpa using congrArg List.getLast? ht
    · obtain rfl : e = .response k .ok a := by simpa [State.heldAt] using congrArg List.getLast? ht
      simp at he
  · obtain ⟨st, hne, rfl⟩ := exec_of_not_passes h hp hex
    obtain ⟨rfl, -⟩ : st = .ok ∧ 0#7 = a := by simpa using congrArg List.getLast? ht
    exact absurd rfl hne

/-- Settles O29: the command has emitted all that its micro-steps emit, and these end in `OK`. -/
theorem writeCountOfEveryCommand : Obligations.WriteCountOfEveryCommand := by
  intro i s t k last es a h hex ht
  obtain ⟨hans, rfl⟩ := emitted_of_exec_ok h hex ht
  exact length_busWrites_loads hans

/-! ### Reset -/

/-- R316: `rst` overrides everything else an edge would do. -/
theorem edge_of_rst (h : p.rst = true) (s : State) : edge p s = s.applyReset := if_pos h

/-- R350: no response stands on any port after reset. -/
theorem applyReset_rsp (s : State) (k : Nat) : (s.applyReset.ports[k]?).bind Port.rsp = none := by
  cases h : s.ports[k]? <;> simp [h]

/-- R352: the requesters keep their words. -/
theorem applyReset_pending (s : State) : s.applyReset.ports.map Port.pending = s.ports.map Port.pending :=
  dropResponses_pending s

/-- R350: no requester is ready during reset. -/
theorem reqReadyPin_of_rst (h : p.rst = true) (s : State) (k : Nat) : reqReadyPin p s k = false := by
  simp [reqReadyPin, h]

/-- Settles O38: the edge is a reset, which is read field by field. -/
theorem resetSetsEveryField : Obligations.ResetSetsEveryField := by
  intro p s h
  rw [edge_of_rst h]
  exact ⟨rfl, rfl, rfl, rfl, rfl, rfl, rfl, rfl, rfl, rfl, applyReset_rsp s, applyReset_pending s, rfl, rfl, rfl,
    reqReadyPin_of_rst h s⟩

/-! ### The reset state -/

/-- The parameters of the reset state and its one port are legal. -/
theorem legal_reset : State.reset.legal = true := by decide

/-- Nothing is outstanding in the reset state, and its wait counter is 0. -/
theorem portsMatch_reset : State.reset.PortsMatch [] :=
  ⟨nofun, nofun, fun h => absurd rfl h, Nat.zero_le _, nofun⟩

/-- Settles O40: the parameters are legal, no transaction is open, and the sequencer is IDLE with nothing outstanding. -/
theorem resetStateIsConsistent : Obligations.ResetStateIsConsistent where
  legal := legal_reset
  owner := nofun
  abort := nofun
  idle := fun _ => portsMatch_reset
  busy := nofun

end Sys2Proof.Machine
end
